-- ==== Sys2Proof/Word.lean ====
section
/-! DEFINITION. The byte, the only word the block computes with (00_scope.md R20: "A byte is 8 bits"; every value is unsigned). -/

namespace Sys2Proof

/-- A byte: eight bits, bit 0 the least significant (R20). -/
abbrev Byte := BitVec 8

end Sys2Proof
end

