-- ==== Sys2Proof/Config.lean ====
section
/-! DEFINITION. What is fixed for the machine: the constants of 00_scope.md §4, the build parameters, the input signals of
10_state.md R26, and the free values (constants with no body: nothing in Lean can say what they are). -/

namespace Sys2Proof

namespace Config

/-- MAX_DATA, the most data bytes in one frame (R12). -/
abbrev maxData : Nat := 32

/-- ADDR_BITS, the width of a device register address (R13). -/
abbrev addrBits : Nat := 5

/-- FIFO_DEPTH, payloads in each device FIFO (R18): of the device contract (R127) and the reference slave (R131), never of the block. -/
abbrev fifoDepth : Nat := 3

/-- The spec's default for FILL_BYTE (R15); a build may fix another. -/
abbrev defaultFillByte : Byte := 0xFF

end Config

/-- The parameters fixed when the block is built (R15, R16, R147). The four durations count `clk` cycles and are integers ≥ 1,
so a build outside the spec ("with any of them 0") cannot be written down. -/
structure Build where
  /-- FILL_BYTE: the byte sent in each data position of a read (R15). -/
  fillByte : Byte
  /-- SCK_DIV: cycles SCK stays in each half period (R16). -/
  sckDiv : ℕ+
  /-- T_SETUP: cycles from chip-select assertion to the first rising SCK edge (R16). -/
  tSetup : ℕ+
  /-- T_HOLD: cycles from the last falling SCK edge to chip-select release (R16). -/
  tHold : ℕ+
  /-- T_IDLE: cycles of GAP after chip-select release (R16, R112). -/
  tIdle : ℕ+
  deriving DecidableEq, Repr, Inhabited

/-- The values the input signals hold during one clock cycle (R26). `clk` itself is the step. -/
structure Pins where
  /-- `rst`, synchronous reset, active high. -/
  rst : Bool
  /-- `req_valid`: the host offers a request in this cycle. -/
  reqValid : Bool
  /-- `req_op`, 2 bits (R71). -/
  reqOp : BitVec 2
  /-- `req_addr`: register address or command opcode. -/
  reqAddr : Byte
  /-- `req_len`, 6 bits, 0 to 63. -/
  reqLen : BitVec 6
  /-- `req_wdata[0..31]`, byte 0 sent first. -/
  reqWdata : Vector Byte 32
  /-- `miso`: serial data from the device. -/
  miso : Bool
  /-- `bus_fault`: transport-level fault indication (R113). -/
  busFault : Bool
  deriving DecidableEq, Repr, Inhabited

namespace Config

/-- FREE VALUE. The parameters of the build `State.reset` stands for; the spec leaves them OPEN (R16, D15). Log 3. -/
opaque build : Build

/-- FREE VALUE. What the input signals hold in cycle `n` where `State.inputs` does not say (R130: `miso` is a free draw in every
cycle; D17: `bus_fault` is a free input). Log 2. -/
opaque freePins : Nat → Pins

/-- FREE VALUE. `rsp_status` after a TransportError completed in cycle `n` (R121, U14). Log 5. -/
opaque freeStatus : Nat → Byte

/-- FREE VALUE. `rsp_rdata` after a TransportError completed in cycle `n` (R121, U14). Log 5. -/
opaque freeRdata : Nat → Vector Byte 32

/-- FREE VALUE. `rx_sh` after the reset edge of cycle `n` (R47, U15). Log 4. -/
opaque freeRxSh : Nat → Byte

/-- FREE VALUE. `rx_frame` after the reset edge of cycle `n` (R47, U15). Log 4. -/
opaque freeRxFrame : Nat → Vector Byte 33

end Config

end Sys2Proof
end

