-- ==== Sys2Proof/Syntax.lean ====
section
/-! DEFINITION. The instruction set as syntax: one constructor for each row of spec/opcode_table.json, and the two encoded forms a
word of it takes (30_encoding.md R69). -/

namespace Sys2Proof

/-- The four request operations (R71). -/
inductive ReqOp where
  | readReg
  | readBuf
  | writeReg
  | writeBuf
  deriving DecidableEq, Repr, Inhabited

/-- Every row of spec/opcode_table.json: the eight wire commands (format OPC8) and the four requests (format REQ).
The data bytes of a command's frame are not in the opcode byte, and the write bytes of a request travel beside REQW (R70, R73). -/
inductive Instr where
  /-- R_REGISTER(a), `0b000aaaaa` (R97). -/
  | rRegister (a : BitVec 5)
  /-- W_REGISTER(a), `0b001aaaaa` (R98). -/
  | wRegister (a : BitVec 5)
  /-- R_RX_PAYLOAD, 0x61 (R99). -/
  | rRxPayload
  /-- W_TX_PAYLOAD, 0xA0 (R100). -/
  | wTxPayload
  /-- FLUSH_TX, 0xE1 (R101). -/
  | flushTx
  /-- FLUSH_RX, 0xE2 (R102). -/
  | flushRx
  /-- REUSE_TX_PL, 0xE3 (R103). -/
  | reuseTxPl
  /-- NOP, 0xFF (R104). -/
  | nop
  /-- READ_REG: `len` is in the word and ignored (R70, R91). -/
  | readReg (len : BitVec 6) (addr : Byte)
  /-- READ_BUF (R92). -/
  | readBuf (len : BitVec 6) (addr : Byte)
  /-- WRITE_REG: `len` is in the word and ignored (R70, R93). -/
  | writeReg (len : BitVec 6) (addr : Byte)
  /-- WRITE_BUF (R94). -/
  | writeBuf (len : BitVec 6) (addr : Byte)
  deriving DecidableEq, Repr

/-- An encoded instruction: an opcode byte or a request descriptor REQW (R69, R70, R72). -/
inductive Encoded where
  | opc8 (b : Byte)
  | reqw (w : BitVec 16)
  deriving DecidableEq, Repr

end Sys2Proof
end

