-- ==== Sys2Proof/Decode.lean ====
section
/-! DEFINITION. The decoder, total on every word and refusing by name, and the encoder after it, both written from 30_encoding.md
R70 to R72, R81 and R82. -/

namespace Sys2Proof

/-- REG_SET, the 26 documented register addresses (00_scope.md R13). -/
def inRegSet (a : BitVec 5) : Bool :=
  decide (a.toNat ≤ 0x17) || a == 0x1C || a == 0x1D

/-- Why an opcode byte is no instruction: RESERVED_R, RESERVED_W and ILLEGAL of R82. -/
inductive DecodeError where
  /-- R_REGISTER at an address outside REG_SET (R83). -/
  | reservedRead (a : BitVec 5)
  /-- W_REGISTER at an address outside REG_SET (R83). -/
  | reservedWrite (a : BitVec 5)
  /-- One of the 186 values with no meaning (R84). -/
  | illegal (b : Byte)
  deriving DecidableEq, Repr

/-- `DecodeOpcode` (R82). -/
def decodeOpcode (b : Byte) : Except DecodeError Instr :=
  let a := b.extractLsb' 0 5
  if b.extractLsb' 5 3 = 0b000 then
    if inRegSet a then .ok (.rRegister a) else .error (.reservedRead a)
  else if b.extractLsb' 5 3 = 0b001 then
    if inRegSet a then .ok (.wRegister a) else .error (.reservedWrite a)
  else if b = 0x61 then .ok .rRxPayload
  else if b = 0xA0 then .ok .wTxPayload
  else if b = 0xE1 then .ok .flushTx
  else if b = 0xE2 then .ok .flushRx
  else if b = 0xE3 then .ok .reuseTxPl
  else if b = 0xFF then .ok .nop
  else .error (.illegal b)

/-- The operation a 2-bit `op` names (R71); all four values are defined. -/
def reqOpOf (op : BitVec 2) : ReqOp :=
  if op = 0b00 then .readReg
  else if op = 0b01 then .readBuf
  else if op = 0b10 then .writeReg
  else .writeBuf

/-- The 2-bit code of an operation (R71). -/
def ReqOp.code : ReqOp → BitVec 2
  | .readReg => 0b00
  | .readBuf => 0b01
  | .writeReg => 0b10
  | .writeBuf => 0b11

/-- REQW = op 15:14, len 13:8, addr 7:0 (R70). -/
def packReqw (op : BitVec 2) (len : BitVec 6) (addr : Byte) : BitVec 16 :=
  op ++ len ++ addr

/-- The request a descriptor stands for; every one of the 65,536 values decodes (R70, R85). -/
def decodeReqw (w : BitVec 16) : Instr :=
  let len := w.extractLsb' 8 6
  let addr := w.extractLsb' 0 8
  match reqOpOf (w.extractLsb' 14 2) with
  | .readReg => .readReg len addr
  | .readBuf => .readBuf len addr
  | .writeReg => .writeReg len addr
  | .writeBuf => .writeBuf len addr

/-- The decoder over both formats. -/
def decode : Encoded → Except DecodeError Instr
  | .opc8 b => decodeOpcode b
  | .reqw w => .ok (decodeReqw w)

/-- The encoder: the word of an instruction, from the formats of R70 and R72. -/
def encode : Instr → Encoded
  | .rRegister a => .opc8 ((0b000 : BitVec 3) ++ a)
  | .wRegister a => .opc8 ((0b001 : BitVec 3) ++ a)
  | .rRxPayload => .opc8 0x61
  | .wTxPayload => .opc8 0xA0
  | .flushTx => .opc8 0xE1
  | .flushRx => .opc8 0xE2
  | .reuseTxPl => .opc8 0xE3
  | .nop => .opc8 0xFF
  | .readReg len addr => .reqw (packReqw ReqOp.readReg.code len addr)
  | .readBuf len addr => .reqw (packReqw ReqOp.readBuf.code len addr)
  | .writeReg len addr => .reqw (packReqw ReqOp.writeReg.code len addr)
  | .writeBuf len addr => .reqw (packReqw ReqOp.writeBuf.code len addr)

/-- A word as spec/opcode_table.json numbers its bits, given as so many bits of a number: an 8-bit word is an opcode byte, a
16-bit word a REQW. No other width is in the table, and a number that does not fit its width is no word. -/
def tableWord (nbits w : Nat) : Option Encoded :=
  if nbits = 8 ∧ w < 2 ^ 8 then some (.opc8 (BitVec.ofNat 8 w))
  else if nbits = 16 ∧ w < 2 ^ 16 then some (.reqw (BitVec.ofNat 16 w))
  else none

/-- The instruction the decoder reads from a word of spec/opcode_table.json. -/
def decodeTableWord (nbits w : Nat) : Option Instr :=
  match tableWord nbits w with
  | none => none
  | some e =>
    match decode e with
    | .ok i => some i
    | .error _ => none

end Sys2Proof
end

