-- ==== Sys2Proof/Machine/State.lean ====
section
/-! DEFINITION. The state of the block: every register of 10_state.md §3 under its own name, the build parameters, and the model's
two own fields (the input signals still to come and the cycle counter). -/

namespace Sys2Proof.Machine

/-- `phase` (R31): exactly six values. -/
inductive Phase where
  | idle
  | setup
  | shiftLo
  | shiftHi
  | hold
  | gap
  deriving DecidableEq, Repr, Inhabited

/-- The completion codes of `rsp_err` (R41): four values, all defined. -/
inductive Completion where
  | ok
  | invalidAddress
  | invalidLength
  | transportError
  deriving DecidableEq, Repr, Inhabited

/-- Nothing stops the block: it "raises no trap" and every request ends in a completion code (60_exceptions.md R132), and every
edge has a rule (R106). So there is no fault. -/
inductive Fault where
  deriving DecidableEq, Repr

/-- Why the model has no meaning for an instruction. -/
inductive Refusal where
  /-- Raised by an arm of `exec` whose instruction has no meaning yet. Safe: the model stops where the hardware goes on.
  No arm raises it. -/
  | notModelled (mnemonic : String)
  deriving DecidableEq, Repr

/-- Everything the spec gives the block. Register values are those of the current clock cycle (R21). -/
structure State where
  /-- `phase` (R31). -/
  phase : Phase
  /-- `cnt`, the down-counter of the timed phases (R32; unbounded by R17). -/
  cnt : Nat
  /-- `frame_len`, 6 bits (R33). -/
  frameLen : BitVec 6
  /-- `nrx_l`, 6 bits (R33). -/
  nrxL : BitVec 6
  /-- `byte_idx`, 0 to 32 (R34). -/
  byteIdx : Fin 33
  /-- `bit_idx`, 7 down to 0 (R34). -/
  bitIdx : Fin 8
  /-- `tx_frame[0..32]` (R35). -/
  txFrame : Vector Byte 33
  /-- `rx_sh` (R36). -/
  rxSh : Byte
  /-- `rx_frame[0..32]` (R36). -/
  rxFrame : Vector Byte 33
  /-- `fault_l` (R37). -/
  faultL : Bool
  /-- `op_l`, 2 bits, all four values defined (R38). -/
  opL : ReqOp
  /-- `addr_l` (R38). -/
  addrL : Byte
  /-- `csn_r`; false means chip-select asserted (R39). -/
  csnR : Bool
  /-- `sck_r` (R39). -/
  sckR : Bool
  /-- `mosi_r` (R39). -/
  mosiR : Bool
  /-- `done_r` (R40). -/
  doneR : Bool
  /-- `rsp_err` (R41). -/
  rspErr : Completion
  /-- `rsp_status` (R42). -/
  rspStatus : Byte
  /-- `rsp_rdata[0..31]` (R43). -/
  rspRdata : Vector Byte 32
  /-- `rsp_nrx`, 6 bits (R43). -/
  rspNrx : BitVec 6
  /-- `st_valid` (R44). -/
  stValid : Bool
  /-- `st_rx_dr` (R44). -/
  stRxDr : Bool
  /-- `st_tx_ds` (R44). -/
  stTxDs : Bool
  /-- `st_max_rt` (R44). -/
  stMaxRt : Bool
  /-- `fifo_valid` (R45). -/
  fifoValid : Bool
  /-- `fifo_rx_empty` (R45). -/
  fifoRxEmpty : Bool
  /-- The parameters of this build (00_scope.md §4), fixed: no step changes them. Log 3. -/
  build : Build
  /-- The MODEL's own: what the input signals hold in this cycle and the coming ones, nearest first. Log 2. -/
  inputs : List Pins
  /-- The MODEL's own: the number of this cycle, at which free values are drawn. Log 6. -/
  tick : Nat
  deriving DecidableEq, Repr

/-- The block right after a reset edge (R47). `rx_sh` and `rx_frame` are unspecified there, so they are free values (log 4). -/
def State.reset : State where
  phase := .idle
  cnt := 0
  frameLen := 0
  nrxL := 0
  byteIdx := 0
  bitIdx := 7
  txFrame := Vector.replicate 33 0x00
  rxSh := Config.freeRxSh 0
  rxFrame := Config.freeRxFrame 0
  faultL := false
  opL := .readReg
  addrL := 0x00
  csnR := true
  sckR := false
  mosiR := false
  doneR := false
  rspErr := .ok
  rspStatus := 0x00
  rspRdata := Vector.replicate 32 0x00
  rspNrx := 0
  stValid := false
  stRxDr := false
  stTxDs := false
  stMaxRt := false
  fifoValid := false
  fifoRxEmpty := false
  build := Config.build
  inputs := []
  tick := 1

end Sys2Proof.Machine
end

