-- ==== Sys2Proof/Machine/Operands.lean ====
section
/-! DEFINITION. The pure functions over a request's operands: address classes, the opcode byte, data length and bytes, the
validation and the frame (30_encoding.md R74 to R79, 40_host_operations.md R89 and R90). -/

namespace Sys2Proof

/-- `IsRead(op) = (op[1] == 0)` (R71). -/
def ReqOp.isRead (op : ReqOp) : Bool := op.code.getLsbD 1 == false

/-- `IsBuf(op) = (op[0] == 1)` (R71). -/
def ReqOp.isBuf (op : ReqOp) : Bool := op.code.getLsbD 0

/-- The read operation of the same shape (register or buffer) as `op`. -/
def ReqOp.asRead (op : ReqOp) : ReqOp := if op.isBuf then .readBuf else .readReg

/-- The write operation of the same shape (register or buffer) as `op`. -/
def ReqOp.asWrite (op : ReqOp) : ReqOp := if op.isBuf then .writeBuf else .writeReg

end Sys2Proof

namespace Sys2Proof.Machine

/-- The class of an 8-bit address (R74). -/
inductive AddrClass where
  | reg
  | payloadCmd
  | noargCmd
  | invalid
  deriving DecidableEq, Repr

/-- `a in REG_SET` for an 8-bit address: its top three bits are 0 and the 5-bit address below them is documented (R13, R74). -/
def isRegAddr (a : Byte) : Bool :=
  a.extractLsb' 5 3 == 0b000 && inRegSet (a.extractLsb' 0 5)

/-- NOARG_SET (R14). -/
def isNoargCmd (a : Byte) : Bool :=
  a == 0xE1 || a == 0xE2 || a == 0xE3 || a == 0xFF

/-- CMD_SET without NOARG_SET: the two commands that carry data bytes (R14). -/
def isPayloadCmd (a : Byte) : Bool :=
  a == 0x61 || a == 0xA0

/-- CMD_SET (R14). -/
def isCmd (a : Byte) : Bool := isPayloadCmd a || isNoargCmd a

/-- `AddrClass` (R74). -/
def addrClass (a : Byte) : AddrClass :=
  if isRegAddr a then .reg
  else if isPayloadCmd a then .payloadCmd
  else if isNoargCmd a then .noargCmd
  else .invalid

/-- `Opcode` (R75): a read sends the address unchanged, a write sets bit 5. -/
def opcode (op : ReqOp) (a : Byte) : Byte :=
  if op.isRead then a ||| 0x00 else a ||| 0x20

/-- `DataLen` (R77): the number of data bytes in the frame. -/
def dataLen (op : ReqOp) (a : Byte) (len : BitVec 6) : Nat :=
  if !op.isRead && addrClass a = .noargCmd then 0
  else if op.isBuf then len.toNat
  else 1

/-- `DataByte` (R78), with FILL_BYTE from the build. -/
def dataByte (b : Build) (op : ReqOp) (wdata : Vector Byte 32) (i : Nat) : Byte :=
  if op.isRead then b.fillByte else wdata.getD i 0x00

/-- `RxCount` (R79): the number of read bytes returned. -/
def rxCount (op : ReqOp) (a : Byte) (len : BitVec 6) : Nat :=
  if op.isRead then dataLen op a len else 0

/-- `Validate` (R89): the address first, then the length of a buffer operation. -/
def validate (op : ReqOp) (a : Byte) (len : BitVec 6) : Completion :=
  if addrClass a = .invalid then .invalidAddress
  else if op.isBuf && (decide (len.toNat < 1) || decide (len.toNat > Config.maxData)) then .invalidLength
  else .ok

/-- The frame of `Encode` (R90): the opcode byte, then the data bytes in order. -/
def frameOf (b : Build) (op : ReqOp) (a : Byte) (len : BitVec 6) (wdata : Vector Byte 32) : List Byte :=
  opcode op a :: (List.range (dataLen op a len)).map (dataByte b op wdata)

/-- `tx_frame` as acceptance loads it: the frame, then 0x00 (R35, R107). -/
def loadFrame (F : List Byte) : Vector Byte 33 :=
  Vector.ofFn fun k => F.getD k.val 0x00

/-- The 2-bit code a completion has in `rsp_err` (R41). -/
def Completion.code : Completion → BitVec 2
  | .ok => 0
  | .invalidAddress => 1
  | .invalidLength => 2
  | .transportError => 3

end Sys2Proof.Machine
end

