-- ==== Sys2Proof/Machine/Flags.lean ====
section
/-! DEFINITION. The flag registers: the status decode and the FIFO-status decode (43_response_decode.md R119, R120). -/

namespace Sys2Proof.Machine

/-- RX_DR = 0x40, bit 6 of a status byte (R56, R119). -/
def rxDrOf (status : Byte) : Bool := status.getLsbD 6

/-- TX_DS = 0x20, bit 5 of a status byte (R56, R119). -/
def txDsOf (status : Byte) : Bool := status.getLsbD 5

/-- MAX_RT = 0x10, bit 4 of a status byte (R56, R119). -/
def maxRtOf (status : Byte) : Bool := status.getLsbD 4

/-- RX_EMPTY = 0x01, bit 0 of a FIFO_STATUS byte (R57, R120). -/
def rxEmptyOf (fifoStatus : Byte) : Bool := fifoStatus.getLsbD 0

/-- FIFO_STATUS, the one register address the block decodes (R54, R57). -/
def fifoStatusAddr : Byte := 0x17

/-- `StatusDecode` (R119): all three flags are overwritten, whatever they were. -/
def statusDecode (status : Byte) (s : State) : State :=
  { s with
    stValid := true
    stRxDr := rxDrOf status
    stTxDs := txDsOf status
    stMaxRt := maxRtOf status }

/-- The condition of `FifoDecode` (R120): a read of address 0x17 that returns at least one byte. -/
def decodesFifo (op : ReqOp) (addr : Byte) (nrx : Nat) : Bool :=
  op.isRead && addr == fifoStatusAddr && decide (nrx ≥ 1)

/-- `FifoDecode` (R120), from the latched operation and address and the first byte after the echoed status. -/
def fifoDecode (s : State) : State :=
  if decodesFifo s.opL s.addrL s.nrxL.toNat then
    { s with fifoValid := true, fifoRxEmpty := rxEmptyOf (s.rxFrame.get 1) }
  else s

end Sys2Proof.Machine
end

