-- ==== Sys2Proof/Machine/Ops.lean ====
section
/-! DEFINITION. The shared operations: the input signals, the outputs, the completions, each edge rule of 42_transaction_engine.md
and the reset edge, and the one operation that offers a request to the port. -/

namespace Sys2Proof.Machine

/-! ### The input signals -/

/-- What the input signals hold `n` cycles from now: what the state says, and a free value past that (log 2). -/
def State.pinsAfter (s : State) (n : Nat) : Pins :=
  (s.inputs[n]?).getD (Config.freePins (s.tick + n))

/-- What the input signals hold in the current cycle, the one that ends at the coming edge (R21). -/
def State.pins (s : State) : Pins := s.pinsAfter 0

/-- The clock edge itself: the current cycle's signals are past, the next cycle begins. No register of the block changes. -/
def State.advance (s : State) : State :=
  { s with inputs := s.inputs.tail, tick := s.tick + 1 }

/-- The operation at the request port (R71). -/
def State.portOp (s : State) : ReqOp := reqOpOf s.pins.reqOp

/-- The request descriptor at the port (R70). -/
def State.portReqw (s : State) : BitVec 16 := packReqw s.pins.reqOp s.pins.reqLen s.pins.reqAddr

/-- The request at the port: the block's only source of instructions (R67). -/
def fetch (s : State) : Instr := decodeReqw s.portReqw

/-! ### The outputs -/

/-- `req_ready` (R28). -/
def State.reqReady (s : State) : Bool := s.phase == .idle && !s.pins.rst

/-- `busy` (R28). -/
def State.busy (s : State) : Bool := s.phase != .idle

/-- The output signals (R27). -/
structure Outputs where
  reqReady : Bool
  busy : Bool
  done : Bool
  rspErr : BitVec 2
  rspStatus : Byte
  rspRdata : Vector Byte 32
  rspNrx : BitVec 6
  stValid : Bool
  stRxDr : Bool
  stTxDs : Bool
  stMaxRt : Bool
  fifoValid : Bool
  fifoRxEmpty : Bool
  csn : Bool
  sck : Bool
  mosi : Bool
  deriving DecidableEq, Repr

/-- The output signals of the current cycle: two combinational ones, every other a register (R27, R28). -/
def outputs (s : State) : Outputs where
  reqReady := s.reqReady
  busy := s.busy
  done := s.doneR
  rspErr := s.rspErr.code
  rspStatus := s.rspStatus
  rspRdata := s.rspRdata
  rspNrx := s.rspNrx
  stValid := s.stValid
  stRxDr := s.stRxDr
  stTxDs := s.stTxDs
  stMaxRt := s.stMaxRt
  fifoValid := s.fifoValid
  fifoRxEmpty := s.fifoRxEmpty
  csn := s.csnR
  sck := s.sckR
  mosi := s.mosiR

/-! ### Reset -/

/-- The reset edge (70_reset_and_hazards.md R145): every register takes its value of R47; the two that R47 leaves unspecified are
drawn afresh (log 4). -/
def resetEdge (s : State) : State :=
  { s with
    phase := .idle
    cnt := 0
    frameLen := 0
    nrxL := 0
    byteIdx := 0
    bitIdx := 7
    txFrame := Vector.replicate 33 0x00
    rxSh := Config.freeRxSh s.tick
    rxFrame := Config.freeRxFrame s.tick
    faultL := false
    opL := .readReg
    addrL := 0x00
    csnR := true
    sckR := false
    mosiR := false
    doneR := false
    rspErr := .ok
    rspStatus := 0x00
    rspRdata := Vector.replicate 32 0x00
    rspNrx := 0
    stValid := false
    stRxDr := false
    stTxDs := false
    stMaxRt := false
    fifoValid := false
    fifoRxEmpty := false }

/-! ### Completions: the block's only "exceptions" (60_exceptions.md R132, R138). Nothing is saved and no vector is taken. -/

/-- The read result of a successful request (R118): `nrx_l` bytes after the echoed status, then 0x00. -/
def readData (nrx : Nat) (rxFrame : Vector Byte 33) : Vector Byte 32 :=
  Vector.ofFn fun i : Fin 32 => if i.val < nrx then rxFrame.get i.succ else 0x00

/-- The response registers of `CompleteOK` (R118), before the two decodes. -/
def captureResponse (s : State) : State :=
  { s with
    rspErr := .ok
    rspStatus := s.rxFrame.get 0
    rspRdata := readData s.nrxL.toNat s.rxFrame
    rspNrx := s.nrxL }

/-- `CompleteOK` (R118). -/
def completeOK (s : State) : State :=
  fifoDecode (statusDecode (s.rxFrame.get 0) (captureResponse s))

/-- `CompleteTransportError` (R121): `rsp_status` and `rsp_rdata` are fresh free values (log 5). -/
def completeTransportError (s : State) : State :=
  { s with
    rspErr := .transportError
    rspNrx := 0
    rspStatus := Config.freeStatus s.tick
    rspRdata := Config.freeRdata s.tick }

/-- `CompleteError` (R122), for a request that failed validation. -/
def completeError (e : Completion) (s : State) : State :=
  { s with
    rspErr := if e = .invalidAddress then .invalidAddress else .invalidLength
    rspNrx := 0
    doneR := true }

/-! ### The edge rules of a transaction -/

/-- What `cnt` is loaded with on entering a timed phase: its duration less one (R32). -/
def reload (duration : ℕ+) : Nat := (duration : Nat) - 1

/-- The shift register takes one bit at its low end: `{sh[6:0], bit}` (R110). -/
def shiftIn (sh : Byte) (bit : Bool) : Byte := sh.extractLsb' 0 7 ++ BitVec.ofBool bit

/-- One cycle of a timed phase passes (R108 to R112). -/
def countDown (s : State) : State := { s with cnt := s.cnt - 1 }

/-- `Rise` (R110): SCK goes high and MISO is sampled. -/
def rise (s : State) : State :=
  { s with
    sckR := true
    rxSh := shiftIn s.rxSh s.pins.miso
    cnt := reload s.build.sckDiv
    phase := .shiftHi }

/-- `Fall` after the last bit of the frame (R109). -/
def fallToHold (s : State) : State :=
  { s with
    sckR := false
    rxFrame := s.rxFrame.set s.byteIdx.val s.rxSh s.byteIdx.isLt
    cnt := reload s.build.tHold
    phase := .hold }

/-- `Fall` after the last bit of a byte that is not the frame's last (R109). -/
def fallToNextByte (s : State) : State :=
  { s with
    sckR := false
    rxFrame := s.rxFrame.set s.byteIdx.val s.rxSh s.byteIdx.isLt
    byteIdx := s.byteIdx + 1
    bitIdx := 7
    mosiR := (s.txFrame.get (s.byteIdx + 1)).getLsbD 7
    cnt := reload s.build.sckDiv
    phase := .shiftLo }

/-- `Fall` between two bits of one byte (R109). -/
def fallToNextBit (s : State) : State :=
  { s with
    sckR := false
    bitIdx := s.bitIdx - 1
    mosiR := (s.txFrame.get s.byteIdx).getLsbD (s.bitIdx - 1).val
    cnt := reload s.build.sckDiv
    phase := .shiftLo }

/-- `Fall` (R109). -/
def fall (s : State) : State :=
  if s.bitIdx = 0 then
    if s.byteIdx.val = s.frameLen.toNat - 1 then fallToHold s else fallToNextByte s
  else fallToNextBit s

/-- Chip-select is released, `done` is raised and GAP begins (R111). -/
def release (s : State) : State :=
  { s with
    csnR := true
    mosiR := false
    doneR := true
    cnt := reload s.build.tIdle
    phase := .gap }

/-- The abort edge (R113). -/
def abortEdge (s : State) : State :=
  { s with
    faultL := true
    sckR := false
    cnt := reload s.build.tHold
    phase := .hold }

/-- IDLE with no request taken (R107). -/
def idleEdge (s : State) : State := { s with doneR := false }

/-- SETUP (R108). -/
def setupEdge (s : State) : State := if s.cnt = 0 then rise s else countDown s

/-- SHIFT_HI (R109). -/
def shiftHiEdge (s : State) : State := if s.cnt = 0 then fall s else countDown s

/-- SHIFT_LO (R110). -/
def shiftLoEdge (s : State) : State := if s.cnt = 0 then rise s else countDown s

/-- HOLD (R111): chip-select is released and the request completes, by `fault_l`. -/
def holdEdge (s : State) : State :=
  if s.cnt = 0 then release (if s.faultL then completeTransportError s else completeOK s)
  else countDown s

/-- The end of GAP (R112). -/
def gapEnd (s : State) : State := { s with doneR := false, phase := .idle }

/-- One cycle of GAP that is not its last (R112). -/
def gapWait (s : State) : State := { s with doneR := false, cnt := s.cnt - 1 }

/-- GAP (R112). -/
def gapEdge (s : State) : State := if s.cnt = 0 then gapEnd s else gapWait s

/-- The phases in which a transport fault aborts the transaction (R106, R113). -/
def Phase.abortable : Phase → Bool
  | .idle => false
  | .setup => true
  | .shiftLo => true
  | .shiftHi => true
  | .hold => false
  | .gap => false

/-- The rule of the current phase, with no request taken (R106, case 3). -/
def phaseEdge (s : State) : State :=
  match s.phase with
  | .idle => idleEdge s
  | .setup => setupEdge s
  | .shiftHi => shiftHiEdge s
  | .shiftLo => shiftLoEdge s
  | .hold => holdEdge s
  | .gap => gapEdge s

/-- The one rule that applies at an edge where no request is taken, by the priority of R106: reset, abort, the phase's own rule. -/
def edgeRule (s : State) : State :=
  if s.pins.rst then resetEdge s
  else if s.phase.abortable && s.pins.busFault then abortEdge s
  else phaseEdge s

/-- A clock edge at which no request is taken. -/
def clockEdge (s : State) : State := (edgeRule s).advance

/-! ### Acceptance -/

/-- The assignments of R107 for a valid request with frame `F` and `r` read bytes: the request is latched, its frame loaded,
chip-select asserted and the first bit driven. -/
def loadTransaction (F : List Byte) (r : Nat) (op : ReqOp) (addr : Byte) (s : State) : State :=
  { s with
    txFrame := loadFrame F
    frameLen := BitVec.ofNat 6 F.length
    nrxL := BitVec.ofNat 6 r
    opL := op
    addrL := addr
    byteIdx := 0
    bitIdx := 7
    faultL := false
    csnR := false
    sckR := false
    mosiR := (F.getD 0 0x00).getLsbD 7
    cnt := reload s.build.tSetup
    phase := .setup
    doneR := false }

/-- A valid request begins its transaction: `(F, r) := Encode(...)`, then the assignments (R90, R107). -/
def beginTransaction (op : ReqOp) (len : BitVec 6) (addr : Byte) (s : State) : State :=
  loadTransaction (frameOf s.build op addr len s.pins.reqWdata) (rxCount op addr len) op addr s

/-- The acceptance of a request (R107): it is validated, and either completes at once or begins its transaction. -/
def acceptRule (op : ReqOp) (len : BitVec 6) (addr : Byte) (s : State) : State :=
  match validate op addr len with
  | .ok => beginTransaction op len addr s
  | e => completeError e s

/-- The edge at which a request is accepted. -/
def acceptEdge (op : ReqOp) (len : BitVec 6) (addr : Byte) (s : State) : State :=
  (acceptRule op len addr s).advance

/-- A clock edge at which the host offers this request: it is accepted if `req_ready` (R26, R28), and otherwise the edge runs as if
none were offered (R112, R145; log 8). The write bytes are those at the port. -/
def offer (op : ReqOp) (len : BitVec 6) (addr : Byte) (s : State) : Host.Outcome State Fault Refusal :=
  .next (if s.reqReady then acceptEdge op len addr s else clockEdge s)

/-! ### Placing a word at the port -/

/-- The request of one register operation that produces the wire command of an opcode byte, as the pseudo-instructions of R88 issue
it (`len` 1 as the assembler writes it): reads for R_REGISTER and R_RX_PAYLOAD, writes for the others. -/
def requestFor (b : Byte) : ReqOp × Byte :=
  if b.extractLsb' 5 3 = 0b000 then (.readReg, b)
  else if b.extractLsb' 5 3 = 0b001 then (.writeReg, (b.extractLsb' 0 5).zeroExtend 8)
  else if b = 0x61 then (.readReg, b)
  else (.writeReg, b)

/-- The signals `p` with a request of these fields offered, its write bytes zero, and no reset. -/
def offering (p : Pins) (op : BitVec 2) (len : BitVec 6) (addr : Byte) : Pins :=
  { p with
    rst := false
    reqValid := true
    reqOp := op
    reqLen := len
    reqAddr := addr
    reqWdata := Vector.replicate 32 0x00 }

/-- `s` with the current cycle's signals replaced, in the phase in which the port takes a request. -/
def State.withPins (s : State) (p : Pins) : State :=
  { s with phase := .idle, inputs := p :: s.inputs.tail }

/-- `s` with the instruction of an encoded word offered at the request port in the current cycle (log 9): a REQW as it stands, an
opcode byte as the request that produces its command. -/
def placeEncoded (e : Encoded) (s : State) : State :=
  match e with
  | .opc8 b => s.withPins (offering s.pins (requestFor b).1.code 1 (requestFor b).2)
  | .reqw w => s.withPins (offering s.pins (w.extractLsb' 14 2) (w.extractLsb' 8 6) (w.extractLsb' 0 8))

/-- The same for a word of spec/opcode_table.json; a number that is no word of it changes nothing. -/
def placeWord (nbits w : Nat) (s : State) : State :=
  match tableWord nbits w with
  | none => s
  | some e => placeEncoded e s

end Sys2Proof.Machine
end

