-- ==== Sys2Proof/Machine/Commands.lean ====
section
/-! DEFINITION. The meanings of the eight wire commands (41_commands.md R97 to R104): the clock edge at which a request that
produces the command is offered. The opcode byte names the command; whether the frame is a read or a write of it, how many data
bytes it has and which they are stand at the request port, as in "Produced by" of each rule (log 7). -/

namespace Sys2Proof.Machine

/-- R_REGISTER(a) (R97): produced by READ_REG(a) and READ_BUF(a, L). -/
def execRRegister (a : BitVec 5) (s : State) : Host.Outcome State Fault Refusal :=
  offer s.portOp.asRead s.pins.reqLen (a.zeroExtend 8) s

/-- W_REGISTER(a) (R98): produced by WRITE_REG(a, v) and WRITE_BUF(a, bytes). -/
def execWRegister (a : BitVec 5) (s : State) : Host.Outcome State Fault Refusal :=
  offer s.portOp.asWrite s.pins.reqLen (a.zeroExtend 8) s

/-- R_RX_PAYLOAD (R99): produced by any of the four operations. -/
def execRRxPayload (s : State) : Host.Outcome State Fault Refusal :=
  offer s.portOp s.pins.reqLen 0x61 s

/-- W_TX_PAYLOAD (R100): produced by any of the four operations. -/
def execWTxPayload (s : State) : Host.Outcome State Fault Refusal :=
  offer s.portOp s.pins.reqLen 0xA0 s

/-- FLUSH_TX (R101): a write sends the opcode alone. -/
def execFlushTx (s : State) : Host.Outcome State Fault Refusal :=
  offer s.portOp s.pins.reqLen 0xE1 s

/-- FLUSH_RX (R102): a write sends the opcode alone. -/
def execFlushRx (s : State) : Host.Outcome State Fault Refusal :=
  offer s.portOp s.pins.reqLen 0xE2 s

/-- REUSE_TX_PL (R103): a write sends the opcode alone. -/
def execReuseTxPl (s : State) : Host.Outcome State Fault Refusal :=
  offer s.portOp s.pins.reqLen 0xE3 s

/-- NOP (R104): a write is the one-byte status probe. -/
def execNop (s : State) : Host.Outcome State Fault Refusal :=
  offer s.portOp s.pins.reqLen 0xFF s

end Sys2Proof.Machine
end

