-- ==== Sys2Proof/Machine/Requests.lean ====
section
/-! DEFINITION. The meanings of the four request operations (40_host_operations.md R91 to R94): the clock edge at which the host
offers the request. What follows it is the engine's (R108 to R113); the two levels meet in R116. -/

namespace Sys2Proof.Machine

/-- READ_REG (R91): `len` is ignored. -/
def execReadReg (len : BitVec 6) (addr : Byte) (s : State) : Host.Outcome State Fault Refusal :=
  offer .readReg len addr s

/-- READ_BUF (R92). -/
def execReadBuf (len : BitVec 6) (addr : Byte) (s : State) : Host.Outcome State Fault Refusal :=
  offer .readBuf len addr s

/-- WRITE_REG (R93): `len` is ignored, the byte written is `req_wdata[0]`. -/
def execWriteReg (len : BitVec 6) (addr : Byte) (s : State) : Host.Outcome State Fault Refusal :=
  offer .writeReg len addr s

/-- WRITE_BUF (R94): the bytes written are `req_wdata[0..len-1]`. -/
def execWriteBuf (len : BitVec 6) (addr : Byte) (s : State) : Host.Outcome State Fault Refusal :=
  offer .writeBuf len addr s

end Sys2Proof.Machine
end

