-- ==== Sys2Proof/Machine/Dispatch.lean ====
section
/-! DEFINITION. One arm for each constructor of Instr. -/

namespace Sys2Proof.Machine

def exec (i : Instr) (s : State) : Host.Outcome State Fault Refusal :=
  match i with
  | .rRegister a => Sys2Proof.Machine.execRRegister a s
  | .wRegister a => Sys2Proof.Machine.execWRegister a s
  | .rRxPayload => Sys2Proof.Machine.execRRxPayload s
  | .wTxPayload => Sys2Proof.Machine.execWTxPayload s
  | .flushTx => Sys2Proof.Machine.execFlushTx s
  | .flushRx => Sys2Proof.Machine.execFlushRx s
  | .reuseTxPl => Sys2Proof.Machine.execReuseTxPl s
  | .nop => Sys2Proof.Machine.execNop s
  | .readReg len addr => Sys2Proof.Machine.execReadReg len addr s
  | .readBuf len addr => Sys2Proof.Machine.execReadBuf len addr s
  | .writeReg len addr => Sys2Proof.Machine.execWriteReg len addr s
  | .writeBuf len addr => Sys2Proof.Machine.execWriteBuf len addr s

end Sys2Proof.Machine
end

