-- ==== Sys2Proof/Machine/Step.lean ====
section
/-! DEFINITION. One step is one rising edge of `clk` (R24, R106). -/

namespace Sys2Proof.Machine

/-- With `req_valid`, the edge runs the request at the port; without it, the edge at which no request is taken (R106). -/
def step (s : State) : Host.Outcome State Fault Refusal :=
  if s.pins.reqValid then exec (fetch s) s else .next (clockEdge s)

/-- `s` with the instruction of a spec/opcode_table.json word offered at the request port in the current cycle (log 9). -/
def State.withFetchWord (s : State) (nbits w : Nat) : State := placeWord nbits w s

end Sys2Proof.Machine
end

