-- ==== Sys2Proof/Machine/Assembly.lean ====
section
/-! DEFINITION. The assembly lines and pseudo-instructions of 30_encoding.md R87 and R88, as data. -/

namespace Sys2Proof.Machine

/-- One request per line (R87). -/
inductive Line where
  | rreg (addr : Byte)
  | rbuf (addr : Byte) (len : BitVec 6)
  | wreg (addr : Byte) (v : Byte)
  | wbuf (addr : Byte) (bytes : List Byte)
  deriving DecidableEq, Repr

/-- The operation of a line (R87). -/
def Line.op : Line → ReqOp
  | .rreg _ => .readReg
  | .rbuf _ _ => .readBuf
  | .wreg _ _ => .writeReg
  | .wbuf _ _ => .writeBuf

/-- The address of a line (R87). -/
def Line.addr : Line → Byte
  | .rreg a => a
  | .rbuf a _ => a
  | .wreg a _ => a
  | .wbuf a _ => a

/-- The `len` field of a line: the assembler writes 1 for the register operations, and WBUF the count of its bytes (R70, R87). -/
def Line.len : Line → BitVec 6
  | .rreg _ => 1
  | .rbuf _ n => n
  | .wreg _ _ => 1
  | .wbuf _ bytes => BitVec.ofNat 6 bytes.length

/-- The data bytes of a line, in order (R87). -/
def Line.bytes : Line → List Byte
  | .rreg _ => []
  | .rbuf _ _ => []
  | .wreg _ v => [v]
  | .wbuf _ bytes => bytes

/-- The request descriptor a line assembles to (R87). -/
def Line.reqw (l : Line) : BitVec 16 := packReqw l.op.code l.len l.addr

/-- The data bytes of a line on `req_wdata`. -/
def Line.wdata (l : Line) : Vector Byte 32 := Vector.ofFn fun k => l.bytes.getD k.val 0x00

/-- The input signals of a cycle in which the host offers a line, with no reset and no fault. -/
def Line.offered (l : Line) (miso : Bool) : Pins where
  rst := false
  reqValid := true
  reqOp := l.op.code
  reqAddr := l.addr
  reqLen := l.len
  reqWdata := l.wdata
  miso := miso
  busFault := false

/-- The frame of a line (R90). -/
def Line.frame (b : Build) (l : Line) : List Byte := frameOf b l.op l.addr l.len l.wdata

/-- The pseudo-instructions (R88). -/
inductive Pseudo where
  | rRegister (a : Byte)
  | wRegister (a : Byte) (v : Byte)
  | rRxPayload (n : BitVec 6)
  | wTxPayload (bytes : List Byte)
  | flushTx
  | flushRx
  | reuseTxPl
  | statusProbe
  | clearFlags (m : Byte)
  deriving DecidableEq, Repr

/-- Each pseudo-instruction expands to exactly one line (R88). `CLEAR_FLAGS` uses the status register's address 0x07, which the spec
takes from general knowledge (log 15). -/
def Pseudo.expand : Pseudo → Line
  | .rRegister a => .rreg a
  | .wRegister a v => .wreg a v
  | .rRxPayload n => .rbuf 0x61 n
  | .wTxPayload bytes => .wbuf 0xA0 bytes
  | .flushTx => .wreg 0xE1 0x00
  | .flushRx => .wreg 0xE2 0x00
  | .reuseTxPl => .wreg 0xE3 0x00
  | .statusProbe => .wreg 0xFF 0x00
  | .clearFlags m => .wreg 0x07 (m &&& 0x70)

end Sys2Proof.Machine
end

