-- ==== Sys2Proof/Machine/Device.lean ====
section
/-! DEFINITION. The far end of the bus, apart from the block: the device register map (20_memory.md R53 to R57), which frames change
the device (R64), and what the spec says of the device as named premises (43_response_decode.md R124 to R129). The step uses none of
it: to the block, MISO is an unconstrained input (R130). -/

namespace Sys2Proof.Machine

/-! ### The device register map -/

/-- The width in bytes of a device register (R53, R54). -/
def regWidth (a : BitVec 5) : Nat := if a = 0x0A ∨ a = 0x0B ∨ a = 0x10 then 5 else 1

/-- A row of the register map; `fromSource` marks a name the source gives with its address (R54). -/
structure RegRow where
  addr : BitVec 5
  name : String
  fromSource : Bool
  deriving DecidableEq, Repr

/-- The documented registers (R54). The names not from the source are general knowledge; nothing depends on them. -/
def registerMap : List RegRow :=
  [⟨0x00, "CONFIG", true⟩, ⟨0x01, "EN_AA", false⟩, ⟨0x02, "EN_RXADDR", false⟩, ⟨0x03, "SETUP_AW", false⟩,
    ⟨0x04, "SETUP_RETR", false⟩, ⟨0x05, "RF_CH", false⟩, ⟨0x06, "RF_SETUP", false⟩, ⟨0x07, "STATUS", false⟩,
    ⟨0x08, "OBSERVE_TX", false⟩, ⟨0x09, "RPD", false⟩] ++
  [⟨0x0A, "RX_ADDR_P0", false⟩, ⟨0x0B, "RX_ADDR_P1", false⟩, ⟨0x0C, "RX_ADDR_P2", false⟩, ⟨0x0D, "RX_ADDR_P3", false⟩,
    ⟨0x0E, "RX_ADDR_P4", false⟩, ⟨0x0F, "RX_ADDR_P5", false⟩, ⟨0x10, "TX_ADDR", false⟩] ++
  [⟨0x11, "RX_PW_P0", false⟩, ⟨0x12, "RX_PW_P1", false⟩, ⟨0x13, "RX_PW_P2", false⟩, ⟨0x14, "RX_PW_P3", false⟩,
    ⟨0x15, "RX_PW_P4", false⟩, ⟨0x16, "RX_PW_P5", false⟩, ⟨0x17, "FIFO_STATUS", true⟩, ⟨0x1C, "DYNPD", true⟩,
    ⟨0x1D, "FEATURE", true⟩]

/-- The address of the device's status register, from general knowledge (R54, N11). The block never uses it. -/
def statusAddr : BitVec 5 := 0x07

/-- The documented fields of CONFIG (R55); the block decodes none of them. -/
def configEnCrc : Byte := 0x08
/-- CRCO, bit 2 of CONFIG (R55). -/
def configCrco : Byte := 0x04
/-- PWR_UP, bit 1 of CONFIG (R55). -/
def configPwrUp : Byte := 0x02
/-- PRIM_RX, bit 0 of CONFIG (R55). -/
def configPrimRx : Byte := 0x01

/-- The three sticky flags of STATUS: RX_DR 0x40, TX_DS 0x20, MAX_RT 0x10 (R56). -/
def stickyMask : Byte := 0x40 ||| 0x20 ||| 0x10

/-- The device's CONFIG register (R54, R55). -/
def configAddr : BitVec 5 := 0x00

/-- RX_PW_Pk, the payload-width register of pipe `k`: 0x11 to 0x16, from general knowledge (R54, K5; log 19). -/
def payloadWidthAddr (k : Fin 6) : BitVec 5 := 0x11 + BitVec.ofNat 5 k.val

/-! ### Side effects (R64) -/

/-- The commands whose frame can change device state (R64): all but R_REGISTER and NOP (R155). A request is no command of its own:
`requestChangesDevice` judges it by the command it puts on the wire. -/
def commandChangesDevice : Instr → Bool
  | .rRegister _ => false
  | .wRegister _ => true
  | .rRxPayload => true
  | .wTxPayload => true
  | .flushTx => true
  | .flushRx => true
  | .reuseTxPl => true
  | .nop => false
  | .readReg _ _ => false
  | .readBuf _ _ => false
  | .writeReg _ _ => false
  | .writeBuf _ _ => false

/-- Whether a request's frame can change device state: by the command of its opcode byte, so a read of a command opcode does as that
command does (R64, R155). A request that fails validation sends no frame. -/
def requestChangesDevice (op : ReqOp) (len : BitVec 6) (a : Byte) : Bool :=
  if validate op a len = .ok then
    match decodeOpcode (opcode op a) with
    | .ok i => commandChangesDevice i
    | .error _ => false
  else false

/-- Whether an instruction's frame can change device state (R64), for all twelve rows. -/
def changesDevice (i : Instr) : Bool :=
  match i with
  | .rRegister a => commandChangesDevice (.rRegister a)
  | .wRegister a => commandChangesDevice (.wRegister a)
  | .rRxPayload => commandChangesDevice .rRxPayload
  | .wTxPayload => commandChangesDevice .wTxPayload
  | .flushTx => commandChangesDevice .flushTx
  | .flushRx => commandChangesDevice .flushRx
  | .reuseTxPl => commandChangesDevice .reuseTxPl
  | .nop => commandChangesDevice .nop
  | .readReg len a => requestChangesDevice .readReg len a
  | .readBuf len a => requestChangesDevice .readBuf len a
  | .writeReg len a => requestChangesDevice .writeReg len a
  | .writeBuf len a => requestChangesDevice .writeBuf len a

/-! ### The device contract, as premises a claim may take

Each premise speaks of the frames a block of build `b` sends, and is silent where 93_implementation_defined.md leaves the device's
effect or answer "any value" (log 22). -/

/-- The four modes of the device; it is in exactly one at any instant (R129). -/
inductive DeviceMode where
  | powerDown
  | standby
  | receiving
  | transmitting
  deriving DecidableEq, Repr

/-- A received payload and the pipe it came in by (R128). -/
structure Payload where
  pipe : Fin 6
  bytes : List Byte
  deriving DecidableEq, Repr

/-- What a device shows for the contract to speak of: its answer to a complete frame, what may become of it between frames, and what
R124 to R129 name of its state. -/
structure Device (σ : Type) where
  /-- The bytes returned during a frame, and the state after it. -/
  respond : σ → List Byte → List Byte × σ
  /-- What the device may become between two frames, by radio, by time or by the enable line. -/
  drift : σ → σ → Prop
  /-- The status register. -/
  status : σ → Byte
  /-- The transmit FIFO, oldest payload first. -/
  txFifo : σ → List (List Byte)
  /-- The receive FIFO, oldest payload first. -/
  rxFifo : σ → List Payload
  /-- The level of the physical enable line. -/
  enable : σ → Bool
  /-- The mode. -/
  mode : σ → DeviceMode

/-- The frames a block of build `b` sends (R90). -/
def SentBy (b : Build) (F : List Byte) : Prop :=
  ∃ op a len wdata, validate op a len = .ok ∧ F = frameOf b op a len wdata

/-- The frame of a read of `n` bytes: its opcode and `n` fill bytes (R91, R92). -/
def readFrame (b : Build) (c : Byte) (n : Nat) : List Byte := c :: List.replicate n b.fillByte

/-- Byte `i` after the echoed status, M[1 + i], of what the device returns for a frame. -/
def Device.byteOf {σ : Type} (d : Device σ) (x : σ) (F : List Byte) (i : Nat) : Byte := (d.respond x F).1.getD (i + 1) 0x00

/-- The device's state after a frame. -/
def Device.after {σ : Type} (d : Device σ) (x : σ) (F : List Byte) : σ := (d.respond x F).2

/-- What a one-byte register reads as (R97). -/
def Device.regByte {σ : Type} (d : Device σ) (b : Build) (x : σ) (a : BitVec 5) : Byte :=
  d.byteOf x (readFrame b (a.zeroExtend 8) 1) 0

/-- A payload read as long as the payload, which no frame but one of at most 32 data bytes can be, returns all its bytes in order
(R99). -/
def Device.readsWhole {σ : Type} (d : Device σ) (b : Build) (x : σ) (p : List Byte) : Prop :=
  p.length ≤ Config.maxData → ∀ i, i < p.length → d.byteOf x (readFrame b 0x61 p.length) i = p.getD i 0x00

/-- R124: the first byte returned is the status register from before the frame's own effect. -/
def Device.StatusEcho {σ : Type} (d : Device σ) (b : Build) : Prop :=
  ∀ (x : σ) (F : List Byte), SentBy b F → (d.respond x F).1.getD 0 0x00 = d.status x

/-- R125: at the addresses of `stable`, registers whose bits the device does not itself change, the value written reads back: one
byte, or all five of a multi-byte register (R53), written and read whole in one frame each. Nothing is said of a frame longer or
shorter than the register (U2, U3, U4), nor of the status register. -/
def Device.ReadBack {σ : Type} (d : Device σ) (b : Build) (stable : BitVec 5 → Prop) : Prop :=
  ∀ (x y : σ) (a : BitVec 5) (D : List Byte), stable a → inRegSet a = true → a ≠ statusAddr → D.length = regWidth a →
    (let written := d.after x ((0x20 ||| a.zeroExtend 8) :: D)
     y = written ∨ d.drift written y) →
    ∀ i, i < regWidth a → d.byteOf y (readFrame b (a.zeroExtend 8) (regWidth a)) i = D.getD i 0x00

/-- R126: a flag that is set stays set over every frame but a write of the status register, and between frames; and a one-byte write
of the status register clears each flag whose bit is 1 in it and leaves each whose bit is 0 as it was, set or clear. Nothing is said
of a longer write of the status register, whose effect U3 leaves open (log 22). -/
def Device.StickyFlags {σ : Type} (d : Device σ) (b : Build) : Prop :=
  ∀ (x : σ) (j : Nat), j = 4 ∨ j = 5 ∨ j = 6 →
    (∀ F, SentBy b F → F.head? ≠ some (0x20 ||| statusAddr.zeroExtend 8) → (d.status x).getLsbD j = true →
      (d.status (d.after x F)).getLsbD j = true) ∧
    (∀ y, d.drift x y → (d.status x).getLsbD j = true → (d.status y).getLsbD j = true) ∧
    (∀ v : Byte, (d.status (d.after x [0x20 ||| statusAddr.zeroExtend 8, v])).getLsbD j =
      ((d.status x).getLsbD j && !v.getLsbD j))

/-- R127: each FIFO holds FIFO_DEPTH payloads and never more; the flushes empty them, read or written (R155); RX_EMPTY of a
FIFO_STATUS read of any length tells whether the receive FIFO is empty; each payload read takes the head of the receive FIFO, and
returns its bytes when it is as long as the head; and a payload of the configured size `P` is loaded while there is room (R100). The
write forms of R_RX_PAYLOAD, the read forms of W_TX_PAYLOAD and a load into a full FIFO are left open (U5, U6, U8; log 22). -/
def Device.Fifos {σ : Type} (d : Device σ) (b : Build) (P : Nat) : Prop :=
  (∀ x, (d.txFifo x).length ≤ Config.fifoDepth ∧ (d.rxFifo x).length ≤ Config.fifoDepth) ∧
  (∃ x, (d.txFifo x).length = Config.fifoDepth) ∧ (∃ x, (d.rxFifo x).length = Config.fifoDepth) ∧
  (∀ x n, n ≤ Config.maxData → d.txFifo (d.after x (readFrame b 0xE1 n)) = []) ∧
  (∀ x n, n ≤ Config.maxData → d.rxFifo (d.after x (readFrame b 0xE2 n)) = []) ∧
  (∀ x n, 1 ≤ n → n ≤ Config.maxData → (rxEmptyOf (d.byteOf x (readFrame b fifoStatusAddr n) 0) = true ↔ d.rxFifo x = [])) ∧
  (∀ x n p ps, 1 ≤ n → n ≤ Config.maxData → d.rxFifo x = p :: ps → d.rxFifo (d.after x (readFrame b 0x61 n)) = ps) ∧
  (∀ x p ps, d.rxFifo x = p :: ps → d.readsWhole b x p.bytes) ∧
  (∀ x D, D.length = P → (d.txFifo x).length < Config.fifoDepth → d.txFifo (d.after x (0xA0 :: D)) = d.txFifo x ++ [D])

/-- R128: payloads have a fixed size `P k` for each pipe `k` of `used`, 1 to 32, which is what the device's payload-width register of
the pipe holds; every payload received has the full size of its pipe, and a payload read of that length returns all of it. It is a
premise about the states of `fixed`, those in which the sizes stand. -/
def Device.PayloadSize {σ : Type} (d : Device σ) (b : Build) (P : Fin 6 → Nat) (used : Fin 6 → Prop) (fixed : σ → Prop) : Prop :=
  (∀ k, used k → 1 ≤ P k ∧ P k ≤ 32) ∧
  ∀ x, fixed x →
    (∀ k, used k → (d.regByte b x (payloadWidthAddr k)).toNat = P k) ∧
    (∀ p ∈ d.rxFifo x, used p.pipe ∧ p.bytes.length = P p.pipe) ∧
    (∀ p ps, d.rxFifo x = p :: ps → d.readsWhole b x p.bytes)

/-- PWR_UP, bit 1 of what CONFIG reads as (R55). -/
def Device.pwrUp {σ : Type} (d : Device σ) (b : Build) (x : σ) : Bool := d.regByte b x configAddr &&& configPwrUp != 0x00

/-- PRIM_RX, bit 0 of what CONFIG reads as (R55). -/
def Device.primRx {σ : Type} (d : Device σ) (b : Build) (x : σ) : Bool := d.regByte b x configAddr &&& configPrimRx != 0x00

/-- R129: the mode is controlled by PWR_UP, PRIM_RX and the level of the enable line, and by nothing else; and no frame moves that
line, which the block does not drive (R5). -/
def Device.ModeControlled {σ : Type} (d : Device σ) (b : Build) : Prop :=
  (∀ x y, d.pwrUp b x = d.pwrUp b y → d.primRx b x = d.primRx b y → d.enable x = d.enable y → d.mode x = d.mode y) ∧
  (∀ x F, SentBy b F → d.enable (d.after x F) = d.enable x)

end Sys2Proof.Machine
end

