-- ==== Sys2Proof/Machine/Transaction.lean ====
section
/-! DEFINITION. The level of a whole transaction (40_host_operations.md, R116): the edge schedule of R117, what it means that the
device returns given bytes (R114), and the response a transaction leaves (R91 to R94, R118 to R122). The step never uses this file;
the statements say that the clock-by-clock engine agrees with it. -/

namespace Sys2Proof.Machine

/-! ### The request an instruction offers -/

/-- The operation, length and address an instruction offers to the port: a request its own, a wire command the form that stands at
the port (41_commands.md, "Produced by"). -/
def requestOf (i : Instr) (s : State) : ReqOp × BitVec 6 × Byte :=
  match i with
  | .rRegister a => (s.portOp.asRead, s.pins.reqLen, a.zeroExtend 8)
  | .wRegister a => (s.portOp.asWrite, s.pins.reqLen, a.zeroExtend 8)
  | .rRxPayload => (s.portOp, s.pins.reqLen, 0x61)
  | .wTxPayload => (s.portOp, s.pins.reqLen, 0xA0)
  | .flushTx => (s.portOp, s.pins.reqLen, 0xE1)
  | .flushRx => (s.portOp, s.pins.reqLen, 0xE2)
  | .reuseTxPl => (s.portOp, s.pins.reqLen, 0xE3)
  | .nop => (s.portOp, s.pins.reqLen, 0xFF)
  | .readReg len addr => (.readReg, len, addr)
  | .readBuf len addr => (.readBuf, len, addr)
  | .writeReg len addr => (.writeReg, len, addr)
  | .writeBuf len addr => (.writeBuf, len, addr)

/-- The length in bytes of the frame of a request (R86, R90). -/
def frameLength (op : ReqOp) (addr : Byte) (len : BitVec 6) : Nat := 1 + dataLen op addr len

/-! ### The edge schedule (R117); the acceptance edge is edge 0 -/

/-- The edge of the rising SCK of bit `n`, which samples MISO. -/
def riseAt (b : Build) (n : Nat) : Nat := (b.tSetup : Nat) + 2 * (b.sckDiv : Nat) * n

/-- The edge of the falling SCK of bit `n`. -/
def fallAt (b : Build) (n : Nat) : Nat := riseAt b n + (b.sckDiv : Nat)

/-- E_L, the last falling SCK of an `N`-byte frame. -/
def lastFallAt (b : Build) (N : Nat) : Nat := (b.tSetup : Nat) + (b.sckDiv : Nat) * (16 * N - 1)

/-- The edge that releases chip-select and writes the response. -/
def doneAt (b : Build) (N : Nat) : Nat := lastFallAt b N + (b.tHold : Nat)

/-- The edge that enters IDLE again; the next acceptance is one edge later at the earliest. -/
def readyAt (b : Build) (N : Nat) : Nat := doneAt b N + (b.tIdle : Nat)

/-! ### The inputs of a transaction accepted in state `s` -/

/-- No reset and no transport fault at the `K` edges after the acceptance edge. -/
def State.quiet (s : State) (K : Nat) : Prop :=
  ∀ n, 1 ≤ n → n ≤ K → (s.pinsAfter n).rst = false ∧ (s.pinsAfter n).busFault = false

/-- The device returns the bytes `M` during an `N`-byte frame: `M[k][j]` is the MISO sample of bit `8k + (7 - j)` (R114). -/
def State.presents (s : State) (N : Nat) (M : Nat → Byte) : Prop :=
  ∀ n, n < 8 * N → (s.pinsAfter (riseAt s.build n)).miso = (M (n / 8)).getLsbD (7 - n % 8)

/-- The bit of the frame that MOSI carries as bit `n`: bit `7 - n mod 8` of byte `n div 8` (R114, R115). -/
def frameBit (F : List Byte) (n : Nat) : Bool := (F.getD (n / 8) 0x00).getLsbD (7 - n % 8)

/-! ### The response of a transaction -/

/-- The response and flag registers (R41 to R45). -/
structure Response where
  err : Completion
  status : Byte
  rdata : Vector Byte 32
  nrx : BitVec 6
  stValid : Bool
  stRxDr : Bool
  stTxDs : Bool
  stMaxRt : Bool
  fifoValid : Bool
  fifoRxEmpty : Bool
  deriving DecidableEq, Repr

/-- The response registers of a state. -/
def State.response (s : State) : Response where
  err := s.rspErr
  status := s.rspStatus
  rdata := s.rspRdata
  nrx := s.rspNrx
  stValid := s.stValid
  stRxDr := s.stRxDr
  stTxDs := s.stTxDs
  stMaxRt := s.stMaxRt
  fifoValid := s.fifoValid
  fifoRxEmpty := s.fifoRxEmpty

/-- The response of a successful transaction in which the device returned `M`: R91 to R94 and R116, with the flags of R119, R120. -/
def Response.succeed (old : Response) (op : ReqOp) (addr : Byte) (r : Nat) (M : Nat → Byte) : Response where
  err := .ok
  status := M 0
  rdata := Vector.ofFn fun i : Fin 32 => if i.val < r then M (i.val + 1) else 0x00
  nrx := BitVec.ofNat 6 r
  stValid := true
  stRxDr := rxDrOf (M 0)
  stTxDs := txDsOf (M 0)
  stMaxRt := maxRtOf (M 0)
  fifoValid := if decodesFifo op addr r then true else old.fifoValid
  fifoRxEmpty := if decodesFifo op addr r then rxEmptyOf (M 1) else old.fifoRxEmpty

/-- The response of a request that failed validation (R122). -/
def Response.reject (old : Response) (e : Completion) : Response :=
  { old with err := e, nrx := 0 }

/-- READ_REG, READ_BUF, WRITE_REG and WRITE_BUF at the level of R91 to R94: validation, and then the response to the frame. -/
def transact (op : ReqOp) (len : BitVec 6) (addr : Byte) (M : Nat → Byte) (old : Response) : Response :=
  match validate op addr len with
  | .ok => old.succeed op addr (rxCount op addr len) M
  | e => old.reject e

end Sys2Proof.Machine
end

