-- ==== Sys2Proof/Machine/Slave.lean ====
section
/-! DEFINITION. The reference slave (43_response_decode.md R131), a test device and no claim about the chip: its state, its answer to
a complete frame, the request lines of 95_test_vectors.md against it, and the view of it as a `Device`. -/

namespace Sys2Proof.Machine

/-- The state of the reference slave. `RefSlave.Wf` gives the widths and depths of R131. -/
structure RefSlave where
  regs : Vector (List Byte) 32
  rxf : List (List Byte)
  txf : List (List Byte)
  deriving DecidableEq, Repr

/-- `REG[a]`. -/
def RefSlave.reg (x : RefSlave) (a : BitVec 5) : List Byte := x.regs.get a.toFin

/-- `x` with `REG[a] := bytes`. -/
def RefSlave.setReg (x : RefSlave) (a : BitVec 5) (bytes : List Byte) : RefSlave :=
  { x with regs := x.regs.set a.toFin.val bytes a.toFin.isLt }

/-- `STATUS = REG[0x07][0]`. -/
def RefSlave.status (x : RefSlave) : Byte := (x.reg statusAddr).getD 0 0x00

/-- The states of R131: `REG[a]` is 5 bytes wide at 0x0A, 0x0B and 0x10 and 1 byte at the rest of REG_SET, and neither FIFO holds more
than FIFO_DEPTH payloads. -/
structure RefSlave.Wf (x : RefSlave) : Prop where
  widths : ∀ a, inRegSet a = true → (x.reg a).length = regWidth a
  rx_depth : x.rxf.length ≤ Config.fifoDepth
  tx_depth : x.txf.length ≤ Config.fifoDepth

/-- `n` filler bytes, the reference slave's own choice. -/
def fillers (n : Nat) : List Byte := List.replicate n 0x00

/-- The first `n` bytes of `bytes`, and fillers past its end (log 14). -/
def upTo (n : Nat) (bytes : List Byte) : List Byte := (List.range n).map fun i => bytes.getD i 0x00

/-- A register of `w` bytes, now `bytes`, after a write of `D`: its first bytes are those of `D`, and bytes past its end are
ignored. -/
def overwrite (w : Nat) (bytes D : List Byte) : List Byte :=
  (List.range w).map fun i => if i < D.length then D.getD i 0x00 else bytes.getD i 0x00

/-- What the reference slave returns in `M[1..]` for a command with data bytes `D`, and its state after the frame. -/
def RefSlave.command (x : RefSlave) (i : Instr) (D : List Byte) : Option (List Byte × RefSlave) :=
  match i with
  | .rRegister a =>
    if a = 0x17 then some (upTo D.length [if x.rxf = [] then 0x01 else 0x00], x)
    else some (upTo D.length ((x.reg a).take (regWidth a)), x)
  | .wRegister a =>
    if a = statusAddr then some (fillers D.length, x.setReg a [x.status &&& ~~~(D.getD 0 0x00 &&& stickyMask)])
    else some (fillers D.length, x.setReg a (overwrite (regWidth a) (x.reg a) D))
  | .rRxPayload =>
    match x.rxf with
    | [] => some (fillers D.length, x)
    | p :: ps => some (upTo D.length p, { x with rxf := ps })
  | .wTxPayload =>
    if x.txf.length < Config.fifoDepth then some (fillers D.length, { x with txf := x.txf ++ [D] })
    else some (fillers D.length, x)
  | .flushTx => some (fillers D.length, { x with txf := [] })
  | .flushRx => some (fillers D.length, { x with rxf := [] })
  | .reuseTxPl => some (fillers D.length, x)
  | .nop => some (fillers D.length, x)
  | .readReg _ _ => none
  | .readBuf _ _ => none
  | .writeReg _ _ => none
  | .writeBuf _ _ => none

/-- The answer of the reference slave to a complete frame: the status from before it, then the command's bytes. R131 gives no
answer to a frame whose opcode is no command. -/
def RefSlave.answer (x : RefSlave) (F : List Byte) : Option (List Byte × RefSlave) :=
  match F with
  | [] => none
  | c :: D =>
    match decodeOpcode c with
    | .error _ => none
    | .ok i =>
      match x.command i D with
      | none => none
      | some (M, y) => some (x.status :: M, y)

/-- One request line against the reference slave, at the level of a whole transaction (R116, R131): the response registers and the
slave after it. -/
def runLine (b : Build) (l : Line) (r : Response) (x : RefSlave) : Response × RefSlave :=
  match validate l.op l.addr l.len with
  | .ok =>
    match x.answer (l.frame b) with
    | none => (r, x)
    | some (M, y) => (transact l.op l.len l.addr (M.getD · 0x00) r, y)
  | _ => (transact l.op l.len l.addr (fun _ => 0x00) r, x)

/-- A straight-line program of requests against the reference slave (95_test_vectors.md part 3). -/
def runLines (b : Build) (ls : List Line) (r : Response) (x : RefSlave) : Response × RefSlave :=
  ls.foldl (fun p l => runLine b l p.1 p.2) (r, x)

/-! ### The reference slave as a device -/

/-- A register reads as last written, and every other register as before. -/
theorem RefSlave.reg_setReg (x : RefSlave) (a c : BitVec 5) (bytes : List Byte) :
    (x.setReg a bytes).reg c = if a = c then bytes else x.reg c := by
  have h : (x.setReg a bytes).reg c = (x.regs.set a.toFin.val bytes a.toFin.isLt)[c.toFin.val] := rfl
  rw [h, Vector.getElem_set]
  by_cases hac : a = c
  · subst hac; simp
  · have hne : a.toFin.val ≠ c.toFin.val := fun he => hac (BitVec.eq_of_toFin_eq (Fin.ext he))
    rw [if_neg hne, if_neg hac]; rfl

/-- A register written with as many bytes as it has keeps the widths. -/
theorem RefSlave.Wf.setReg {x : RefSlave} (h : x.Wf) {a : BitVec 5} {bytes : List Byte} (hl : bytes.length = regWidth a) :
    (x.setReg a bytes).Wf where
  widths c hc := by
    rw [RefSlave.reg_setReg]
    split
    · subst_vars; exact hl
    · exact h.widths c hc
  rx_depth := h.rx_depth
  tx_depth := h.tx_depth

/-- Every command keeps the widths and the depths. -/
theorem RefSlave.command_wf {x y : RefSlave} {i : Instr} {D M : List Byte} (h : x.Wf) (hc : x.command i D = some (M, y)) : y.Wf := by
  cases i with
  | rRegister a => simp only [RefSlave.command] at hc; split at hc <;> cases hc <;> exact h
  | wRegister a =>
    simp only [RefSlave.command] at hc
    split at hc
    · subst_vars; cases hc; exact h.setReg rfl
    · cases hc; exact h.setReg (by simp [overwrite])
  | rRxPayload =>
    simp only [RefSlave.command] at hc
    split at hc
    · cases hc; exact h
    · rename_i hx; cases hc
      exact ⟨h.widths, by have := h.rx_depth; rw [hx, List.length_cons] at this; exact Nat.le_of_succ_le this, h.tx_depth⟩
  | wTxPayload =>
    simp only [RefSlave.command] at hc
    split at hc
    · rename_i hx; cases hc; exact ⟨h.widths, h.rx_depth, by simpa using hx⟩
    · cases hc; exact h
  | flushTx => cases hc; exact ⟨h.widths, h.rx_depth, Nat.zero_le _⟩
  | flushRx => cases hc; exact ⟨h.widths, Nat.zero_le _, h.tx_depth⟩
  | reuseTxPl => cases hc; exact h
  | nop => cases hc; exact h
  | readReg => cases hc
  | readBuf => cases hc
  | writeReg => cases hc
  | writeBuf => cases hc

/-- Every complete frame keeps the widths and the depths. -/
theorem RefSlave.answer_wf {x y : RefSlave} {F M : List Byte} (h : x.Wf) (ha : x.answer F = some (M, y)) : y.Wf := by
  unfold RefSlave.answer at ha
  split at ha
  · cases ha
  · split at ha
    · cases ha
    · split at ha
      · cases ha
      · rename_i hc; cases ha; exact RefSlave.command_wf h hc

/-- The reference slave in the terms of the device contract: it changes at frames only, its payloads count as those of pipe 0, and it
stands still with the enable line low (log 14). A frame R131 gives no answer to returns nothing. -/
def refSlaveDevice : Device {x : RefSlave // x.Wf} where
  respond x F :=
    match h : x.1.answer F with
    | none => ([], x)
    | some (M, y) => (M, ⟨y, RefSlave.answer_wf x.2 h⟩)
  drift _ _ := False
  status x := x.1.status
  txFifo x := x.1.txf
  rxFifo x := x.1.rxf.map (⟨0, ·⟩)
  enable _ := false
  mode _ := .standby

end Sys2Proof.Machine
end

