-- ==== Sys2Proof/Safety.lean ====
section
/-! DEFINITION. What holds of a run: the invariants of reachable states (10_state.md R48), what the engine keeps besides, and the
states a reset leaves. -/

namespace Sys2Proof.Machine

/-- Chip-select is asserted in these phases (R48, item 1). -/
def Phase.selected : Phase → Bool
  | .idle => false
  | .setup => true
  | .shiftLo => true
  | .shiftHi => true
  | .hold => true
  | .gap => false

/-- The six items of R48, in its order. Item 4 reads "frame_len − 1" as 0 where `frame_len` is 0, which is the case only before a
request was framed (log 10). -/
structure Inv (s : State) : Prop where
  chip_select : s.csnR = false ↔ s.phase.selected = true
  clock_high : s.sckR = true ↔ s.phase = .shiftHi
  frame_bounds : s.phase.abortable = true →
    1 ≤ s.frameLen.toNat ∧ s.frameLen.toNat ≤ 33 ∧ s.byteIdx.val < s.frameLen.toNat
  read_count : s.nrxL.toNat = if s.opL.isRead then s.frameLen.toNat - 1 else 0
  done_strobe : s.doneR = true →
    (s.phase = .gap ∧ s.cnt = reload s.build.tIdle) ∨
    (s.phase = .idle ∧ (s.rspErr = .invalidAddress ∨ s.rspErr = .invalidLength))
  mosi_idle : s.csnR = true → s.mosiR = false

/-- The most `cnt` holds in each phase: what it is loaded with on entry (R17, R32). -/
def cntLimit (b : Build) : Phase → Nat
  | .idle => 0
  | .setup => reload b.tSetup
  | .shiftLo => reload b.sckDiv
  | .shiftHi => reload b.sckDiv
  | .hold => reload b.tHold
  | .gap => reload b.tIdle

/-- What the engine keeps besides R48: `cnt` never exceeds its phase's duration less one (R32), the frame on the wire begins with the
opcode of a valid address (R84), `tx_frame` is 0x00 past the frame (R35), MOSI holds the current bit (R109), and a fault is latched
only from the abort on (R37, R113). -/
structure EngineInv (s : State) : Prop where
  cnt_bounded : s.cnt ≤ cntLimit s.build s.phase
  opcode_legal : s.csnR = false → s.txFrame.get 0 = opcode s.opL s.addrL ∧ addrClass s.addrL ≠ .invalid
  tail_zero : ∀ k : Fin 33, s.frameLen.toNat ≤ k.val → s.txFrame.get k = 0x00
  mosi_bit : s.phase.abortable = true → s.mosiR = (s.txFrame.get s.byteIdx).getLsbD s.bitIdx.val
  no_fault_yet : s.phase.abortable = true → s.faultL = false

/-- `k` clock edges: `k` steps, stopping at a fault or a refusal (neither is ever answered). -/
def runEdges : Nat → State → Host.Outcome State Fault Refusal
  | 0, s => .next s
  | k + 1, s =>
    match step s with
    | .next t => runEdges k t
    | .fault r => .fault r
    | .refused r => .refused r

/-- The states a reset edge can leave (R47): the registers of `State.reset`, any build, any inputs to come, any value in the two
registers R47 leaves unspecified. -/
def State.justReset (s : State) : Prop :=
  s = { State.reset with
        rxSh := s.rxSh
        rxFrame := s.rxFrame
        build := s.build
        inputs := s.inputs
        tick := s.tick }

/-- A state some run from a reset reaches. -/
def State.reachable (s : State) : Prop :=
  ∃ (s₀ : State) (k : Nat), s₀.justReset ∧ runEdges k s₀ = .next s

end Sys2Proof.Machine
end

