-- ==== Sys2Proof/WellFormed.lean ====
section
/-! DEFINITION. Which instructions are well formed: those the spec gives an encoding that is not reserved. -/

namespace Sys2Proof

/-- R_REGISTER and W_REGISTER only at the addresses of REG_SET: the other six are reserved (30_encoding.md R83). Every request is
well formed, whatever its address and length: all 65,536 descriptors decode, and a bad one completes with an error code (R85). -/
def WellFormed : Instr → Bool
  | .rRegister a => inRegSet a
  | .wRegister a => inRegSet a
  | .rRxPayload => true
  | .wTxPayload => true
  | .flushTx => true
  | .flushRx => true
  | .reuseTxPl => true
  | .nop => true
  | .readReg _ _ => true
  | .readBuf _ _ => true
  | .writeReg _ _ => true
  | .writeBuf _ _ => true

end Sys2Proof
end

