-- ==== Sys2Proof/Certificates/Slice0/Obligations.lean ====
section
/-! DEFINITION. The statements for the provers. Each docstring names the rule of spec/ it states or rests on.
`State.advance` stands for the clock edge as such: the current cycle's input signals are past and the cycle counter moves; no register
of the block changes by it. Past a listed input the signals are free values, so a statement over every state is one over every
sequence of inputs (R130), and one over every `build` (R16). -/

open Sys2Proof Sys2Proof.Machine

/-! ### Encoding -/

/-- Decoding an encoded well-formed instruction gives it back, with every operand at every value the formats of R70 and R72 admit. -/
def Obligations.DecodeOfEncodeIsTheInstruction : Prop :=
  ∀ i : Instr, WellFormed i = true → decode (encode i) = .ok i

/-- "No REQW bit is reserved: every one of the 65,536 values decodes" (R70), to a request that encodes to that value. -/
def Obligations.EveryDescriptorDecodesAndEncodesBack : Prop :=
  ∀ w : BitVec 16, ∃ i, decode (.reqw w) = .ok i ∧ WellFormed i = true ∧ encode i = .reqw w

/-- An opcode byte that decodes is the encoding of the command it decodes to, so no byte is read as two commands. -/
def Obligations.OpcodeByteDecodesToOneCommandOnly : Prop :=
  ∀ (b : Byte) (i : Instr), decode (.opc8 b) = .ok i → WellFormed i = true ∧ encode i = .opc8 b

/-- The opcode map (R81): what each of the 256 bytes is, and the counts 58 legal, 12 reserved, 186 illegal. -/
def Obligations.OpcodeMapOfEveryByte : Prop :=
  (∀ b : Byte, b.toNat ≤ 0x1F → decodeOpcode b =
    if b.toNat ∈ [0x18, 0x19, 0x1A, 0x1B, 0x1E, 0x1F] then .error (.reservedRead (BitVec.ofNat 5 b.toNat))
    else .ok (.rRegister (BitVec.ofNat 5 b.toNat))) ∧
  (∀ b : Byte, 0x20 ≤ b.toNat → b.toNat ≤ 0x3F → decodeOpcode b =
    if b.toNat ∈ [0x38, 0x39, 0x3A, 0x3B, 0x3E, 0x3F] then .error (.reservedWrite (BitVec.ofNat 5 b.toNat))
    else .ok (.wRegister (BitVec.ofNat 5 b.toNat))) ∧
  decodeOpcode 0x61 = .ok .rRxPayload ∧ decodeOpcode 0xA0 = .ok .wTxPayload ∧ decodeOpcode 0xE1 = .ok .flushTx ∧
  decodeOpcode 0xE2 = .ok .flushRx ∧ decodeOpcode 0xE3 = .ok .reuseTxPl ∧ decodeOpcode 0xFF = .ok .nop ∧
  (∀ b : Byte, 0x40 ≤ b.toNat → b.toNat ∉ [0x61, 0xA0, 0xE1, 0xE2, 0xE3, 0xFF] → decodeOpcode b = .error (.illegal b)) ∧
  (List.range 256).countP (fun n => match decodeOpcode (BitVec.ofNat 8 n) with | .ok _ => true | .error _ => false) = 58 ∧
  (List.range 256).countP (fun n => match decodeOpcode (BitVec.ofNat 8 n) with
    | .ok _ => false | .error (.reservedRead _) => true | .error (.reservedWrite _) => true | .error (.illegal _) => false) = 12 ∧
  (List.range 256).countP (fun n => match decodeOpcode (BitVec.ofNat 8 n) with
    | .ok _ => false | .error (.reservedRead _) => false | .error (.reservedWrite _) => false | .error (.illegal _) => true) = 186

/-- Words written out from the formats of R70 and R72 decode to the instruction they stand for: one for each constructor. -/
def Obligations.WordsOfTheSpecDecode : Prop :=
  decodeTableWord 8 0b00010111 = some (.rRegister 0x17) ∧
  decodeTableWord 8 0b00111101 = some (.wRegister 0x1D) ∧
  decodeTableWord 8 0b01100001 = some .rRxPayload ∧
  decodeTableWord 8 0b10100000 = some .wTxPayload ∧
  decodeTableWord 8 0b11100001 = some .flushTx ∧
  decodeTableWord 8 0b11100010 = some .flushRx ∧
  decodeTableWord 8 0b11100011 = some .reuseTxPl ∧
  decodeTableWord 8 0b11111111 = some .nop ∧
  decodeTableWord 16 0b0000000100010111 = some (.readReg 1 0x17) ∧
  decodeTableWord 16 0b0110000001100001 = some (.readBuf 32 0x61) ∧
  decodeTableWord 16 0b1000000111100001 = some (.writeReg 1 0xE1) ∧
  decodeTableWord 16 0b1100010100010000 = some (.writeBuf 5 0x10) ∧
  decodeTableWord 8 0b00011000 = none ∧ decodeTableWord 8 0b00111110 = none ∧ decodeTableWord 8 0b01100000 = none

/-! ### Operands -/

/-- The class of every address (R74), with the count of INVALID values. -/
def Obligations.EveryAddressHasItsClass : Prop :=
  (∀ a : Byte, addrClass a =
    if a.toNat ≤ 0x17 ∨ a = 0x1C ∨ a = 0x1D then .reg
    else if a = 0x61 ∨ a = 0xA0 then .payloadCmd
    else if a = 0xE1 ∨ a = 0xE2 ∨ a = 0xE3 ∨ a = 0xFF then .noargCmd
    else .invalid) ∧
  (List.range 256).countP (fun n => addrClass (BitVec.ofNat 8 n) == .invalid) = 224

/-- The opcode byte (R75, R76): the address unchanged for a read, bit 5 set for a write; so the raw command for every operation on
CMD_SET, 0x00 to 0x1D for a read of REG_SET and 0x20 + a, in 0x20 to 0x3D, for a write of it. -/
def Obligations.OpcodeByteIsTheAddressWithTheWriteBit : Prop :=
  ∀ a : Byte,
    opcode .readReg a = a ∧ opcode .readBuf a = a ∧ opcode .writeReg a = a ||| 0x20 ∧ opcode .writeBuf a = a ||| 0x20 ∧
    (isCmd a = true → a ||| 0x20 = a ∧ ∀ op : ReqOp, opcode op a = a) ∧
    (isRegAddr a = true → a.toNat ≤ 0x1D ∧ (a ||| 0x20).toNat = 0x20 + a.toNat ∧ 0x20 + a.toNat ≤ 0x3D)

/-- The frame of a valid request (R90): the opcode byte, then the data bytes; its length is 1 + n, between 1 and 33, and the read count
is at most 32. -/
def Obligations.FrameIsOneOpcodeAndAtMost32DataBytes : Prop :=
  ∀ (b : Build) (op : ReqOp) (a : Byte) (len : BitVec 6) (wdata : Vector Byte 32), validate op a len = .ok →
    let n := dataLen op a len
    let F := frameOf b op a len wdata
    F.getD 0 0x00 = opcode op a ∧ (∀ i, i < n → F.getD (i + 1) 0x00 = dataByte b op wdata i) ∧
    F.length = 1 + n ∧ (F.length = 1 ∨ F.length = 2 ∨ F.length = 1 + len.toNat) ∧ 1 ≤ F.length ∧ F.length ≤ 33 ∧
    rxCount op a len ≤ 32

/-- The block only ever frames one of the eight commands at a REG_SET address, and a request naming an illegal opcode, a reserved
address or a pre-formed write opcode is an InvalidAddress (R84). -/
def Obligations.EveryFrameStartsWithALegalOpcode : Prop :=
  (∀ (b : Build) (op : ReqOp) (a : Byte) (len : BitVec 6) (wdata : Vector Byte 32), validate op a len = .ok →
    ∃ i, decodeOpcode ((frameOf b op a len wdata).getD 0 0x00) = .ok i ∧ WellFormed i = true) ∧
  (∀ (op : ReqOp) (a : Byte) (len : BitVec 6), decodeOpcode a = .error (.illegal a) → validate op a len = .invalidAddress) ∧
  (∀ (op : ReqOp) (a : Byte) (len : BitVec 6), 0x20 ≤ a.toNat → a.toNat ≤ 0x3F → validate op a len = .invalidAddress) ∧
  (∀ (op : ReqOp) (a : Byte) (len : BitVec 6) (r : BitVec 5), decodeOpcode a = .error (.reservedRead r) →
    validate op a len = .invalidAddress)

/-- Every one of the 65,536 request descriptors is accepted, an InvalidAddress or an InvalidLength (R85, R89): each case of the
validation, and the address before the length. -/
def Obligations.EveryDescriptorIsAcceptedOrHasItsCode : Prop :=
  ∀ (op : ReqOp) (a : Byte) (len : BitVec 6),
    (validate op a len = .invalidAddress ↔ addrClass a = .invalid) ∧
    (validate op a len = .invalidLength ↔
      addrClass a ≠ .invalid ∧ (op = .readBuf ∨ op = .writeBuf) ∧ (len.toNat = 0 ∨ 33 ≤ len.toNat)) ∧
    (validate op a len = .ok ↔
      addrClass a ≠ .invalid ∧ (op = .readBuf ∨ op = .writeBuf → 1 ≤ len.toNat ∧ len.toNat ≤ 32))

/-- The pseudo-instructions (R88): each is a valid request and puts the command it is named after on the wire, with its data bytes.
`CLEAR_FLAGS` writes address 0x07, which the spec takes from general knowledge (log 15). -/
def Obligations.PseudoInstructionsFrameTheirCommands : Prop :=
  ∀ (b : Build) (p : Pseudo) (F : List Byte),
    (∃ a, isRegAddr a = true ∧ p = .rRegister a ∧ F = [a, b.fillByte]) ∨
    (∃ a v, isRegAddr a = true ∧ p = .wRegister a v ∧ F = [a ||| 0x20, v]) ∨
    (∃ n, 1 ≤ n.toNat ∧ n.toNat ≤ 32 ∧ p = .rRxPayload n ∧ F = 0x61 :: List.replicate n.toNat b.fillByte) ∨
    (∃ bytes, 1 ≤ bytes.length ∧ bytes.length ≤ 32 ∧ p = .wTxPayload bytes ∧ F = 0xA0 :: bytes) ∨
    (p = .flushTx ∧ F = [0xE1]) ∨ (p = .flushRx ∧ F = [0xE2]) ∨ (p = .reuseTxPl ∧ F = [0xE3]) ∨
    (p = .statusProbe ∧ F = [0xFF]) ∨ (∃ m, p = .clearFlags m ∧ F = [0x27, m &&& 0x70]) →
    validate p.expand.op p.expand.addr p.expand.len = .ok ∧ p.expand.frame b = F

/-! ### The step -/

/-- A step with `req_valid` runs the instruction its request descriptor decodes to; without `req_valid` the edge runs with no request.
The descriptor is the port's op, len and addr (R70), so the next state is that of `exec` and nothing is added around it. -/
def Obligations.StepRunsTheDecodedRequest : Prop :=
  ∀ (s : State) (i : Instr), decode (.reqw (packReqw s.pins.reqOp s.pins.reqLen s.pins.reqAddr)) = .ok i →
    step s = if s.pins.reqValid then exec i s else .next (clockEdge s)

/-- A step that takes a valid request runs the wire command that its opcode byte decodes to, and there always is one (R80). -/
def Obligations.StepRunsTheWireCommand : Prop :=
  ∀ s : State, s.pins.reqValid = true → s.reqReady = true → validate s.portOp s.pins.reqAddr s.pins.reqLen = .ok →
    ∃ i, decode (.opc8 (opcode s.portOp s.pins.reqAddr)) = .ok i ∧ WellFormed i = true ∧ step s = exec i s

/-- Nothing stops the block: it "raises no trap and redirects no control flow" (R132), and every edge has a rule (R106). -/
def Obligations.EveryStepAnswersANextState : Prop :=
  ∀ s : State, (∃ t, step s = .next t) ∧ ∀ i : Instr, ∃ t, exec i s = .next t

/-- The output signals (R27, R28): `req_ready` and `busy` are combinational, every other output is a register; and the codes of
`rsp_err` are 0 = OK, 1 = InvalidAddress, 2 = InvalidLength and 3 = TransportError (R41). -/
def Obligations.OutputsAreTheRegisters : Prop :=
  ∀ s : State,
    ((outputs s).reqReady = true ↔ s.phase = .idle ∧ s.pins.rst = false) ∧
    ((outputs s).busy = true ↔ s.phase ≠ .idle) ∧
    (outputs s).done = s.doneR ∧ (outputs s).rspErr = s.rspErr.code ∧ (outputs s).rspStatus = s.rspStatus ∧
    (outputs s).rspRdata = s.rspRdata ∧ (outputs s).rspNrx = s.rspNrx ∧ (outputs s).stValid = s.stValid ∧
    (outputs s).stRxDr = s.stRxDr ∧ (outputs s).stTxDs = s.stTxDs ∧ (outputs s).stMaxRt = s.stMaxRt ∧
    (outputs s).fifoValid = s.fifoValid ∧ (outputs s).fifoRxEmpty = s.fifoRxEmpty ∧ (outputs s).csn = s.csnR ∧
    (outputs s).sck = s.sckR ∧ (outputs s).mosi = s.mosiR ∧
    (s.rspErr = .ok → (outputs s).rspErr = 0) ∧ (s.rspErr = .invalidAddress → (outputs s).rspErr = 1) ∧
    (s.rspErr = .invalidLength → (outputs s).rspErr = 2) ∧ (s.rspErr = .transportError → (outputs s).rspErr = 3)

/-- The build parameters are fixed (R46, R147): no step changes them. -/
def Obligations.BuildParametersNeverChange : Prop :=
  ∀ s t : State, step s = .next t → t.build = s.build

/-! ### Reset -/

/-- At an edge with `rst = 1` every register takes its value of R47, whatever the phase and whatever else is offered; no request is
taken; and if `rst` is low in the next cycle the port is ready (R145). Nothing is said of `rx_sh` and `rx_frame`, which R47 leaves
unspecified. `State.justReset` says that the registers are those of `State.reset`, so the two hold the same values of R47. -/
def Obligations.ResetEdgeSetsEveryRegister : Prop :=
  ∀ s : State, s.pins.rst = true → s.reqReady = false ∧ ∃ t, step s = .next t ∧
    t.phase = .idle ∧ t.cnt = 0 ∧ t.frameLen = 0 ∧ t.nrxL = 0 ∧ t.byteIdx = 0 ∧ t.bitIdx = 7 ∧
    (∀ k, t.txFrame.get k = 0x00) ∧ t.faultL = false ∧ t.opL = .readReg ∧ t.addrL = 0x00 ∧ t.csnR = true ∧
    t.sckR = false ∧ t.mosiR = false ∧ t.doneR = false ∧ t.rspErr = .ok ∧ t.rspStatus = 0x00 ∧
    (∀ k, t.rspRdata.get k = 0x00) ∧ t.rspNrx = 0 ∧ t.stValid = false ∧ t.stRxDr = false ∧ t.stTxDs = false ∧
    t.stMaxRt = false ∧ t.fifoValid = false ∧ t.fifoRxEmpty = false ∧
    (t.pins.rst = false → t.reqReady = true) ∧ t.justReset

/-! ### Requests: acceptance, frames and errors -/

/-- The IDLE step (R107), every register it assigns and every register it leaves. -/
def Obligations.IdleStepTakesTheRequest : Prop :=
  ∀ s : State, s.phase = .idle → s.pins.rst = false →
    (s.pins.reqValid = false → step s = .next ({ s with doneR := false } : State).advance) ∧
    (s.pins.reqValid = true → ∀ e, validate s.portOp s.pins.reqAddr s.pins.reqLen = e → e ≠ .ok →
      step s = .next ({ s with rspErr := e, rspNrx := 0, doneR := true } : State).advance) ∧
    (s.pins.reqValid = true → validate s.portOp s.pins.reqAddr s.pins.reqLen = .ok →
      let F := frameOf s.build s.portOp s.pins.reqAddr s.pins.reqLen s.pins.reqWdata
      ∃ t, step s = .next t ∧
        (∀ k : Fin 33, t.txFrame.get k = if k.val < F.length then F.getD k.val 0x00 else 0x00) ∧
        t.frameLen.toNat = F.length ∧ t.nrxL.toNat = rxCount s.portOp s.pins.reqAddr s.pins.reqLen ∧
        t.opL = s.portOp ∧ t.addrL = s.pins.reqAddr ∧ t.byteIdx = 0 ∧ t.bitIdx = 7 ∧ t.faultL = false ∧
        t.csnR = false ∧ t.sckR = false ∧ t.mosiR = (F.getD 0 0x00).getLsbD 7 ∧
        t.cnt = (s.build.tSetup : Nat) - 1 ∧ t.phase = .setup ∧ t.doneR = false ∧
        t.rxSh = s.rxSh ∧ t.rxFrame = s.rxFrame ∧ t.response = s.response ∧ t.build = s.build)

/-- READ_REG (R91): at a ready port and a valid address, the frame [a, FILL_BYTE] is loaded with one byte to read, whatever the length
field holds. `loadTransaction` makes the assignments of R107 and no other. -/
def Obligations.ReadRegFramesTheAddressAndOneFill : Prop :=
  ∀ (len : BitVec 6) (a : Byte) (s : State), s.reqReady = true → addrClass a ≠ .invalid →
    exec (.readReg len a) s = .next (loadTransaction [a, s.build.fillByte] 1 .readReg a s).advance

/-- READ_BUF (R92): [a] and L fill bytes, L bytes to read, for every length 1 to 32. -/
def Obligations.ReadBufFramesTheAddressAndItsFills : Prop :=
  ∀ (len : BitVec 6) (a : Byte) (s : State), s.reqReady = true → addrClass a ≠ .invalid →
    1 ≤ len.toNat → len.toNat ≤ 32 →
    exec (.readBuf len a) s =
      .next (loadTransaction (a :: List.replicate len.toNat s.build.fillByte) len.toNat .readBuf a s).advance

/-- WRITE_REG (R93): the opcode alone for a no-argument command, otherwise [a | 0x20, req_wdata[0]]; nothing to read. -/
def Obligations.WriteRegFramesOneByteOrTheOpcodeAlone : Prop :=
  ∀ (len : BitVec 6) (a : Byte) (s : State), s.reqReady = true → addrClass a ≠ .invalid →
    exec (.writeReg len a) s =
      .next (loadTransaction (if isNoargCmd a then [a] else [a ||| 0x20, s.pins.reqWdata[0]]) 0 .writeReg a s).advance

/-- WRITE_BUF (R94): the opcode alone for a no-argument command, otherwise [a | 0x20] and the first L write bytes in order. -/
def Obligations.WriteBufFramesItsBytesInOrder : Prop :=
  ∀ (len : BitVec 6) (a : Byte) (s : State), s.reqReady = true → addrClass a ≠ .invalid →
    1 ≤ len.toNat → len.toNat ≤ 32 →
    exec (.writeBuf len a) s =
      .next (loadTransaction (if isNoargCmd a then [a] else (a ||| 0x20) :: s.pins.reqWdata.toList.take len.toNat) 0
        .writeBuf a s).advance

/-- R_REGISTER(a) (R97): opcode `0b000aaaaa`, then one fill byte for a register request and L for a buffer request at the port. -/
def Obligations.RRegisterFramesItsOpcodeAndFills : Prop :=
  ∀ (a : BitVec 5) (s : State), s.reqReady = true → inRegSet a = true →
    let c : Byte := (0b000 : BitVec 3) ++ a
    (s.portOp.isBuf = false →
      exec (.rRegister a) s = .next (loadTransaction [c, s.build.fillByte] 1 .readReg c s).advance) ∧
    (s.portOp.isBuf = true → 1 ≤ s.pins.reqLen.toNat → s.pins.reqLen.toNat ≤ 32 →
      exec (.rRegister a) s =
        .next (loadTransaction (c :: List.replicate s.pins.reqLen.toNat s.build.fillByte) s.pins.reqLen.toNat .readBuf c s).advance)

/-- W_REGISTER(a) (R98): opcode `0b001aaaaa`, then one write byte or the first L of them; the latched address is a. -/
def Obligations.WRegisterFramesItsOpcodeAndData : Prop :=
  ∀ (a : BitVec 5) (s : State), s.reqReady = true → inRegSet a = true →
    let c : Byte := (0b001 : BitVec 3) ++ a
    (s.portOp.isBuf = false →
      exec (.wRegister a) s = .next (loadTransaction [c, s.pins.reqWdata[0]] 0 .writeReg (a.zeroExtend 8) s).advance) ∧
    (s.portOp.isBuf = true → 1 ≤ s.pins.reqLen.toNat → s.pins.reqLen.toNat ≤ 32 →
      exec (.wRegister a) s =
        .next (loadTransaction (c :: s.pins.reqWdata.toList.take s.pins.reqLen.toNat) 0 .writeBuf (a.zeroExtend 8) s).advance)

/-- R_RX_PAYLOAD 0x61 and W_TX_PAYLOAD 0xA0 (R99, R100), in each of the four forms that produce them: fill bytes for a read, write
bytes for a write. -/
def Obligations.PayloadCommandsFrameFillsOrData : Prop :=
  ∀ (c : Byte) (i : Instr) (s : State), (c = 0x61 ∧ i = .rRxPayload) ∨ (c = 0xA0 ∧ i = .wTxPayload) → s.reqReady = true →
    (s.portOp = .readReg → exec i s = .next (loadTransaction [c, s.build.fillByte] 1 .readReg c s).advance) ∧
    (s.portOp = .writeReg → exec i s = .next (loadTransaction [c, s.pins.reqWdata[0]] 0 .writeReg c s).advance) ∧
    (1 ≤ s.pins.reqLen.toNat → s.pins.reqLen.toNat ≤ 32 →
      (s.portOp = .readBuf → exec i s =
        .next (loadTransaction (c :: List.replicate s.pins.reqLen.toNat s.build.fillByte) s.pins.reqLen.toNat .readBuf c s).advance) ∧
      (s.portOp = .writeBuf → exec i s =
        .next (loadTransaction (c :: s.pins.reqWdata.toList.take s.pins.reqLen.toNat) 0 .writeBuf c s).advance))

/-- FLUSH_TX 0xE1, FLUSH_RX 0xE2, REUSE_TX_PL 0xE3 and NOP 0xFF (R101 to R104): the opcode alone for a write, fill bytes after it for a
read. -/
def Obligations.NoArgumentCommandsGoAloneWhenWritten : Prop :=
  ∀ (c : Byte) (i : Instr) (s : State),
    (c = 0xE1 ∧ i = .flushTx) ∨ (c = 0xE2 ∧ i = .flushRx) ∨ (c = 0xE3 ∧ i = .reuseTxPl) ∨ (c = 0xFF ∧ i = .nop) →
    s.reqReady = true →
    (s.portOp = .writeReg → exec i s = .next (loadTransaction [c] 0 .writeReg c s).advance) ∧
    (s.portOp = .readReg → exec i s = .next (loadTransaction [c, s.build.fillByte] 1 .readReg c s).advance) ∧
    (1 ≤ s.pins.reqLen.toNat → s.pins.reqLen.toNat ≤ 32 →
      (s.portOp = .writeBuf → exec i s = .next (loadTransaction [c] 0 .writeBuf c s).advance) ∧
      (s.portOp = .readBuf → exec i s =
        .next (loadTransaction (c :: List.replicate s.pins.reqLen.toNat s.build.fillByte) s.pins.reqLen.toNat .readBuf c s).advance))

/-- A request that fails validation completes at the acceptance edge (R122): InvalidAddress for an address of class INVALID, whatever
the operation and length (R133); InvalidLength for a buffer operation at a valid address with a length of 0 or above 32 (R134). Only
`rsp_err`, `rsp_nrx` and `done` change: no serial output, no response byte, no flag, no phase. Over all twelve instructions, the
address being the one the instruction names. That a wire command is taken at the port at all, with the form and the length that stand
there, and so may complete with InvalidLength, is the model's choice (log 7): R97 to R104 give the commands TransportError only. -/
def Obligations.BadRequestsCompleteAtOnceWithTheirCode : Prop :=
  ∀ (i : Instr) (s : State), s.reqReady = true →
    (addrClass (requestOf i s).2.2 = .invalid →
      exec i s = .next ({ s with rspErr := .invalidAddress, rspNrx := 0, doneR := true } : State).advance) ∧
    (addrClass (requestOf i s).2.2 ≠ .invalid → (requestOf i s).1.isBuf = true →
      (requestOf i s).2.1.toNat = 0 ∨ 32 < (requestOf i s).2.1.toNat →
      exec i s = .next ({ s with rspErr := .invalidLength, rspNrx := 0, doneR := true } : State).advance)

/-- The frame of an acceptance (R107, R122): whichever of the twelve instructions is accepted, valid or not, the receive registers,
the response bytes and every flag stay as they were; `rsp_err` and `rsp_nrx` change only for a request that fails validation; and
only the current cycle's input signals pass. That the eight wire commands are taken at the port,
with the form and the length that stand there, is the model's choice (log 7). -/
def Obligations.AcceptanceLeavesEveryOtherRegister : Prop :=
  ∀ (i : Instr) (s : State), s.reqReady = true → ∃ t, exec i s = .next t ∧
    t.rxSh = s.rxSh ∧ t.rxFrame = s.rxFrame ∧ t.rspStatus = s.rspStatus ∧ t.rspRdata = s.rspRdata ∧
    t.stValid = s.stValid ∧ t.stRxDr = s.stRxDr ∧ t.stTxDs = s.stTxDs ∧ t.stMaxRt = s.stMaxRt ∧
    t.fifoValid = s.fifoValid ∧ t.fifoRxEmpty = s.fifoRxEmpty ∧ t.build = s.build ∧ t.inputs = s.inputs.tail ∧
    (validate (requestOf i s).1 (requestOf i s).2.2 (requestOf i s).2.1 = .ok → t.rspErr = s.rspErr ∧ t.rspNrx = s.rspNrx) ∧
    (validate (requestOf i s).1 (requestOf i s).2.2 (requestOf i s).2.1 ≠ .ok →
      t.phase = s.phase ∧ t.cnt = s.cnt ∧ t.frameLen = s.frameLen ∧ t.nrxL = s.nrxL ∧ t.byteIdx = s.byteIdx ∧
      t.bitIdx = s.bitIdx ∧ t.txFrame = s.txFrame ∧ t.faultL = s.faultL ∧ t.opL = s.opL ∧ t.addrL = s.addrL ∧
      t.csnR = s.csnR ∧ t.sckR = s.sckR ∧ t.mosiR = s.mosiR)

/-- A request offered while the port is not ready is not accepted (R26, R28): the edge runs as if none were offered (log 8). That a
wire command is offered at the port is the model's choice (log 7). -/
def Obligations.UnreadyPortTakesNoRequest : Prop :=
  ∀ (i : Instr) (s : State), s.reqReady = false → exec i s = .next (clockEdge s)

/-- A one-byte buffer operation is the register operation (R95): the same next state but for the latched operation, so the same
frame, which for a read is [a, FILL_BYTE]; and the same response for the same device bytes. -/
def Obligations.OneByteBufferIsTheRegisterOperation : Prop :=
  ∀ (len : BitVec 6) (a : Byte) (s : State), s.reqReady = true → addrClass a ≠ .invalid →
    (∃ t, exec (.readReg len a) s = .next t ∧ exec (.readBuf 1 a) s = .next { t with opL := .readBuf }) ∧
    (∃ t, exec (.writeReg len a) s = .next t ∧ exec (.writeBuf 1 a) s = .next { t with opL := .writeBuf }) ∧
    (∀ b w, frameOf b .readBuf a 1 w = [a, b.fillByte] ∧ frameOf b .readReg a len w = [a, b.fillByte]) ∧
    (∀ M old, transact .readBuf 1 a M old = transact .readReg len a M old) ∧
    (∀ M old, transact .writeBuf 1 a M old = transact .writeReg len a M old)

/-- Unused write bytes are ignored (R85): two inputs that differ only in `req_wdata` bytes the frame does not carry give the same next
state. A read and a write to a no-argument command carry none. That the eight wire commands are taken at the port,
with the form and the length that stand there, is the model's choice (log 7). -/
def Obligations.UnusedWriteBytesAreIgnored : Prop :=
  ∀ (i : Instr) (s : State) (p : Pins) (ps : List Pins) (w : Vector Byte 32), s.inputs = p :: ps → s.reqReady = true →
    (∀ k (hk : k < 32), (requestOf i s).1.isRead = false →
      k < dataLen (requestOf i s).1 (requestOf i s).2.2 (requestOf i s).2.1 → w[k] = p.reqWdata[k]) →
    exec i { s with inputs := { p with reqWdata := w } :: ps } = exec i s

/-! ### The edges of a transaction -/

/-- SETUP and SHIFT_LO (R108, R110): they count, and at `cnt = 0` SCK rises and MISO is sampled into bit 0 of the shift register. -/
def Obligations.LowPhasesCountAndThenRaiseSck : Prop :=
  ∀ s : State, s.phase = .setup ∨ s.phase = .shiftLo → s.pins.rst = false → s.pins.busFault = false →
    (s.cnt ≠ 0 → step s = .next ({ s with cnt := s.cnt - 1 } : State).advance) ∧
    (s.cnt = 0 → ∃ sh : Byte, sh.getLsbD 0 = s.pins.miso ∧ (∀ j, j < 7 → sh.getLsbD (j + 1) = s.rxSh.getLsbD j) ∧
      step s = .next ({ s with
        sckR := true, rxSh := sh, cnt := (s.build.sckDiv : Nat) - 1, phase := .shiftHi } : State).advance)

/-- SHIFT_HI (R109): it counts, and at `cnt = 0` SCK falls; the byte is stored after its last bit; the next bit goes on MOSI, or the
frame is over and HOLD begins with MOSI unchanged. -/
def Obligations.HighPhaseCountsAndThenLowersSck : Prop :=
  ∀ s : State, s.phase = .shiftHi → s.pins.rst = false → s.pins.busFault = false →
    (s.cnt ≠ 0 → step s = .next ({ s with cnt := s.cnt - 1 } : State).advance) ∧
    (s.cnt = 0 → s.bitIdx ≠ 0 → step s = .next ({ s with
      sckR := false, bitIdx := s.bitIdx - 1, mosiR := (s.txFrame.get s.byteIdx).getLsbD (s.bitIdx.val - 1),
      cnt := (s.build.sckDiv : Nat) - 1, phase := .shiftLo } : State).advance) ∧
    (s.cnt = 0 → s.bitIdx = 0 → s.byteIdx.val + 1 < s.frameLen.toNat → ∀ h : s.byteIdx.val + 1 < 33,
      step s = .next ({ s with
        sckR := false, rxFrame := s.rxFrame.set s.byteIdx.val s.rxSh s.byteIdx.isLt, byteIdx := ⟨s.byteIdx.val + 1, h⟩,
        bitIdx := 7, mosiR := (s.txFrame.get ⟨s.byteIdx.val + 1, h⟩).getLsbD 7,
        cnt := (s.build.sckDiv : Nat) - 1, phase := .shiftLo } : State).advance) ∧
    (s.cnt = 0 → s.bitIdx = 0 → s.byteIdx.val + 1 = s.frameLen.toNat →
      step s = .next ({ s with
        sckR := false, rxFrame := s.rxFrame.set s.byteIdx.val s.rxSh s.byteIdx.isLt,
        cnt := (s.build.tHold : Nat) - 1, phase := .hold } : State).advance)

/-- HOLD (R111): it counts, `bus_fault` or not; at `cnt = 0` chip-select is released, `done` is raised, GAP begins, and the request
completes with TransportError or OK by `fault_l`. -/
def Obligations.HoldReleasesChipSelectAndCompletes : Prop :=
  ∀ s : State, s.phase = .hold → s.pins.rst = false →
    (s.cnt ≠ 0 → step s = .next ({ s with cnt := s.cnt - 1 } : State).advance) ∧
    (s.cnt = 0 → ∃ t, step s = .next t ∧ t.csnR = true ∧ t.mosiR = false ∧ t.doneR = true ∧
      t.cnt = (s.build.tIdle : Nat) - 1 ∧ t.phase = .gap ∧
      t.rspErr = (if s.faultL then .transportError else .ok) ∧
      t.sckR = s.sckR ∧ t.frameLen = s.frameLen ∧ t.nrxL = s.nrxL ∧ t.byteIdx = s.byteIdx ∧ t.bitIdx = s.bitIdx ∧
      t.txFrame = s.txFrame ∧ t.rxSh = s.rxSh ∧ t.rxFrame = s.rxFrame ∧ t.faultL = s.faultL ∧ t.opL = s.opL ∧
      t.addrL = s.addrL)

/-- Successful completion (R118, R119, R120): the echoed status, the read bytes and 0x00 above them, the flags from bits 6, 5 and 4 of
the status, and `fifo_*` from bit 0 of the first read byte exactly when a read of 0x17 returned at least one. -/
def Obligations.SuccessWritesTheResponseAndTheFlags : Prop :=
  ∀ s : State, s.phase = .hold → s.cnt = 0 → s.pins.rst = false → s.faultL = false → ∃ t, step s = .next t ∧
    t.rspErr = .ok ∧ t.rspStatus = s.rxFrame.get 0 ∧ t.rspNrx = s.nrxL ∧
    (∀ i : Fin 32, t.rspRdata.get i = if i.val < s.nrxL.toNat then s.rxFrame.get i.succ else 0x00) ∧
    t.stValid = true ∧ t.stRxDr = (s.rxFrame.get 0).getLsbD 6 ∧ t.stTxDs = (s.rxFrame.get 0).getLsbD 5 ∧
    t.stMaxRt = (s.rxFrame.get 0).getLsbD 4 ∧
    ((s.opL = .readReg ∨ s.opL = .readBuf) ∧ s.addrL = 0x17 ∧ 1 ≤ s.nrxL.toNat →
      t.fifoValid = true ∧ t.fifoRxEmpty = (s.rxFrame.get 1).getLsbD 0) ∧
    (¬ ((s.opL = .readReg ∨ s.opL = .readBuf) ∧ s.addrL = 0x17 ∧ 1 ≤ s.nrxL.toNat) →
      t.fifoValid = s.fifoValid ∧ t.fifoRxEmpty = s.fifoRxEmpty)

/-- Completion after a transport fault (R121): the code, no read bytes, no flag changed. Nothing is said of `rsp_status` and
`rsp_rdata`, which may take any value. -/
def Obligations.TransportErrorKeepsTheFlags : Prop :=
  ∀ s : State, s.phase = .hold → s.cnt = 0 → s.pins.rst = false → s.faultL = true → ∃ t, step s = .next t ∧
    t.rspErr = .transportError ∧ t.rspNrx = 0 ∧ t.stValid = s.stValid ∧ t.stRxDr = s.stRxDr ∧ t.stTxDs = s.stTxDs ∧
    t.stMaxRt = s.stMaxRt ∧ t.fifoValid = s.fifoValid ∧ t.fifoRxEmpty = s.fifoRxEmpty

/-- GAP (R112): `done` falls, it counts, and at `cnt = 0` IDLE begins; `bus_fault` and `req_valid` are ignored. -/
def Obligations.GapCountsAndThenIdles : Prop :=
  ∀ s : State, s.phase = .gap → s.pins.rst = false →
    (s.cnt ≠ 0 → step s = .next ({ s with doneR := false, cnt := s.cnt - 1 } : State).advance) ∧
    (s.cnt = 0 → step s = .next ({ s with doneR := false, phase := .idle } : State).advance)

/-- The abort (R113) and its latency (R159): at an edge in SETUP, SHIFT_LO or SHIFT_HI with `bus_fault`, SCK goes low and HOLD begins;
nothing is shifted or sampled any more; and T_HOLD edges later chip-select is released with `done` and TransportError, the flags as
they were. -/
def Obligations.TransportFaultAbortsAndReleases : Prop :=
  ∀ s : State, s.phase = .setup ∨ s.phase = .shiftLo ∨ s.phase = .shiftHi → s.pins.rst = false → s.pins.busFault = true →
    step s = .next ({ s with
      faultL := true, sckR := false, cnt := (s.build.tHold : Nat) - 1, phase := .hold } : State).advance ∧
    ((∀ n, 1 ≤ n → n ≤ (s.build.tHold : Nat) → (s.pinsAfter n).rst = false) →
      (∀ k, k < (s.build.tHold : Nat) → ∃ t, runEdges (1 + k) s = .next t ∧ t.phase = .hold ∧ t.csnR = s.csnR ∧
        t.sckR = false ∧ t.rxSh = s.rxSh ∧ t.rxFrame = s.rxFrame ∧ t.response = s.response) ∧
      ∃ t, runEdges (1 + (s.build.tHold : Nat)) s = .next t ∧ t.phase = .gap ∧ t.csnR = true ∧ t.sckR = false ∧
        t.doneR = true ∧ t.rspErr = .transportError ∧ t.rspNrx = 0 ∧ t.stValid = s.stValid ∧ t.stRxDr = s.stRxDr ∧
        t.stTxDs = s.stTxDs ∧ t.stMaxRt = s.stMaxRt ∧ t.fifoValid = s.fifoValid ∧ t.fifoRxEmpty = s.fifoRxEmpty)

/-- A fault in IDLE, HOLD or GAP has no effect (R113, R137): the step is the same with `bus_fault` high or low. -/
def Obligations.FaultOutsideAFrameIsIgnored : Prop :=
  ∀ (s : State) (p : Pins) (ps : List Pins) (f : Bool), s.phase = .idle ∨ s.phase = .hold ∨ s.phase = .gap →
    s.inputs = p :: ps → step { s with inputs := { p with busFault := f } :: ps } = step s

/-- Eight samples replace all eight bits of the shift register (R114, T8): whatever it held, it holds the byte whose bits came in,
bit 7 first. -/
def Obligations.EightSamplesMakeTheByte : Prop :=
  ∀ sh m : Byte, (List.range 8).foldl (fun acc n => shiftIn acc (m.getLsbD (7 - n))) sh = m

/-! ### Rules over every step -/

/-- The response and flag registers change only at a completion or a reset (R123). -/
def Obligations.ResponseHoldsBetweenCompletions : Prop :=
  ∀ s t : State, step s = .next t → s.pins.rst = false → ¬ (s.phase = .hold ∧ s.cnt = 0) →
    ¬ (s.phase = .idle ∧ s.pins.reqValid = true ∧ validate s.portOp s.pins.reqAddr s.pins.reqLen ≠ .ok) →
    t.response = s.response

/-- `done` is 1 in a cycle exactly when the edge before it completed a request: the release at the end of HOLD, or the acceptance of a
request that failed validation (R40, R48 item 5). -/
def Obligations.DoneMarksEveryCompletionAndNothingElse : Prop :=
  ∀ s t : State, Inv s → step s = .next t →
    (t.doneR = true ↔ s.pins.rst = false ∧ ((s.phase = .hold ∧ s.cnt = 0) ∨
      (s.phase = .idle ∧ s.pins.reqValid = true ∧ validate s.portOp s.pins.reqAddr s.pins.reqLen ≠ .ok)))

/-- Chip-select falls only at the acceptance of a valid request, and rises only at the end of HOLD or at a reset (R63, R151): it is
never released between the opcode and the data bytes. -/
def Obligations.ChipSelectMovesOnlyAtTheEnds : Prop :=
  ∀ s t : State, Inv s → step s = .next t →
    (s.csnR = true → (t.csnR = false ↔ s.phase = .idle ∧ s.pins.rst = false ∧ s.pins.reqValid = true ∧
      validate s.portOp s.pins.reqAddr s.pins.reqLen = .ok)) ∧
    (s.csnR = false → (t.csnR = true ↔ s.pins.rst = true ∨ (s.phase = .hold ∧ s.cnt = 0)))

/-- MOSI changes only at a falling SCK, at the acceptance of a valid request, at the release of chip-select or at a reset (R107, R109,
R111). -/
def Obligations.MosiChangesOnlyAtFallingSck : Prop :=
  ∀ s t : State, Inv s → step s = .next t → t.mosiR ≠ s.mosiR →
    s.pins.rst = true ∨ (s.csnR = true ∧ t.csnR = false) ∨ (s.csnR = false ∧ t.csnR = true) ∨
    (s.sckR = true ∧ t.sckR = false)

/-- SCK rises only at the end of SETUP or of SHIFT_LO, and falls only in SHIFT_HI: at its end, at an abort or at a reset; no SCK edge
comes in HOLD, GAP or IDLE, or with chip-select high (R115 item 4). -/
def Obligations.SckMovesOnlyInAFrame : Prop :=
  ∀ s t : State, Inv s → step s = .next t → t.sckR ≠ s.sckR →
    s.csnR = false ∧
    ((t.sckR = true ∧ (s.phase = .setup ∨ s.phase = .shiftLo) ∧ s.cnt = 0 ∧ s.pins.rst = false ∧ s.pins.busFault = false) ∨
      (t.sckR = false ∧ s.phase = .shiftHi ∧ (s.cnt = 0 ∨ s.pins.busFault = true ∨ s.pins.rst = true)))

/-- MISO is sampled at every rising SCK and at no other edge (R114): without a reset, `rx_sh` takes the bit exactly when SCK rises. -/
def Obligations.MisoIsSampledExactlyAtRisingSck : Prop :=
  ∀ s t : State, Inv s → step s = .next t → s.pins.rst = false →
    (s.sckR = false ∧ t.sckR = true → t.rxSh = shiftIn s.rxSh s.pins.miso) ∧
    (¬ (s.sckR = false ∧ t.sckR = true) → t.rxSh = s.rxSh)

/-- The device cannot influence the bus or the host's handshake (R130): two runs whose inputs differ in MISO only, from states that
differ in received data only, have the same serial outputs, port, strobe and completion code in every cycle. What they may differ in
is named: the receive registers, the response bytes, the decoded flags. -/
def Obligations.DeviceCannotInfluenceTheBus : Prop :=
  ∀ s t : State,
    t = { s with
      rxSh := t.rxSh, rxFrame := t.rxFrame, rspStatus := t.rspStatus, rspRdata := t.rspRdata, stRxDr := t.stRxDr,
      stTxDs := t.stTxDs, stMaxRt := t.stMaxRt, fifoRxEmpty := t.fifoRxEmpty, inputs := t.inputs, tick := t.tick } →
    (∀ n, t.pinsAfter n = { s.pinsAfter n with miso := (t.pinsAfter n).miso }) →
    ∀ k, ∃ u v, runEdges k s = .next u ∧ runEdges k t = .next v ∧
      u.csnR = v.csnR ∧ u.sckR = v.sckR ∧ u.mosiR = v.mosiR ∧ u.reqReady = v.reqReady ∧ u.busy = v.busy ∧
      u.doneR = v.doneR ∧ u.rspErr = v.rspErr ∧ u.rspNrx = v.rspNrx ∧ u.stValid = v.stValid ∧ u.fifoValid = v.fifoValid

/-! ### Invariants -/

/-- Every step keeps the six items of R48. -/
def Obligations.EveryStepKeepsTheReachableInvariants : Prop :=
  ∀ s t : State, Inv s → step s = .next t → Inv t

/-- The six items of R48 hold at reset. -/
def Obligations.ResetHasTheReachableInvariants : Prop := Inv State.reset

/-- Every step keeps what the engine relies on: `cnt` within its phase's duration (R17, R32), a legal opcode at the head of the frame
(R84), 0x00 past it (R35), the current bit on MOSI (R109), no latched fault before an abort (R37). -/
def Obligations.EveryStepKeepsTheEngineInvariants : Prop :=
  ∀ s t : State, EngineInv s → step s = .next t → EngineInv t

/-- What the engine relies on holds at reset. -/
def Obligations.ResetHasTheEngineInvariants : Prop := EngineInv State.reset

/-- In every state reachable from a reset, of any build and any inputs, R48 holds (its item 5 over the edge before, too), and so does
what the engine relies on. Item 4 reads "frame_len − 1" as 0 before the first frame (log 10, DEDUCED). -/
def Obligations.ReachableStatesObeyTheInvariants : Prop :=
  ∀ s : State, s.reachable → Inv s ∧ EngineInv s ∧
    ∀ t, step s = .next t → t.doneR = true →
      (s.phase = .hold ∧ t.phase = .gap) ∨
      (s.phase = .idle ∧ s.pins.reqValid = true ∧ validate s.portOp s.pins.reqAddr s.pins.reqLen ≠ .ok)

/-- While chip-select is asserted, the frame on the wire begins with one of the eight commands at a REG_SET address (R51, R84). -/
def Obligations.OpcodeOnTheWireIsAlwaysLegal : Prop :=
  ∀ s : State, EngineInv s → s.csnR = false → ∃ i, decodeOpcode (s.txFrame.get 0) = .ok i ∧ WellFormed i = true

/-- Chip-select is never left asserted (R47, R65): from every state with the invariants, whatever the inputs do, the block is back in
IDLE with chip-select released within T_SETUP + 528·SCK_DIV + T_HOLD + T_IDLE edges. -/
def Obligations.BlockReturnsToIdleInBoundedTime : Prop :=
  ∀ s : State, Inv s → EngineInv s → ∃ k t,
    k ≤ (s.build.tSetup : Nat) + 528 * (s.build.sckDiv : Nat) + (s.build.tHold : Nat) + (s.build.tIdle : Nat) ∧
    runEdges k s = .next t ∧ t.phase = .idle ∧ t.csnR = true

/-! ### Whole transactions -/

/-- The engine agrees with the transaction level (R116, R91 to R94, R97 to R105): each of the twelve instructions, offered to a ready
port with a valid request, is accepted; if no reset and no transport fault comes and the device returns the bytes `M`, then at each
rising SCK MOSI holds the frame's bit, most significant first, and T_SETUP + SCK_DIV·(16N − 1) + T_HOLD edges after the acceptance
the request is complete: chip-select released, `done` raised, `rsp_err` OK, `rsp_status` M[0], `rsp_rdata[i]` M[1+i] for the bytes
read and 0x00 above, and the flags from M. That the eight wire commands are taken at the port,
with the form and the length that stand there, is the model's choice (log 7). -/
def Obligations.EveryTransactionAgreesWithItsFrame : Prop :=
  ∀ (i : Instr) (s : State) (M : Nat → Byte), s.reqReady = true →
    let op := (requestOf i s).1
    let len := (requestOf i s).2.1
    let addr := (requestOf i s).2.2
    let F := frameOf s.build op addr len s.pins.reqWdata
    let r := rxCount op addr len
    validate op addr len = .ok → s.quiet (doneAt s.build F.length) → s.presents F.length M →
    ∃ s₁ t, exec i s = .next s₁ ∧
      (∀ n, n < 8 * F.length → ∃ u, runEdges (riseAt s.build n) s₁ = .next u ∧ u.mosiR = frameBit F n) ∧
      runEdges (doneAt s.build F.length) s₁ = .next t ∧
      t.rspErr = .ok ∧ t.rspStatus = M 0 ∧ t.rspNrx.toNat = r ∧
      (∀ k : Fin 32, t.rspRdata.get k = if k.val < r then M (k.val + 1) else 0x00) ∧
      t.stValid = true ∧ t.stRxDr = (M 0).getLsbD 6 ∧ t.stTxDs = (M 0).getLsbD 5 ∧ t.stMaxRt = (M 0).getLsbD 4 ∧
      (op.isRead = true ∧ addr = 0x17 → t.fifoValid = true ∧ t.fifoRxEmpty = (M 1).getLsbD 0) ∧
      (¬ (op.isRead = true ∧ addr = 0x17) → t.fifoValid = s.fifoValid ∧ t.fifoRxEmpty = s.fifoRxEmpty) ∧
      t.response = transact op len addr M s.response ∧ t.doneR = true ∧ t.csnR = true ∧ t.phase = .gap

/-- The wire of a transaction (R115): chip-select low from the acceptance to the completion edge and high before and after; SCK low
whenever chip-select is high, and high exactly in the SCK_DIV cycles after each of its 8N rising edges; MOSI holds each bit of the
frame, most significant first, from the acceptance or the falling edge before it to its own falling edge. That the eight wire commands are taken at the port,
with the form and the length that stand there, is the model's choice (log 7). -/
def Obligations.WireCarriesTheFrame : Prop :=
  ∀ (i : Instr) (s : State), Inv s → s.reqReady = true →
    let op := (requestOf i s).1
    let len := (requestOf i s).2.1
    let addr := (requestOf i s).2.2
    let F := frameOf s.build op addr len s.pins.reqWdata
    let N := F.length
    let b := s.build
    validate op addr len = .ok → s.quiet (doneAt b N) →
    s.csnR = true ∧ s.sckR = false ∧ ∃ s₁, exec i s = .next s₁ ∧
      (∀ e, e < doneAt b N → ∃ t, runEdges e s₁ = .next t ∧ t.csnR = false ∧
        (t.sckR = true ↔ ∃ n, n < 8 * N ∧ riseAt b n ≤ e ∧ e < fallAt b n) ∧
        (∀ n, n < 8 * N → (n = 0 ∨ fallAt b (n - 1) ≤ e) → e < fallAt b n → t.mosiR = frameBit F n)) ∧
      ∃ t, runEdges (doneAt b N) s₁ = .next t ∧ t.csnR = true ∧ t.sckR = false

/-- The edge schedule (R117): MOSI carries bit 7 of the opcode from the acceptance; each bit's rising and falling SCK, the last falling
SCK, the completion and the return to IDLE are at their edges; the port is not ready at any edge before. That the eight wire commands are taken at the port,
with the form and the length that stand there, is the model's choice (log 7). -/
def Obligations.TransactionKeepsTheEdgeSchedule : Prop :=
  ∀ (i : Instr) (s : State), s.reqReady = true →
    let op := (requestOf i s).1
    let len := (requestOf i s).2.1
    let addr := (requestOf i s).2.2
    let N := frameLength op addr len
    let b := s.build
    validate op addr len = .ok → s.quiet (readyAt b N) →
    ∃ s₁, exec i s = .next s₁ ∧ s₁.csnR = false ∧ s₁.mosiR = (opcode op addr).getLsbD 7 ∧
      (∀ n, n < 8 * N → ∃ u v w x,
        runEdges (riseAt b n - 1) s₁ = .next u ∧ u.sckR = false ∧
        runEdges (riseAt b n) s₁ = .next v ∧ v.sckR = true ∧ v.rxSh.getLsbD 0 = (s.pinsAfter (riseAt b n)).miso ∧
        runEdges (fallAt b n - 1) s₁ = .next w ∧ w.sckR = true ∧
        runEdges (fallAt b n) s₁ = .next x ∧ x.sckR = false) ∧
      lastFallAt b N = fallAt b (8 * N - 1) ∧
      (∃ u v, runEdges (doneAt b N - 1) s₁ = .next u ∧ u.csnR = false ∧ u.doneR = false ∧
        runEdges (doneAt b N) s₁ = .next v ∧ v.csnR = true ∧ v.doneR = true) ∧
      (∃ v, runEdges (readyAt b N) s₁ = .next v ∧ v.phase = .idle ∧ v.doneR = false) ∧
      (∀ e, e < readyAt b N → ∃ t, runEdges e s₁ = .next t ∧ t.phase ≠ .idle)

/-! ### The reference slave, a test device (R131): the model's device, no claim about the chip -/

/-- The reference slave echoes the status from before the frame, and clears a sticky flag exactly when a write of the status register
has a 1 in its bit; no other frame changes the status (R126, R131). -/
def Obligations.ReferenceSlaveKeepsStickyFlags : Prop :=
  (∀ (x y : RefSlave) (c : Byte) (D M : List Byte), x.answer (c :: D) = some (M, y) → M.getD 0 0x00 = x.status ∧
    M.length = 1 + D.length ∧ (c ≠ 0x27 → y.status = x.status)) ∧
  (∀ (x : RefSlave) (v : Byte), ∃ M y, x.answer [0x27, v] = some (M, y) ∧
    ∀ j, j < 8 → y.status.getLsbD j = (x.status.getLsbD j && !(v.getLsbD j && (j == 4 || j == 5 || j == 6))))

/-- Against the reference slave, a register of REG_SET other than STATUS and FIFO_STATUS that was written whole, 1 byte or 5 (R53),
reads back (R125, R131). -/
def Obligations.ReferenceSlaveReadsBack : Prop :=
  ∀ (x : RefSlave) (a : BitVec 5) (D fills : List Byte), inRegSet a = true → a ≠ 0x07 → a ≠ 0x17 →
    D.length = regWidth a → fills.length = D.length →
    ∃ M y M' y', x.answer ((0x20 ||| a.zeroExtend 8) :: D) = some (M, y) ∧
      y.answer (a.zeroExtend 8 :: fills) = some (M', y') ∧ M' = y.status :: D ∧ y' = y

/-- The reference slave meets the device contract (R124 to R129, R131), for every build: the premises contradict neither each other nor
the spec's own test device. Its register of FIFO_STATUS is the one it changes itself; with the payload-width register of pipe 0
holding `P` and every payload of that size, the sizes of R128 stand. The premises' reading of the contract is the model's (log 18,
log 22), and so is the view of the slave as a device (log 14). -/
def Obligations.ReferenceSlaveMeetsTheDeviceContract : Prop :=
  ∀ b : Build,
    refSlaveDevice.StatusEcho b ∧ refSlaveDevice.ReadBack b (fun a => a ≠ 0x17) ∧ refSlaveDevice.StickyFlags b ∧
    refSlaveDevice.ModeControlled b ∧ ∀ P, 1 ≤ P → P ≤ 32 → refSlaveDevice.Fifos b P ∧
      refSlaveDevice.PayloadSize b (fun _ => P) (fun k => k = 0)
        (fun x => x.1.reg 0x11 = [BitVec.ofNat 8 P] ∧ ∀ p ∈ x.1.rxf, p.length = P)
end

