-- ==== Sys2Proof/Laws/Encoding.lean ====
section
/-! SUPPORT. What the encoding functions say: the fields of a packed request descriptor, and the bits of an opcode byte. -/

namespace Sys2Proof

/-- The bits of a request descriptor: address, length, operation from the low end up (R70). -/
theorem packReqw_bit (op : BitVec 2) (len : BitVec 6) (addr : Byte) (i : Nat) :
    (packReqw op len addr).getLsbD i =
      if i < 8 then addr.getLsbD i else if i - 8 < 6 then len.getLsbD (i - 8) else op.getLsbD (i - 8 - 6) := by
  have h₁ := BitVec.getLsbD_append (x := op ++ len) (y := addr) (i := i)
  have h₂ := BitVec.getLsbD_append (x := op) (y := len) (i := i - 8)
  exact (h₁.trans (by rw [h₂]))

@[simp] theorem packReqw_op (op : BitVec 2) (len : BitVec 6) (addr : Byte) :
    (packReqw op len addr).extractLsb' 14 2 = op := by
  apply BitVec.eq_of_getLsbD_eq
  intro i hi
  have h₁ : ¬ 14 + i < 8 := by omega
  have h₂ : ¬ 14 + i - 8 < 6 := by omega
  have h₃ : 14 + i - 8 - 6 = i := by omega
  rw [BitVec.getLsbD_extractLsb', packReqw_bit, if_neg h₁, if_neg h₂, h₃]
  simp [hi]

@[simp] theorem packReqw_len (op : BitVec 2) (len : BitVec 6) (addr : Byte) :
    (packReqw op len addr).extractLsb' 8 6 = len := by
  apply BitVec.eq_of_getLsbD_eq
  intro i hi
  have h₁ : ¬ 8 + i < 8 := by omega
  have h₂ : 8 + i - 8 = i := by omega
  rw [BitVec.getLsbD_extractLsb', packReqw_bit, if_neg h₁, h₂, if_pos hi]
  simp [hi]

@[simp] theorem packReqw_addr (op : BitVec 2) (len : BitVec 6) (addr : Byte) :
    (packReqw op len addr).extractLsb' 0 8 = addr := by
  apply BitVec.eq_of_getLsbD_eq
  intro i hi
  rw [BitVec.getLsbD_extractLsb', packReqw_bit, if_pos (by omega)]
  simp [hi]

@[simp] theorem reqOpOf_code (op : ReqOp) : reqOpOf op.code = op := by cases op <;> decide

@[simp] theorem code_reqOpOf (op : BitVec 2) : (reqOpOf op).code = op := by revert op; decide

/-- A packed descriptor decodes to the request of its operation, length and address. -/
theorem decodeReqw_pack (op : BitVec 2) (len : BitVec 6) (addr : Byte) :
    decodeReqw (packReqw op len addr) =
      match reqOpOf op with
      | .readReg => .readReg len addr
      | .readBuf => .readBuf len addr
      | .writeReg => .writeReg len addr
      | .writeBuf => .writeBuf len addr := by
  cases h : reqOpOf op <;> simp [decodeReqw, h]

end Sys2Proof

namespace Sys2Proof.Machine

/-- The opcode byte of a read of a documented register decodes to that read (R72, R82). -/
theorem decodeOpcode_read {a : BitVec 5} : inRegSet a = true → decodeOpcode (a.zeroExtend 8) = .ok (.rRegister a) := by
  intro h
  have ha : (BitVec.zeroExtend 8 a).extractLsb' 0 5 = a ∧ (BitVec.zeroExtend 8 a).extractLsb' 5 3 = 0b000 := by
    revert a; decide
  simp [decodeOpcode, ha.1, ha.2, h]

/-- The opcode byte of a write of a documented register decodes to that write (R72, R82). -/
theorem decodeOpcode_write {a : BitVec 5} : inRegSet a = true →
    decodeOpcode (0x20 ||| a.zeroExtend 8) = .ok (.wRegister a) := by
  intro h
  have ha : (0x20 ||| BitVec.zeroExtend 8 a).extractLsb' 0 5 = a ∧ (0x20 ||| BitVec.zeroExtend 8 a).extractLsb' 5 3 = 0b001 := by
    revert a; decide
  simp only [decodeOpcode, ha.1, ha.2, h]
  rfl

/-- Only one byte decodes to the write of a given register: bit 5 and the address. -/
theorem eq_of_decodeOpcode_write {c : Byte} {a : BitVec 5} (h : decodeOpcode c = .ok (.wRegister a)) : c = 0x20 ||| a.zeroExtend 8 := by
  have hc : ∀ c : Byte, c.extractLsb' 5 3 = 0b001 → c = 0x20 ||| (c.extractLsb' 0 5).zeroExtend 8 := by decide
  simp only [decodeOpcode] at h
  repeat' split at h
  all_goals cases h
  exact hc c ‹_›

theorem isRead_asRead (op : ReqOp) : op.asRead.isRead = true := by cases op <;> decide

theorem isRead_asWrite (op : ReqOp) : op.asWrite.isRead = false := by cases op <;> decide

theorem isBuf_asRead (op : ReqOp) : op.asRead.isBuf = op.isBuf := by cases op <;> decide

theorem isBuf_asWrite (op : ReqOp) : op.asWrite.isBuf = op.isBuf := by cases op <;> decide

theorem asRead_of_isRead {op : ReqOp} (h : op.isRead = true) : op.asRead = op := by
  revert h; cases op <;> decide

theorem asWrite_of_isWrite {op : ReqOp} (h : op.isRead = false) : op.asWrite = op := by
  revert h; cases op <;> decide

/-- Validation succeeds on exactly the valid addresses, with a length of 1 to 32 where the operation has one. -/
theorem validate_eq_ok_iff (op : ReqOp) (len : BitVec 6) (a : Byte) :
    validate op a len = .ok ↔
      addrClass a ≠ .invalid ∧ (op.isBuf = true → 1 ≤ len.toNat ∧ len.toNat ≤ 32) := by
  unfold validate
  cases op.isBuf <;> by_cases h : addrClass a = .invalid <;> simp [h, Config.maxData]
  omega

/-- A request that passed validation has at most 32 data bytes. -/
theorem dataLen_le {op : ReqOp} {len : BitVec 6} {a : Byte} (h : validate op a len = .ok) :
    dataLen op a len ≤ 32 := by
  have := (validate_eq_ok_iff op len a).1 h
  unfold dataLen
  split
  · omega
  · split <;> simp_all

@[simp] theorem frameOf_length (b : Build) (op : ReqOp) (a : Byte) (len : BitVec 6) (wdata : Vector Byte 32) :
    (frameOf b op a len wdata).length = dataLen op a len + 1 := by
  simp [frameOf]

@[simp] theorem frameOf_head (b : Build) (op : ReqOp) (a : Byte) (len : BitVec 6) (wdata : Vector Byte 32) :
    (frameOf b op a len wdata).getD 0 0x00 = opcode op a := by
  simp [frameOf]

@[simp] theorem loadFrame_get (F : List Byte) (k : Fin 33) : (loadFrame F).get k = F.getD k.val 0x00 := by
  show (loadFrame F)[k.val] = _
  simp [loadFrame]

/-- A read returns all its data bytes, a write none. -/
theorem rxCount_le {op : ReqOp} {len : BitVec 6} {a : Byte} (h : validate op a len = .ok) :
    rxCount op a len ≤ 32 := by
  have := dataLen_le h
  unfold rxCount
  split <;> omega

/-- No request fails validation with TransportError. -/
theorem validate_ne_transportError (op : ReqOp) (a : Byte) (len : BitVec 6) : validate op a len ≠ .transportError := by
  unfold validate
  split
  · simp
  · split <;> simp

/-- The data bytes of a read are all FILL_BYTE. -/
theorem dataBytes_read (b : Build) {op : ReqOp} (h : op.isRead = true) (wdata : Vector Byte 32) (n : Nat) :
    (List.range n).map (dataByte b op wdata) = List.replicate n b.fillByte := by
  have : dataByte b op wdata = fun _ => b.fillByte := by funext i; simp [dataByte, h]
  rw [this]; simp

/-- The data bytes of a write are the first write bytes, in order. -/
theorem dataBytes_write (b : Build) {op : ReqOp} (h : op.isRead = false) (wdata : Vector Byte 32) {n : Nat} (hn : n ≤ 32) :
    (List.range n).map (dataByte b op wdata) = wdata.toList.take n := by
  apply List.ext_getElem
  · simp; omega
  · intro i h1 h2
    have : i < 32 := by simp at h1; omega
    simp [dataByte, h, Vector.getD, this]

/-- A no-argument command is its own write opcode. -/
theorem noarg_opcode (a : Byte) : isNoargCmd a = true → addrClass a = .noargCmd ∧ a ||| 0x20 = a := by
  revert a; decide

theorem addrClass_ne_noarg (a : Byte) : isNoargCmd a = false → addrClass a ≠ .noargCmd := by
  revert a; decide

/-- A read count fits its frame. -/
theorem rxCount_lt_frame {op : ReqOp} {len : BitVec 6} {a : Byte} (h : validate op a len = .ok) (b : Build)
    (wdata : Vector Byte 32) :
    rxCount op a len + 1 ≤ (frameOf b op a len wdata).length ∨ rxCount op a len = 0 := by
  have := dataLen_le h
  rw [frameOf_length]; unfold rxCount; split <;> omega

end Sys2Proof.Machine
end

