-- ==== Sys2Proof/Laws/Device.lean ====
section
/-! SUPPORT. The reference slave: which requests leave it as it was (20_memory.md R64), its answer to the frames of each command, and
its view as a device. -/

namespace Sys2Proof.Machine

/-- A command that R64 counts among those without a device effect leaves the reference slave as it was. -/
theorem command_unchanged {x y : RefSlave} {i : Instr} {D M : List Byte} (hi : commandChangesDevice i = false)
    (hc : x.command i D = some (M, y)) : y = x := by
  cases i with
  | rRegister a => simp only [RefSlave.command] at hc; split at hc <;> cases hc <;> rfl
  | nop => cases hc; rfl
  | wRegister | rRxPayload | wTxPayload | flushTx | flushRx | reuseTxPl => cases hi
  | readReg | readBuf | writeReg | writeBuf => cases hc

/-- A frame whose opcode is such a command leaves the reference slave as it was. -/
theorem answer_unchanged {x y : RefSlave} {c : Byte} {D M : List Byte} {i : Instr} (hd : decodeOpcode c = .ok i)
    (hi : commandChangesDevice i = false) (ha : x.answer (c :: D) = some (M, y)) : y = x := by
  simp only [RefSlave.answer, hd] at ha
  split at ha
  · cases ha
  · rename_i hc; cases ha; exact command_unchanged hi hc

/-- A request line that R64 counts among those without a device effect leaves the reference slave as it was. -/
theorem runLine_unchanged (b : Build) (l : Line) (r : Response) (x : RefSlave)
    (h : requestChangesDevice l.op l.len l.addr = false) : (runLine b l r x).2 = x := by
  unfold runLine
  split
  · rename_i hv
    split
    · rfl
    · rename_i M y ha
      rw [requestChangesDevice, if_pos hv] at h
      cases hd : decodeOpcode (opcode l.op l.addr) with
      | error e => simp [Line.frame, frameOf, RefSlave.answer, hd] at ha
      | ok i => rw [hd] at h; exact answer_unchanged hd h ha
  · rfl

/-! ### The answer to a frame of each command -/

/-- A frame of a command returns the status from before it and then the command's bytes. -/
theorem answer_eq {c : Byte} {i : Instr} (hd : decodeOpcode c = .ok i) (x : RefSlave) (D : List Byte) :
    x.answer (c :: D) = (x.command i D).map fun p => (x.status :: p.1, p.2) := by
  simp only [RefSlave.answer, hd]
  cases x.command i D <;> rfl

theorem upTo_length (n : Nat) (bytes : List Byte) : (upTo n bytes).length = n := by simp [upTo]

theorem upTo_getD {n i : Nat} (bytes : List Byte) (h : i < n) : (upTo n bytes).getD i 0x00 = bytes.getD i 0x00 := by
  simp [upTo, List.getD_eq_getElem?_getD, h]

theorem overwrite_length (w : Nat) (bytes D : List Byte) : (overwrite w bytes D).length = w := by simp [overwrite]

/-- A write as wide as the register replaces it. -/
theorem overwrite_whole (bytes D : List Byte) : overwrite D.length bytes D = D := by
  refine List.ext_getElem (by simp [overwrite]) fun n h₁ h₂ => ?_
  simp [overwrite, h₂]

/-- A read of a register other than FIFO_STATUS returns its bytes. -/
theorem command_read {a : BitVec 5} (h : a ≠ 0x17) (x : RefSlave) (D : List Byte) :
    x.command (.rRegister a) D = some (upTo D.length ((x.reg a).take (regWidth a)), x) := by
  exact if_neg h

/-- A write of a register other than STATUS replaces its first bytes. -/
theorem command_write {a : BitVec 5} (h : a ≠ statusAddr) (x : RefSlave) (D : List Byte) :
    x.command (.wRegister a) D = some (fillers D.length, x.setReg a (overwrite (regWidth a) (x.reg a) D)) := by
  exact if_neg h

/-- A frame that is no write of the status register leaves the status as it was. -/
theorem command_status {x y : RefSlave} {i : Instr} {D M : List Byte} (hi : i ≠ .wRegister statusAddr)
    (hc : x.command i D = some (M, y)) : y.status = x.status := by
  cases i with
  | wRegister a =>
    have ha : a ≠ statusAddr := fun he => hi (by rw [he])
    rw [command_write ha] at hc
    cases hc
    simp only [RefSlave.status, RefSlave.reg_setReg, if_neg ha]
  | rRegister a => rw [command_unchanged rfl hc]
  | nop => rw [command_unchanged rfl hc]
  | rRxPayload => simp only [RefSlave.command] at hc; split at hc <;> cases hc <;> rfl
  | wTxPayload => simp only [RefSlave.command] at hc; split at hc <;> cases hc <;> rfl
  | flushTx => cases hc; rfl
  | flushRx => cases hc; rfl
  | reuseTxPl => cases hc; rfl
  | readReg => cases hc
  | readBuf => cases hc
  | writeReg => cases hc
  | writeBuf => cases hc

/-! ### The view as a device -/

/-- What the device view of the reference slave returns and becomes at a frame it answers. -/
theorem refSlaveDevice_respond {x : {x : RefSlave // x.Wf}} {y : RefSlave} {F M : List Byte} (h : x.1.answer F = some (M, y)) :
    (refSlaveDevice.respond x F).1 = M ∧ (refSlaveDevice.after x F).1 = y := by
  unfold Device.after refSlaveDevice
  constructor <;> (dsimp only; split <;> simp_all)

/-- A frame of a command, through the device view. -/
theorem refSlaveDevice_command {x : {x : RefSlave // x.Wf}} {c : Byte} {i : Instr} {D M : List Byte} {y : RefSlave}
    (hd : decodeOpcode c = .ok i) (hc : x.1.command i D = some (M, y)) :
    (refSlaveDevice.respond x (c :: D)).1 = x.1.status :: M ∧ (refSlaveDevice.after x (c :: D)).1 = y :=
  refSlaveDevice_respond (by rw [answer_eq hd, hc]; rfl)

end Sys2Proof.Machine
end

