-- ==== Sys2Proof/Laws/State.lean ====
section
/-! SUPPORT. For each update of State, what it leaves in every field. -/

namespace Sys2Proof.Machine

/-! `advance` -/

@[simp] theorem advance_phase (s : State) : (s.advance).phase = s.phase := rfl
@[simp] theorem advance_cnt (s : State) : (s.advance).cnt = s.cnt := rfl
@[simp] theorem advance_frameLen (s : State) : (s.advance).frameLen = s.frameLen := rfl
@[simp] theorem advance_nrxL (s : State) : (s.advance).nrxL = s.nrxL := rfl
@[simp] theorem advance_byteIdx (s : State) : (s.advance).byteIdx = s.byteIdx := rfl
@[simp] theorem advance_bitIdx (s : State) : (s.advance).bitIdx = s.bitIdx := rfl
@[simp] theorem advance_txFrame (s : State) : (s.advance).txFrame = s.txFrame := rfl
@[simp] theorem advance_rxSh (s : State) : (s.advance).rxSh = s.rxSh := rfl
@[simp] theorem advance_rxFrame (s : State) : (s.advance).rxFrame = s.rxFrame := rfl
@[simp] theorem advance_faultL (s : State) : (s.advance).faultL = s.faultL := rfl
@[simp] theorem advance_opL (s : State) : (s.advance).opL = s.opL := rfl
@[simp] theorem advance_addrL (s : State) : (s.advance).addrL = s.addrL := rfl
@[simp] theorem advance_csnR (s : State) : (s.advance).csnR = s.csnR := rfl
@[simp] theorem advance_sckR (s : State) : (s.advance).sckR = s.sckR := rfl
@[simp] theorem advance_mosiR (s : State) : (s.advance).mosiR = s.mosiR := rfl
@[simp] theorem advance_doneR (s : State) : (s.advance).doneR = s.doneR := rfl
@[simp] theorem advance_rspErr (s : State) : (s.advance).rspErr = s.rspErr := rfl
@[simp] theorem advance_rspStatus (s : State) : (s.advance).rspStatus = s.rspStatus := rfl
@[simp] theorem advance_rspRdata (s : State) : (s.advance).rspRdata = s.rspRdata := rfl
@[simp] theorem advance_rspNrx (s : State) : (s.advance).rspNrx = s.rspNrx := rfl
@[simp] theorem advance_stValid (s : State) : (s.advance).stValid = s.stValid := rfl
@[simp] theorem advance_stRxDr (s : State) : (s.advance).stRxDr = s.stRxDr := rfl
@[simp] theorem advance_stTxDs (s : State) : (s.advance).stTxDs = s.stTxDs := rfl
@[simp] theorem advance_stMaxRt (s : State) : (s.advance).stMaxRt = s.stMaxRt := rfl
@[simp] theorem advance_fifoValid (s : State) : (s.advance).fifoValid = s.fifoValid := rfl
@[simp] theorem advance_fifoRxEmpty (s : State) : (s.advance).fifoRxEmpty = s.fifoRxEmpty := rfl
@[simp] theorem advance_build (s : State) : (s.advance).build = s.build := rfl
@[simp] theorem advance_inputs (s : State) : (s.advance).inputs = s.inputs.tail := rfl
@[simp] theorem advance_tick (s : State) : (s.advance).tick = s.tick + 1 := rfl

/-! `withPins` -/

@[simp] theorem withPins_phase (s : State) (p : Pins) : (s.withPins p).phase = .idle := rfl
@[simp] theorem withPins_cnt (s : State) (p : Pins) : (s.withPins p).cnt = s.cnt := rfl
@[simp] theorem withPins_frameLen (s : State) (p : Pins) : (s.withPins p).frameLen = s.frameLen := rfl
@[simp] theorem withPins_nrxL (s : State) (p : Pins) : (s.withPins p).nrxL = s.nrxL := rfl
@[simp] theorem withPins_byteIdx (s : State) (p : Pins) : (s.withPins p).byteIdx = s.byteIdx := rfl
@[simp] theorem withPins_bitIdx (s : State) (p : Pins) : (s.withPins p).bitIdx = s.bitIdx := rfl
@[simp] theorem withPins_txFrame (s : State) (p : Pins) : (s.withPins p).txFrame = s.txFrame := rfl
@[simp] theorem withPins_rxSh (s : State) (p : Pins) : (s.withPins p).rxSh = s.rxSh := rfl
@[simp] theorem withPins_rxFrame (s : State) (p : Pins) : (s.withPins p).rxFrame = s.rxFrame := rfl
@[simp] theorem withPins_faultL (s : State) (p : Pins) : (s.withPins p).faultL = s.faultL := rfl
@[simp] theorem withPins_opL (s : State) (p : Pins) : (s.withPins p).opL = s.opL := rfl
@[simp] theorem withPins_addrL (s : State) (p : Pins) : (s.withPins p).addrL = s.addrL := rfl
@[simp] theorem withPins_csnR (s : State) (p : Pins) : (s.withPins p).csnR = s.csnR := rfl
@[simp] theorem withPins_sckR (s : State) (p : Pins) : (s.withPins p).sckR = s.sckR := rfl
@[simp] theorem withPins_mosiR (s : State) (p : Pins) : (s.withPins p).mosiR = s.mosiR := rfl
@[simp] theorem withPins_doneR (s : State) (p : Pins) : (s.withPins p).doneR = s.doneR := rfl
@[simp] theorem withPins_rspErr (s : State) (p : Pins) : (s.withPins p).rspErr = s.rspErr := rfl
@[simp] theorem withPins_rspStatus (s : State) (p : Pins) : (s.withPins p).rspStatus = s.rspStatus := rfl
@[simp] theorem withPins_rspRdata (s : State) (p : Pins) : (s.withPins p).rspRdata = s.rspRdata := rfl
@[simp] theorem withPins_rspNrx (s : State) (p : Pins) : (s.withPins p).rspNrx = s.rspNrx := rfl
@[simp] theorem withPins_stValid (s : State) (p : Pins) : (s.withPins p).stValid = s.stValid := rfl
@[simp] theorem withPins_stRxDr (s : State) (p : Pins) : (s.withPins p).stRxDr = s.stRxDr := rfl
@[simp] theorem withPins_stTxDs (s : State) (p : Pins) : (s.withPins p).stTxDs = s.stTxDs := rfl
@[simp] theorem withPins_stMaxRt (s : State) (p : Pins) : (s.withPins p).stMaxRt = s.stMaxRt := rfl
@[simp] theorem withPins_fifoValid (s : State) (p : Pins) : (s.withPins p).fifoValid = s.fifoValid := rfl
@[simp] theorem withPins_fifoRxEmpty (s : State) (p : Pins) : (s.withPins p).fifoRxEmpty = s.fifoRxEmpty := rfl
@[simp] theorem withPins_build (s : State) (p : Pins) : (s.withPins p).build = s.build := rfl
@[simp] theorem withPins_inputs (s : State) (p : Pins) : (s.withPins p).inputs = p :: s.inputs.tail := rfl
@[simp] theorem withPins_tick (s : State) (p : Pins) : (s.withPins p).tick = s.tick := rfl

/-! `resetEdge` -/

@[simp] theorem resetEdge_phase (s : State) : (resetEdge s).phase = .idle := rfl
@[simp] theorem resetEdge_cnt (s : State) : (resetEdge s).cnt = 0 := rfl
@[simp] theorem resetEdge_frameLen (s : State) : (resetEdge s).frameLen = 0 := rfl
@[simp] theorem resetEdge_nrxL (s : State) : (resetEdge s).nrxL = 0 := rfl
@[simp] theorem resetEdge_byteIdx (s : State) : (resetEdge s).byteIdx = 0 := rfl
@[simp] theorem resetEdge_bitIdx (s : State) : (resetEdge s).bitIdx = 7 := rfl
@[simp] theorem resetEdge_txFrame (s : State) : (resetEdge s).txFrame = Vector.replicate 33 0x00 := rfl
@[simp] theorem resetEdge_rxSh (s : State) : (resetEdge s).rxSh = Config.freeRxSh s.tick := rfl
@[simp] theorem resetEdge_rxFrame (s : State) : (resetEdge s).rxFrame = Config.freeRxFrame s.tick := rfl
@[simp] theorem resetEdge_faultL (s : State) : (resetEdge s).faultL = false := rfl
@[simp] theorem resetEdge_opL (s : State) : (resetEdge s).opL = .readReg := rfl
@[simp] theorem resetEdge_addrL (s : State) : (resetEdge s).addrL = 0x00 := rfl
@[simp] theorem resetEdge_csnR (s : State) : (resetEdge s).csnR = true := rfl
@[simp] theorem resetEdge_sckR (s : State) : (resetEdge s).sckR = false := rfl
@[simp] theorem resetEdge_mosiR (s : State) : (resetEdge s).mosiR = false := rfl
@[simp] theorem resetEdge_doneR (s : State) : (resetEdge s).doneR = false := rfl
@[simp] theorem resetEdge_rspErr (s : State) : (resetEdge s).rspErr = .ok := rfl
@[simp] theorem resetEdge_rspStatus (s : State) : (resetEdge s).rspStatus = 0x00 := rfl
@[simp] theorem resetEdge_rspRdata (s : State) : (resetEdge s).rspRdata = Vector.replicate 32 0x00 := rfl
@[simp] theorem resetEdge_rspNrx (s : State) : (resetEdge s).rspNrx = 0 := rfl
@[simp] theorem resetEdge_stValid (s : State) : (resetEdge s).stValid = false := rfl
@[simp] theorem resetEdge_stRxDr (s : State) : (resetEdge s).stRxDr = false := rfl
@[simp] theorem resetEdge_stTxDs (s : State) : (resetEdge s).stTxDs = false := rfl
@[simp] theorem resetEdge_stMaxRt (s : State) : (resetEdge s).stMaxRt = false := rfl
@[simp] theorem resetEdge_fifoValid (s : State) : (resetEdge s).fifoValid = false := rfl
@[simp] theorem resetEdge_fifoRxEmpty (s : State) : (resetEdge s).fifoRxEmpty = false := rfl
@[simp] theorem resetEdge_build (s : State) : (resetEdge s).build = s.build := rfl
@[simp] theorem resetEdge_inputs (s : State) : (resetEdge s).inputs = s.inputs := rfl
@[simp] theorem resetEdge_tick (s : State) : (resetEdge s).tick = s.tick := rfl

/-! `captureResponse` -/

@[simp] theorem captureResponse_phase (s : State) : (captureResponse s).phase = s.phase := rfl
@[simp] theorem captureResponse_cnt (s : State) : (captureResponse s).cnt = s.cnt := rfl
@[simp] theorem captureResponse_frameLen (s : State) : (captureResponse s).frameLen = s.frameLen := rfl
@[simp] theorem captureResponse_nrxL (s : State) : (captureResponse s).nrxL = s.nrxL := rfl
@[simp] theorem captureResponse_byteIdx (s : State) : (captureResponse s).byteIdx = s.byteIdx := rfl
@[simp] theorem captureResponse_bitIdx (s : State) : (captureResponse s).bitIdx = s.bitIdx := rfl
@[simp] theorem captureResponse_txFrame (s : State) : (captureResponse s).txFrame = s.txFrame := rfl
@[simp] theorem captureResponse_rxSh (s : State) : (captureResponse s).rxSh = s.rxSh := rfl
@[simp] theorem captureResponse_rxFrame (s : State) : (captureResponse s).rxFrame = s.rxFrame := rfl
@[simp] theorem captureResponse_faultL (s : State) : (captureResponse s).faultL = s.faultL := rfl
@[simp] theorem captureResponse_opL (s : State) : (captureResponse s).opL = s.opL := rfl
@[simp] theorem captureResponse_addrL (s : State) : (captureResponse s).addrL = s.addrL := rfl
@[simp] theorem captureResponse_csnR (s : State) : (captureResponse s).csnR = s.csnR := rfl
@[simp] theorem captureResponse_sckR (s : State) : (captureResponse s).sckR = s.sckR := rfl
@[simp] theorem captureResponse_mosiR (s : State) : (captureResponse s).mosiR = s.mosiR := rfl
@[simp] theorem captureResponse_doneR (s : State) : (captureResponse s).doneR = s.doneR := rfl
@[simp] theorem captureResponse_rspErr (s : State) : (captureResponse s).rspErr = .ok := rfl
@[simp] theorem captureResponse_rspStatus (s : State) : (captureResponse s).rspStatus = s.rxFrame.get 0 := rfl
@[simp] theorem captureResponse_rspRdata (s : State) : (captureResponse s).rspRdata = readData s.nrxL.toNat s.rxFrame := rfl
@[simp] theorem captureResponse_rspNrx (s : State) : (captureResponse s).rspNrx = s.nrxL := rfl
@[simp] theorem captureResponse_stValid (s : State) : (captureResponse s).stValid = s.stValid := rfl
@[simp] theorem captureResponse_stRxDr (s : State) : (captureResponse s).stRxDr = s.stRxDr := rfl
@[simp] theorem captureResponse_stTxDs (s : State) : (captureResponse s).stTxDs = s.stTxDs := rfl
@[simp] theorem captureResponse_stMaxRt (s : State) : (captureResponse s).stMaxRt = s.stMaxRt := rfl
@[simp] theorem captureResponse_fifoValid (s : State) : (captureResponse s).fifoValid = s.fifoValid := rfl
@[simp] theorem captureResponse_fifoRxEmpty (s : State) : (captureResponse s).fifoRxEmpty = s.fifoRxEmpty := rfl
@[simp] theorem captureResponse_build (s : State) : (captureResponse s).build = s.build := rfl
@[simp] theorem captureResponse_inputs (s : State) : (captureResponse s).inputs = s.inputs := rfl
@[simp] theorem captureResponse_tick (s : State) : (captureResponse s).tick = s.tick := rfl

/-! `statusDecode` -/

@[simp] theorem statusDecode_phase (b : Byte) (s : State) : (statusDecode b s).phase = s.phase := rfl
@[simp] theorem statusDecode_cnt (b : Byte) (s : State) : (statusDecode b s).cnt = s.cnt := rfl
@[simp] theorem statusDecode_frameLen (b : Byte) (s : State) : (statusDecode b s).frameLen = s.frameLen := rfl
@[simp] theorem statusDecode_nrxL (b : Byte) (s : State) : (statusDecode b s).nrxL = s.nrxL := rfl
@[simp] theorem statusDecode_byteIdx (b : Byte) (s : State) : (statusDecode b s).byteIdx = s.byteIdx := rfl
@[simp] theorem statusDecode_bitIdx (b : Byte) (s : State) : (statusDecode b s).bitIdx = s.bitIdx := rfl
@[simp] theorem statusDecode_txFrame (b : Byte) (s : State) : (statusDecode b s).txFrame = s.txFrame := rfl
@[simp] theorem statusDecode_rxSh (b : Byte) (s : State) : (statusDecode b s).rxSh = s.rxSh := rfl
@[simp] theorem statusDecode_rxFrame (b : Byte) (s : State) : (statusDecode b s).rxFrame = s.rxFrame := rfl
@[simp] theorem statusDecode_faultL (b : Byte) (s : State) : (statusDecode b s).faultL = s.faultL := rfl
@[simp] theorem statusDecode_opL (b : Byte) (s : State) : (statusDecode b s).opL = s.opL := rfl
@[simp] theorem statusDecode_addrL (b : Byte) (s : State) : (statusDecode b s).addrL = s.addrL := rfl
@[simp] theorem statusDecode_csnR (b : Byte) (s : State) : (statusDecode b s).csnR = s.csnR := rfl
@[simp] theorem statusDecode_sckR (b : Byte) (s : State) : (statusDecode b s).sckR = s.sckR := rfl
@[simp] theorem statusDecode_mosiR (b : Byte) (s : State) : (statusDecode b s).mosiR = s.mosiR := rfl
@[simp] theorem statusDecode_doneR (b : Byte) (s : State) : (statusDecode b s).doneR = s.doneR := rfl
@[simp] theorem statusDecode_rspErr (b : Byte) (s : State) : (statusDecode b s).rspErr = s.rspErr := rfl
@[simp] theorem statusDecode_rspStatus (b : Byte) (s : State) : (statusDecode b s).rspStatus = s.rspStatus := rfl
@[simp] theorem statusDecode_rspRdata (b : Byte) (s : State) : (statusDecode b s).rspRdata = s.rspRdata := rfl
@[simp] theorem statusDecode_rspNrx (b : Byte) (s : State) : (statusDecode b s).rspNrx = s.rspNrx := rfl
@[simp] theorem statusDecode_stValid (b : Byte) (s : State) : (statusDecode b s).stValid = true := rfl
@[simp] theorem statusDecode_stRxDr (b : Byte) (s : State) : (statusDecode b s).stRxDr = rxDrOf b := rfl
@[simp] theorem statusDecode_stTxDs (b : Byte) (s : State) : (statusDecode b s).stTxDs = txDsOf b := rfl
@[simp] theorem statusDecode_stMaxRt (b : Byte) (s : State) : (statusDecode b s).stMaxRt = maxRtOf b := rfl
@[simp] theorem statusDecode_fifoValid (b : Byte) (s : State) : (statusDecode b s).fifoValid = s.fifoValid := rfl
@[simp] theorem statusDecode_fifoRxEmpty (b : Byte) (s : State) : (statusDecode b s).fifoRxEmpty = s.fifoRxEmpty := rfl
@[simp] theorem statusDecode_build (b : Byte) (s : State) : (statusDecode b s).build = s.build := rfl
@[simp] theorem statusDecode_inputs (b : Byte) (s : State) : (statusDecode b s).inputs = s.inputs := rfl
@[simp] theorem statusDecode_tick (b : Byte) (s : State) : (statusDecode b s).tick = s.tick := rfl

/-! `fifoDecode` -/

@[simp] theorem fifoDecode_phase (s : State) : (fifoDecode s).phase = s.phase := by unfold fifoDecode; split <;> rfl
@[simp] theorem fifoDecode_cnt (s : State) : (fifoDecode s).cnt = s.cnt := by unfold fifoDecode; split <;> rfl
@[simp] theorem fifoDecode_frameLen (s : State) : (fifoDecode s).frameLen = s.frameLen := by unfold fifoDecode; split <;> rfl
@[simp] theorem fifoDecode_nrxL (s : State) : (fifoDecode s).nrxL = s.nrxL := by unfold fifoDecode; split <;> rfl
@[simp] theorem fifoDecode_byteIdx (s : State) : (fifoDecode s).byteIdx = s.byteIdx := by unfold fifoDecode; split <;> rfl
@[simp] theorem fifoDecode_bitIdx (s : State) : (fifoDecode s).bitIdx = s.bitIdx := by unfold fifoDecode; split <;> rfl
@[simp] theorem fifoDecode_txFrame (s : State) : (fifoDecode s).txFrame = s.txFrame := by unfold fifoDecode; split <;> rfl
@[simp] theorem fifoDecode_rxSh (s : State) : (fifoDecode s).rxSh = s.rxSh := by unfold fifoDecode; split <;> rfl
@[simp] theorem fifoDecode_rxFrame (s : State) : (fifoDecode s).rxFrame = s.rxFrame := by unfold fifoDecode; split <;> rfl
@[simp] theorem fifoDecode_faultL (s : State) : (fifoDecode s).faultL = s.faultL := by unfold fifoDecode; split <;> rfl
@[simp] theorem fifoDecode_opL (s : State) : (fifoDecode s).opL = s.opL := by unfold fifoDecode; split <;> rfl
@[simp] theorem fifoDecode_addrL (s : State) : (fifoDecode s).addrL = s.addrL := by unfold fifoDecode; split <;> rfl
@[simp] theorem fifoDecode_csnR (s : State) : (fifoDecode s).csnR = s.csnR := by unfold fifoDecode; split <;> rfl
@[simp] theorem fifoDecode_sckR (s : State) : (fifoDecode s).sckR = s.sckR := by unfold fifoDecode; split <;> rfl
@[simp] theorem fifoDecode_mosiR (s : State) : (fifoDecode s).mosiR = s.mosiR := by unfold fifoDecode; split <;> rfl
@[simp] theorem fifoDecode_doneR (s : State) : (fifoDecode s).doneR = s.doneR := by unfold fifoDecode; split <;> rfl
@[simp] theorem fifoDecode_rspErr (s : State) : (fifoDecode s).rspErr = s.rspErr := by unfold fifoDecode; split <;> rfl
@[simp] theorem fifoDecode_rspStatus (s : State) : (fifoDecode s).rspStatus = s.rspStatus := by unfold fifoDecode; split <;> rfl
@[simp] theorem fifoDecode_rspRdata (s : State) : (fifoDecode s).rspRdata = s.rspRdata := by unfold fifoDecode; split <;> rfl
@[simp] theorem fifoDecode_rspNrx (s : State) : (fifoDecode s).rspNrx = s.rspNrx := by unfold fifoDecode; split <;> rfl
@[simp] theorem fifoDecode_stValid (s : State) : (fifoDecode s).stValid = s.stValid := by unfold fifoDecode; split <;> rfl
@[simp] theorem fifoDecode_stRxDr (s : State) : (fifoDecode s).stRxDr = s.stRxDr := by unfold fifoDecode; split <;> rfl
@[simp] theorem fifoDecode_stTxDs (s : State) : (fifoDecode s).stTxDs = s.stTxDs := by unfold fifoDecode; split <;> rfl
@[simp] theorem fifoDecode_stMaxRt (s : State) : (fifoDecode s).stMaxRt = s.stMaxRt := by unfold fifoDecode; split <;> rfl
@[simp] theorem fifoDecode_fifoValid (s : State) : (fifoDecode s).fifoValid = if decodesFifo s.opL s.addrL s.nrxL.toNat then true else s.fifoValid := by unfold fifoDecode; split <;> simp [*]
@[simp] theorem fifoDecode_fifoRxEmpty (s : State) : (fifoDecode s).fifoRxEmpty = if decodesFifo s.opL s.addrL s.nrxL.toNat then rxEmptyOf (s.rxFrame.get 1) else s.fifoRxEmpty := by unfold fifoDecode; split <;> simp [*]
@[simp] theorem fifoDecode_build (s : State) : (fifoDecode s).build = s.build := by unfold fifoDecode; split <;> rfl
@[simp] theorem fifoDecode_inputs (s : State) : (fifoDecode s).inputs = s.inputs := by unfold fifoDecode; split <;> rfl
@[simp] theorem fifoDecode_tick (s : State) : (fifoDecode s).tick = s.tick := by unfold fifoDecode; split <;> rfl

/-! `completeOK` -/

@[simp] theorem completeOK_phase (s : State) : (completeOK s).phase = s.phase := by simp [completeOK]
@[simp] theorem completeOK_cnt (s : State) : (completeOK s).cnt = s.cnt := by simp [completeOK]
@[simp] theorem completeOK_frameLen (s : State) : (completeOK s).frameLen = s.frameLen := by simp [completeOK]
@[simp] theorem completeOK_nrxL (s : State) : (completeOK s).nrxL = s.nrxL := by simp [completeOK]
@[simp] theorem completeOK_byteIdx (s : State) : (completeOK s).byteIdx = s.byteIdx := by simp [completeOK]
@[simp] theorem completeOK_bitIdx (s : State) : (completeOK s).bitIdx = s.bitIdx := by simp [completeOK]
@[simp] theorem completeOK_txFrame (s : State) : (completeOK s).txFrame = s.txFrame := by simp [completeOK]
@[simp] theorem completeOK_rxSh (s : State) : (completeOK s).rxSh = s.rxSh := by simp [completeOK]
@[simp] theorem completeOK_rxFrame (s : State) : (completeOK s).rxFrame = s.rxFrame := by simp [completeOK]
@[simp] theorem completeOK_faultL (s : State) : (completeOK s).faultL = s.faultL := by simp [completeOK]
@[simp] theorem completeOK_opL (s : State) : (completeOK s).opL = s.opL := by simp [completeOK]
@[simp] theorem completeOK_addrL (s : State) : (completeOK s).addrL = s.addrL := by simp [completeOK]
@[simp] theorem completeOK_csnR (s : State) : (completeOK s).csnR = s.csnR := by simp [completeOK]
@[simp] theorem completeOK_sckR (s : State) : (completeOK s).sckR = s.sckR := by simp [completeOK]
@[simp] theorem completeOK_mosiR (s : State) : (completeOK s).mosiR = s.mosiR := by simp [completeOK]
@[simp] theorem completeOK_doneR (s : State) : (completeOK s).doneR = s.doneR := by simp [completeOK]
@[simp] theorem completeOK_rspErr (s : State) : (completeOK s).rspErr = .ok := by simp [completeOK]
@[simp] theorem completeOK_rspStatus (s : State) : (completeOK s).rspStatus = s.rxFrame.get 0 := by simp [completeOK]
@[simp] theorem completeOK_rspRdata (s : State) : (completeOK s).rspRdata = readData s.nrxL.toNat s.rxFrame := by simp [completeOK]
@[simp] theorem completeOK_rspNrx (s : State) : (completeOK s).rspNrx = s.nrxL := by simp [completeOK]
@[simp] theorem completeOK_stValid (s : State) : (completeOK s).stValid = true := by simp [completeOK]
@[simp] theorem completeOK_stRxDr (s : State) : (completeOK s).stRxDr = rxDrOf (s.rxFrame.get 0) := by simp [completeOK]
@[simp] theorem completeOK_stTxDs (s : State) : (completeOK s).stTxDs = txDsOf (s.rxFrame.get 0) := by simp [completeOK]
@[simp] theorem completeOK_stMaxRt (s : State) : (completeOK s).stMaxRt = maxRtOf (s.rxFrame.get 0) := by simp [completeOK]
@[simp] theorem completeOK_fifoValid (s : State) : (completeOK s).fifoValid = if decodesFifo s.opL s.addrL s.nrxL.toNat then true else s.fifoValid := (fifoDecode_fifoValid _).trans rfl
@[simp] theorem completeOK_fifoRxEmpty (s : State) : (completeOK s).fifoRxEmpty = if decodesFifo s.opL s.addrL s.nrxL.toNat then rxEmptyOf (s.rxFrame.get 1) else s.fifoRxEmpty := (fifoDecode_fifoRxEmpty _).trans rfl
@[simp] theorem completeOK_build (s : State) : (completeOK s).build = s.build := by simp [completeOK]
@[simp] theorem completeOK_inputs (s : State) : (completeOK s).inputs = s.inputs := by simp [completeOK]
@[simp] theorem completeOK_tick (s : State) : (completeOK s).tick = s.tick := by simp [completeOK]

/-! `completeTransportError` -/

@[simp] theorem completeTransportError_phase (s : State) : (completeTransportError s).phase = s.phase := rfl
@[simp] theorem completeTransportError_cnt (s : State) : (completeTransportError s).cnt = s.cnt := rfl
@[simp] theorem completeTransportError_frameLen (s : State) : (completeTransportError s).frameLen = s.frameLen := rfl
@[simp] theorem completeTransportError_nrxL (s : State) : (completeTransportError s).nrxL = s.nrxL := rfl
@[simp] theorem completeTransportError_byteIdx (s : State) : (completeTransportError s).byteIdx = s.byteIdx := rfl
@[simp] theorem completeTransportError_bitIdx (s : State) : (completeTransportError s).bitIdx = s.bitIdx := rfl
@[simp] theorem completeTransportError_txFrame (s : State) : (completeTransportError s).txFrame = s.txFrame := rfl
@[simp] theorem completeTransportError_rxSh (s : State) : (completeTransportError s).rxSh = s.rxSh := rfl
@[simp] theorem completeTransportError_rxFrame (s : State) : (completeTransportError s).rxFrame = s.rxFrame := rfl
@[simp] theorem completeTransportError_faultL (s : State) : (completeTransportError s).faultL = s.faultL := rfl
@[simp] theorem completeTransportError_opL (s : State) : (completeTransportError s).opL = s.opL := rfl
@[simp] theorem completeTransportError_addrL (s : State) : (completeTransportError s).addrL = s.addrL := rfl
@[simp] theorem completeTransportError_csnR (s : State) : (completeTransportError s).csnR = s.csnR := rfl
@[simp] theorem completeTransportError_sckR (s : State) : (completeTransportError s).sckR = s.sckR := rfl
@[simp] theorem completeTransportError_mosiR (s : State) : (completeTransportError s).mosiR = s.mosiR := rfl
@[simp] theorem completeTransportError_doneR (s : State) : (completeTransportError s).doneR = s.doneR := rfl
@[simp] theorem completeTransportError_rspErr (s : State) : (completeTransportError s).rspErr = .transportError := rfl
@[simp] theorem completeTransportError_rspStatus (s : State) : (completeTransportError s).rspStatus = Config.freeStatus s.tick := rfl
@[simp] theorem completeTransportError_rspRdata (s : State) : (completeTransportError s).rspRdata = Config.freeRdata s.tick := rfl
@[simp] theorem completeTransportError_rspNrx (s : State) : (completeTransportError s).rspNrx = 0 := rfl
@[simp] theorem completeTransportError_stValid (s : State) : (completeTransportError s).stValid = s.stValid := rfl
@[simp] theorem completeTransportError_stRxDr (s : State) : (completeTransportError s).stRxDr = s.stRxDr := rfl
@[simp] theorem completeTransportError_stTxDs (s : State) : (completeTransportError s).stTxDs = s.stTxDs := rfl
@[simp] theorem completeTransportError_stMaxRt (s : State) : (completeTransportError s).stMaxRt = s.stMaxRt := rfl
@[simp] theorem completeTransportError_fifoValid (s : State) : (completeTransportError s).fifoValid = s.fifoValid := rfl
@[simp] theorem completeTransportError_fifoRxEmpty (s : State) : (completeTransportError s).fifoRxEmpty = s.fifoRxEmpty := rfl
@[simp] theorem completeTransportError_build (s : State) : (completeTransportError s).build = s.build := rfl
@[simp] theorem completeTransportError_inputs (s : State) : (completeTransportError s).inputs = s.inputs := rfl
@[simp] theorem completeTransportError_tick (s : State) : (completeTransportError s).tick = s.tick := rfl

/-! `completeError` -/

@[simp] theorem completeError_phase (e : Completion) (s : State) : (completeError e s).phase = s.phase := rfl
@[simp] theorem completeError_cnt (e : Completion) (s : State) : (completeError e s).cnt = s.cnt := rfl
@[simp] theorem completeError_frameLen (e : Completion) (s : State) : (completeError e s).frameLen = s.frameLen := rfl
@[simp] theorem completeError_nrxL (e : Completion) (s : State) : (completeError e s).nrxL = s.nrxL := rfl
@[simp] theorem completeError_byteIdx (e : Completion) (s : State) : (completeError e s).byteIdx = s.byteIdx := rfl
@[simp] theorem completeError_bitIdx (e : Completion) (s : State) : (completeError e s).bitIdx = s.bitIdx := rfl
@[simp] theorem completeError_txFrame (e : Completion) (s : State) : (completeError e s).txFrame = s.txFrame := rfl
@[simp] theorem completeError_rxSh (e : Completion) (s : State) : (completeError e s).rxSh = s.rxSh := rfl
@[simp] theorem completeError_rxFrame (e : Completion) (s : State) : (completeError e s).rxFrame = s.rxFrame := rfl
@[simp] theorem completeError_faultL (e : Completion) (s : State) : (completeError e s).faultL = s.faultL := rfl
@[simp] theorem completeError_opL (e : Completion) (s : State) : (completeError e s).opL = s.opL := rfl
@[simp] theorem completeError_addrL (e : Completion) (s : State) : (completeError e s).addrL = s.addrL := rfl
@[simp] theorem completeError_csnR (e : Completion) (s : State) : (completeError e s).csnR = s.csnR := rfl
@[simp] theorem completeError_sckR (e : Completion) (s : State) : (completeError e s).sckR = s.sckR := rfl
@[simp] theorem completeError_mosiR (e : Completion) (s : State) : (completeError e s).mosiR = s.mosiR := rfl
@[simp] theorem completeError_doneR (e : Completion) (s : State) : (completeError e s).doneR = true := rfl
@[simp] theorem completeError_rspErr (e : Completion) (s : State) : (completeError e s).rspErr = if e = .invalidAddress then .invalidAddress else .invalidLength := rfl
@[simp] theorem completeError_rspStatus (e : Completion) (s : State) : (completeError e s).rspStatus = s.rspStatus := rfl
@[simp] theorem completeError_rspRdata (e : Completion) (s : State) : (completeError e s).rspRdata = s.rspRdata := rfl
@[simp] theorem completeError_rspNrx (e : Completion) (s : State) : (completeError e s).rspNrx = 0 := rfl
@[simp] theorem completeError_stValid (e : Completion) (s : State) : (completeError e s).stValid = s.stValid := rfl
@[simp] theorem completeError_stRxDr (e : Completion) (s : State) : (completeError e s).stRxDr = s.stRxDr := rfl
@[simp] theorem completeError_stTxDs (e : Completion) (s : State) : (completeError e s).stTxDs = s.stTxDs := rfl
@[simp] theorem completeError_stMaxRt (e : Completion) (s : State) : (completeError e s).stMaxRt = s.stMaxRt := rfl
@[simp] theorem completeError_fifoValid (e : Completion) (s : State) : (completeError e s).fifoValid = s.fifoValid := rfl
@[simp] theorem completeError_fifoRxEmpty (e : Completion) (s : State) : (completeError e s).fifoRxEmpty = s.fifoRxEmpty := rfl
@[simp] theorem completeError_build (e : Completion) (s : State) : (completeError e s).build = s.build := rfl
@[simp] theorem completeError_inputs (e : Completion) (s : State) : (completeError e s).inputs = s.inputs := rfl
@[simp] theorem completeError_tick (e : Completion) (s : State) : (completeError e s).tick = s.tick := rfl

/-! `countDown` -/

@[simp] theorem countDown_phase (s : State) : (countDown s).phase = s.phase := rfl
@[simp] theorem countDown_cnt (s : State) : (countDown s).cnt = s.cnt - 1 := rfl
@[simp] theorem countDown_frameLen (s : State) : (countDown s).frameLen = s.frameLen := rfl
@[simp] theorem countDown_nrxL (s : State) : (countDown s).nrxL = s.nrxL := rfl
@[simp] theorem countDown_byteIdx (s : State) : (countDown s).byteIdx = s.byteIdx := rfl
@[simp] theorem countDown_bitIdx (s : State) : (countDown s).bitIdx = s.bitIdx := rfl
@[simp] theorem countDown_txFrame (s : State) : (countDown s).txFrame = s.txFrame := rfl
@[simp] theorem countDown_rxSh (s : State) : (countDown s).rxSh = s.rxSh := rfl
@[simp] theorem countDown_rxFrame (s : State) : (countDown s).rxFrame = s.rxFrame := rfl
@[simp] theorem countDown_faultL (s : State) : (countDown s).faultL = s.faultL := rfl
@[simp] theorem countDown_opL (s : State) : (countDown s).opL = s.opL := rfl
@[simp] theorem countDown_addrL (s : State) : (countDown s).addrL = s.addrL := rfl
@[simp] theorem countDown_csnR (s : State) : (countDown s).csnR = s.csnR := rfl
@[simp] theorem countDown_sckR (s : State) : (countDown s).sckR = s.sckR := rfl
@[simp] theorem countDown_mosiR (s : State) : (countDown s).mosiR = s.mosiR := rfl
@[simp] theorem countDown_doneR (s : State) : (countDown s).doneR = s.doneR := rfl
@[simp] theorem countDown_rspErr (s : State) : (countDown s).rspErr = s.rspErr := rfl
@[simp] theorem countDown_rspStatus (s : State) : (countDown s).rspStatus = s.rspStatus := rfl
@[simp] theorem countDown_rspRdata (s : State) : (countDown s).rspRdata = s.rspRdata := rfl
@[simp] theorem countDown_rspNrx (s : State) : (countDown s).rspNrx = s.rspNrx := rfl
@[simp] theorem countDown_stValid (s : State) : (countDown s).stValid = s.stValid := rfl
@[simp] theorem countDown_stRxDr (s : State) : (countDown s).stRxDr = s.stRxDr := rfl
@[simp] theorem countDown_stTxDs (s : State) : (countDown s).stTxDs = s.stTxDs := rfl
@[simp] theorem countDown_stMaxRt (s : State) : (countDown s).stMaxRt = s.stMaxRt := rfl
@[simp] theorem countDown_fifoValid (s : State) : (countDown s).fifoValid = s.fifoValid := rfl
@[simp] theorem countDown_fifoRxEmpty (s : State) : (countDown s).fifoRxEmpty = s.fifoRxEmpty := rfl
@[simp] theorem countDown_build (s : State) : (countDown s).build = s.build := rfl
@[simp] theorem countDown_inputs (s : State) : (countDown s).inputs = s.inputs := rfl
@[simp] theorem countDown_tick (s : State) : (countDown s).tick = s.tick := rfl

/-! `rise` -/

@[simp] theorem rise_phase (s : State) : (rise s).phase = .shiftHi := rfl
@[simp] theorem rise_cnt (s : State) : (rise s).cnt = reload s.build.sckDiv := rfl
@[simp] theorem rise_frameLen (s : State) : (rise s).frameLen = s.frameLen := rfl
@[simp] theorem rise_nrxL (s : State) : (rise s).nrxL = s.nrxL := rfl
@[simp] theorem rise_byteIdx (s : State) : (rise s).byteIdx = s.byteIdx := rfl
@[simp] theorem rise_bitIdx (s : State) : (rise s).bitIdx = s.bitIdx := rfl
@[simp] theorem rise_txFrame (s : State) : (rise s).txFrame = s.txFrame := rfl
@[simp] theorem rise_rxSh (s : State) : (rise s).rxSh = shiftIn s.rxSh s.pins.miso := rfl
@[simp] theorem rise_rxFrame (s : State) : (rise s).rxFrame = s.rxFrame := rfl
@[simp] theorem rise_faultL (s : State) : (rise s).faultL = s.faultL := rfl
@[simp] theorem rise_opL (s : State) : (rise s).opL = s.opL := rfl
@[simp] theorem rise_addrL (s : State) : (rise s).addrL = s.addrL := rfl
@[simp] theorem rise_csnR (s : State) : (rise s).csnR = s.csnR := rfl
@[simp] theorem rise_sckR (s : State) : (rise s).sckR = true := rfl
@[simp] theorem rise_mosiR (s : State) : (rise s).mosiR = s.mosiR := rfl
@[simp] theorem rise_doneR (s : State) : (rise s).doneR = s.doneR := rfl
@[simp] theorem rise_rspErr (s : State) : (rise s).rspErr = s.rspErr := rfl
@[simp] theorem rise_rspStatus (s : State) : (rise s).rspStatus = s.rspStatus := rfl
@[simp] theorem rise_rspRdata (s : State) : (rise s).rspRdata = s.rspRdata := rfl
@[simp] theorem rise_rspNrx (s : State) : (rise s).rspNrx = s.rspNrx := rfl
@[simp] theorem rise_stValid (s : State) : (rise s).stValid = s.stValid := rfl
@[simp] theorem rise_stRxDr (s : State) : (rise s).stRxDr = s.stRxDr := rfl
@[simp] theorem rise_stTxDs (s : State) : (rise s).stTxDs = s.stTxDs := rfl
@[simp] theorem rise_stMaxRt (s : State) : (rise s).stMaxRt = s.stMaxRt := rfl
@[simp] theorem rise_fifoValid (s : State) : (rise s).fifoValid = s.fifoValid := rfl
@[simp] theorem rise_fifoRxEmpty (s : State) : (rise s).fifoRxEmpty = s.fifoRxEmpty := rfl
@[simp] theorem rise_build (s : State) : (rise s).build = s.build := rfl
@[simp] theorem rise_inputs (s : State) : (rise s).inputs = s.inputs := rfl
@[simp] theorem rise_tick (s : State) : (rise s).tick = s.tick := rfl

/-! `fallToHold` -/

@[simp] theorem fallToHold_phase (s : State) : (fallToHold s).phase = .hold := rfl
@[simp] theorem fallToHold_cnt (s : State) : (fallToHold s).cnt = reload s.build.tHold := rfl
@[simp] theorem fallToHold_frameLen (s : State) : (fallToHold s).frameLen = s.frameLen := rfl
@[simp] theorem fallToHold_nrxL (s : State) : (fallToHold s).nrxL = s.nrxL := rfl
@[simp] theorem fallToHold_byteIdx (s : State) : (fallToHold s).byteIdx = s.byteIdx := rfl
@[simp] theorem fallToHold_bitIdx (s : State) : (fallToHold s).bitIdx = s.bitIdx := rfl
@[simp] theorem fallToHold_txFrame (s : State) : (fallToHold s).txFrame = s.txFrame := rfl
@[simp] theorem fallToHold_rxSh (s : State) : (fallToHold s).rxSh = s.rxSh := rfl
@[simp] theorem fallToHold_rxFrame (s : State) : (fallToHold s).rxFrame = s.rxFrame.set s.byteIdx.val s.rxSh s.byteIdx.isLt := rfl
@[simp] theorem fallToHold_faultL (s : State) : (fallToHold s).faultL = s.faultL := rfl
@[simp] theorem fallToHold_opL (s : State) : (fallToHold s).opL = s.opL := rfl
@[simp] theorem fallToHold_addrL (s : State) : (fallToHold s).addrL = s.addrL := rfl
@[simp] theorem fallToHold_csnR (s : State) : (fallToHold s).csnR = s.csnR := rfl
@[simp] theorem fallToHold_sckR (s : State) : (fallToHold s).sckR = false := rfl
@[simp] theorem fallToHold_mosiR (s : State) : (fallToHold s).mosiR = s.mosiR := rfl
@[simp] theorem fallToHold_doneR (s : State) : (fallToHold s).doneR = s.doneR := rfl
@[simp] theorem fallToHold_rspErr (s : State) : (fallToHold s).rspErr = s.rspErr := rfl
@[simp] theorem fallToHold_rspStatus (s : State) : (fallToHold s).rspStatus = s.rspStatus := rfl
@[simp] theorem fallToHold_rspRdata (s : State) : (fallToHold s).rspRdata = s.rspRdata := rfl
@[simp] theorem fallToHold_rspNrx (s : State) : (fallToHold s).rspNrx = s.rspNrx := rfl
@[simp] theorem fallToHold_stValid (s : State) : (fallToHold s).stValid = s.stValid := rfl
@[simp] theorem fallToHold_stRxDr (s : State) : (fallToHold s).stRxDr = s.stRxDr := rfl
@[simp] theorem fallToHold_stTxDs (s : State) : (fallToHold s).stTxDs = s.stTxDs := rfl
@[simp] theorem fallToHold_stMaxRt (s : State) : (fallToHold s).stMaxRt = s.stMaxRt := rfl
@[simp] theorem fallToHold_fifoValid (s : State) : (fallToHold s).fifoValid = s.fifoValid := rfl
@[simp] theorem fallToHold_fifoRxEmpty (s : State) : (fallToHold s).fifoRxEmpty = s.fifoRxEmpty := rfl
@[simp] theorem fallToHold_build (s : State) : (fallToHold s).build = s.build := rfl
@[simp] theorem fallToHold_inputs (s : State) : (fallToHold s).inputs = s.inputs := rfl
@[simp] theorem fallToHold_tick (s : State) : (fallToHold s).tick = s.tick := rfl

/-! `fallToNextByte` -/

@[simp] theorem fallToNextByte_phase (s : State) : (fallToNextByte s).phase = .shiftLo := rfl
@[simp] theorem fallToNextByte_cnt (s : State) : (fallToNextByte s).cnt = reload s.build.sckDiv := rfl
@[simp] theorem fallToNextByte_frameLen (s : State) : (fallToNextByte s).frameLen = s.frameLen := rfl
@[simp] theorem fallToNextByte_nrxL (s : State) : (fallToNextByte s).nrxL = s.nrxL := rfl
@[simp] theorem fallToNextByte_byteIdx (s : State) : (fallToNextByte s).byteIdx = s.byteIdx + 1 := rfl
@[simp] theorem fallToNextByte_bitIdx (s : State) : (fallToNextByte s).bitIdx = 7 := rfl
@[simp] theorem fallToNextByte_txFrame (s : State) : (fallToNextByte s).txFrame = s.txFrame := rfl
@[simp] theorem fallToNextByte_rxSh (s : State) : (fallToNextByte s).rxSh = s.rxSh := rfl
@[simp] theorem fallToNextByte_rxFrame (s : State) : (fallToNextByte s).rxFrame = s.rxFrame.set s.byteIdx.val s.rxSh s.byteIdx.isLt := rfl
@[simp] theorem fallToNextByte_faultL (s : State) : (fallToNextByte s).faultL = s.faultL := rfl
@[simp] theorem fallToNextByte_opL (s : State) : (fallToNextByte s).opL = s.opL := rfl
@[simp] theorem fallToNextByte_addrL (s : State) : (fallToNextByte s).addrL = s.addrL := rfl
@[simp] theorem fallToNextByte_csnR (s : State) : (fallToNextByte s).csnR = s.csnR := rfl
@[simp] theorem fallToNextByte_sckR (s : State) : (fallToNextByte s).sckR = false := rfl
@[simp] theorem fallToNextByte_mosiR (s : State) : (fallToNextByte s).mosiR = (s.txFrame.get (s.byteIdx + 1)).getLsbD 7 := rfl
@[simp] theorem fallToNextByte_doneR (s : State) : (fallToNextByte s).doneR = s.doneR := rfl
@[simp] theorem fallToNextByte_rspErr (s : State) : (fallToNextByte s).rspErr = s.rspErr := rfl
@[simp] theorem fallToNextByte_rspStatus (s : State) : (fallToNextByte s).rspStatus = s.rspStatus := rfl
@[simp] theorem fallToNextByte_rspRdata (s : State) : (fallToNextByte s).rspRdata = s.rspRdata := rfl
@[simp] theorem fallToNextByte_rspNrx (s : State) : (fallToNextByte s).rspNrx = s.rspNrx := rfl
@[simp] theorem fallToNextByte_stValid (s : State) : (fallToNextByte s).stValid = s.stValid := rfl
@[simp] theorem fallToNextByte_stRxDr (s : State) : (fallToNextByte s).stRxDr = s.stRxDr := rfl
@[simp] theorem fallToNextByte_stTxDs (s : State) : (fallToNextByte s).stTxDs = s.stTxDs := rfl
@[simp] theorem fallToNextByte_stMaxRt (s : State) : (fallToNextByte s).stMaxRt = s.stMaxRt := rfl
@[simp] theorem fallToNextByte_fifoValid (s : State) : (fallToNextByte s).fifoValid = s.fifoValid := rfl
@[simp] theorem fallToNextByte_fifoRxEmpty (s : State) : (fallToNextByte s).fifoRxEmpty = s.fifoRxEmpty := rfl
@[simp] theorem fallToNextByte_build (s : State) : (fallToNextByte s).build = s.build := rfl
@[simp] theorem fallToNextByte_inputs (s : State) : (fallToNextByte s).inputs = s.inputs := rfl
@[simp] theorem fallToNextByte_tick (s : State) : (fallToNextByte s).tick = s.tick := rfl

/-! `fallToNextBit` -/

@[simp] theorem fallToNextBit_phase (s : State) : (fallToNextBit s).phase = .shiftLo := rfl
@[simp] theorem fallToNextBit_cnt (s : State) : (fallToNextBit s).cnt = reload s.build.sckDiv := rfl
@[simp] theorem fallToNextBit_frameLen (s : State) : (fallToNextBit s).frameLen = s.frameLen := rfl
@[simp] theorem fallToNextBit_nrxL (s : State) : (fallToNextBit s).nrxL = s.nrxL := rfl
@[simp] theorem fallToNextBit_byteIdx (s : State) : (fallToNextBit s).byteIdx = s.byteIdx := rfl
@[simp] theorem fallToNextBit_bitIdx (s : State) : (fallToNextBit s).bitIdx = s.bitIdx - 1 := rfl
@[simp] theorem fallToNextBit_txFrame (s : State) : (fallToNextBit s).txFrame = s.txFrame := rfl
@[simp] theorem fallToNextBit_rxSh (s : State) : (fallToNextBit s).rxSh = s.rxSh := rfl
@[simp] theorem fallToNextBit_rxFrame (s : State) : (fallToNextBit s).rxFrame = s.rxFrame := rfl
@[simp] theorem fallToNextBit_faultL (s : State) : (fallToNextBit s).faultL = s.faultL := rfl
@[simp] theorem fallToNextBit_opL (s : State) : (fallToNextBit s).opL = s.opL := rfl
@[simp] theorem fallToNextBit_addrL (s : State) : (fallToNextBit s).addrL = s.addrL := rfl
@[simp] theorem fallToNextBit_csnR (s : State) : (fallToNextBit s).csnR = s.csnR := rfl
@[simp] theorem fallToNextBit_sckR (s : State) : (fallToNextBit s).sckR = false := rfl
@[simp] theorem fallToNextBit_mosiR (s : State) : (fallToNextBit s).mosiR = (s.txFrame.get s.byteIdx).getLsbD (s.bitIdx - 1).val := rfl
@[simp] theorem fallToNextBit_doneR (s : State) : (fallToNextBit s).doneR = s.doneR := rfl
@[simp] theorem fallToNextBit_rspErr (s : State) : (fallToNextBit s).rspErr = s.rspErr := rfl
@[simp] theorem fallToNextBit_rspStatus (s : State) : (fallToNextBit s).rspStatus = s.rspStatus := rfl
@[simp] theorem fallToNextBit_rspRdata (s : State) : (fallToNextBit s).rspRdata = s.rspRdata := rfl
@[simp] theorem fallToNextBit_rspNrx (s : State) : (fallToNextBit s).rspNrx = s.rspNrx := rfl
@[simp] theorem fallToNextBit_stValid (s : State) : (fallToNextBit s).stValid = s.stValid := rfl
@[simp] theorem fallToNextBit_stRxDr (s : State) : (fallToNextBit s).stRxDr = s.stRxDr := rfl
@[simp] theorem fallToNextBit_stTxDs (s : State) : (fallToNextBit s).stTxDs = s.stTxDs := rfl
@[simp] theorem fallToNextBit_stMaxRt (s : State) : (fallToNextBit s).stMaxRt = s.stMaxRt := rfl
@[simp] theorem fallToNextBit_fifoValid (s : State) : (fallToNextBit s).fifoValid = s.fifoValid := rfl
@[simp] theorem fallToNextBit_fifoRxEmpty (s : State) : (fallToNextBit s).fifoRxEmpty = s.fifoRxEmpty := rfl
@[simp] theorem fallToNextBit_build (s : State) : (fallToNextBit s).build = s.build := rfl
@[simp] theorem fallToNextBit_inputs (s : State) : (fallToNextBit s).inputs = s.inputs := rfl
@[simp] theorem fallToNextBit_tick (s : State) : (fallToNextBit s).tick = s.tick := rfl

/-! `release` -/

@[simp] theorem release_phase (s : State) : (release s).phase = .gap := rfl
@[simp] theorem release_cnt (s : State) : (release s).cnt = reload s.build.tIdle := rfl
@[simp] theorem release_frameLen (s : State) : (release s).frameLen = s.frameLen := rfl
@[simp] theorem release_nrxL (s : State) : (release s).nrxL = s.nrxL := rfl
@[simp] theorem release_byteIdx (s : State) : (release s).byteIdx = s.byteIdx := rfl
@[simp] theorem release_bitIdx (s : State) : (release s).bitIdx = s.bitIdx := rfl
@[simp] theorem release_txFrame (s : State) : (release s).txFrame = s.txFrame := rfl
@[simp] theorem release_rxSh (s : State) : (release s).rxSh = s.rxSh := rfl
@[simp] theorem release_rxFrame (s : State) : (release s).rxFrame = s.rxFrame := rfl
@[simp] theorem release_faultL (s : State) : (release s).faultL = s.faultL := rfl
@[simp] theorem release_opL (s : State) : (release s).opL = s.opL := rfl
@[simp] theorem release_addrL (s : State) : (release s).addrL = s.addrL := rfl
@[simp] theorem release_csnR (s : State) : (release s).csnR = true := rfl
@[simp] theorem release_sckR (s : State) : (release s).sckR = s.sckR := rfl
@[simp] theorem release_mosiR (s : State) : (release s).mosiR = false := rfl
@[simp] theorem release_doneR (s : State) : (release s).doneR = true := rfl
@[simp] theorem release_rspErr (s : State) : (release s).rspErr = s.rspErr := rfl
@[simp] theorem release_rspStatus (s : State) : (release s).rspStatus = s.rspStatus := rfl
@[simp] theorem release_rspRdata (s : State) : (release s).rspRdata = s.rspRdata := rfl
@[simp] theorem release_rspNrx (s : State) : (release s).rspNrx = s.rspNrx := rfl
@[simp] theorem release_stValid (s : State) : (release s).stValid = s.stValid := rfl
@[simp] theorem release_stRxDr (s : State) : (release s).stRxDr = s.stRxDr := rfl
@[simp] theorem release_stTxDs (s : State) : (release s).stTxDs = s.stTxDs := rfl
@[simp] theorem release_stMaxRt (s : State) : (release s).stMaxRt = s.stMaxRt := rfl
@[simp] theorem release_fifoValid (s : State) : (release s).fifoValid = s.fifoValid := rfl
@[simp] theorem release_fifoRxEmpty (s : State) : (release s).fifoRxEmpty = s.fifoRxEmpty := rfl
@[simp] theorem release_build (s : State) : (release s).build = s.build := rfl
@[simp] theorem release_inputs (s : State) : (release s).inputs = s.inputs := rfl
@[simp] theorem release_tick (s : State) : (release s).tick = s.tick := rfl

/-! `abortEdge` -/

@[simp] theorem abortEdge_phase (s : State) : (abortEdge s).phase = .hold := rfl
@[simp] theorem abortEdge_cnt (s : State) : (abortEdge s).cnt = reload s.build.tHold := rfl
@[simp] theorem abortEdge_frameLen (s : State) : (abortEdge s).frameLen = s.frameLen := rfl
@[simp] theorem abortEdge_nrxL (s : State) : (abortEdge s).nrxL = s.nrxL := rfl
@[simp] theorem abortEdge_byteIdx (s : State) : (abortEdge s).byteIdx = s.byteIdx := rfl
@[simp] theorem abortEdge_bitIdx (s : State) : (abortEdge s).bitIdx = s.bitIdx := rfl
@[simp] theorem abortEdge_txFrame (s : State) : (abortEdge s).txFrame = s.txFrame := rfl
@[simp] theorem abortEdge_rxSh (s : State) : (abortEdge s).rxSh = s.rxSh := rfl
@[simp] theorem abortEdge_rxFrame (s : State) : (abortEdge s).rxFrame = s.rxFrame := rfl
@[simp] theorem abortEdge_faultL (s : State) : (abortEdge s).faultL = true := rfl
@[simp] theorem abortEdge_opL (s : State) : (abortEdge s).opL = s.opL := rfl
@[simp] theorem abortEdge_addrL (s : State) : (abortEdge s).addrL = s.addrL := rfl
@[simp] theorem abortEdge_csnR (s : State) : (abortEdge s).csnR = s.csnR := rfl
@[simp] theorem abortEdge_sckR (s : State) : (abortEdge s).sckR = false := rfl
@[simp] theorem abortEdge_mosiR (s : State) : (abortEdge s).mosiR = s.mosiR := rfl
@[simp] theorem abortEdge_doneR (s : State) : (abortEdge s).doneR = s.doneR := rfl
@[simp] theorem abortEdge_rspErr (s : State) : (abortEdge s).rspErr = s.rspErr := rfl
@[simp] theorem abortEdge_rspStatus (s : State) : (abortEdge s).rspStatus = s.rspStatus := rfl
@[simp] theorem abortEdge_rspRdata (s : State) : (abortEdge s).rspRdata = s.rspRdata := rfl
@[simp] theorem abortEdge_rspNrx (s : State) : (abortEdge s).rspNrx = s.rspNrx := rfl
@[simp] theorem abortEdge_stValid (s : State) : (abortEdge s).stValid = s.stValid := rfl
@[simp] theorem abortEdge_stRxDr (s : State) : (abortEdge s).stRxDr = s.stRxDr := rfl
@[simp] theorem abortEdge_stTxDs (s : State) : (abortEdge s).stTxDs = s.stTxDs := rfl
@[simp] theorem abortEdge_stMaxRt (s : State) : (abortEdge s).stMaxRt = s.stMaxRt := rfl
@[simp] theorem abortEdge_fifoValid (s : State) : (abortEdge s).fifoValid = s.fifoValid := rfl
@[simp] theorem abortEdge_fifoRxEmpty (s : State) : (abortEdge s).fifoRxEmpty = s.fifoRxEmpty := rfl
@[simp] theorem abortEdge_build (s : State) : (abortEdge s).build = s.build := rfl
@[simp] theorem abortEdge_inputs (s : State) : (abortEdge s).inputs = s.inputs := rfl
@[simp] theorem abortEdge_tick (s : State) : (abortEdge s).tick = s.tick := rfl

/-! `idleEdge` -/

@[simp] theorem idleEdge_phase (s : State) : (idleEdge s).phase = s.phase := rfl
@[simp] theorem idleEdge_cnt (s : State) : (idleEdge s).cnt = s.cnt := rfl
@[simp] theorem idleEdge_frameLen (s : State) : (idleEdge s).frameLen = s.frameLen := rfl
@[simp] theorem idleEdge_nrxL (s : State) : (idleEdge s).nrxL = s.nrxL := rfl
@[simp] theorem idleEdge_byteIdx (s : State) : (idleEdge s).byteIdx = s.byteIdx := rfl
@[simp] theorem idleEdge_bitIdx (s : State) : (idleEdge s).bitIdx = s.bitIdx := rfl
@[simp] theorem idleEdge_txFrame (s : State) : (idleEdge s).txFrame = s.txFrame := rfl
@[simp] theorem idleEdge_rxSh (s : State) : (idleEdge s).rxSh = s.rxSh := rfl
@[simp] theorem idleEdge_rxFrame (s : State) : (idleEdge s).rxFrame = s.rxFrame := rfl
@[simp] theorem idleEdge_faultL (s : State) : (idleEdge s).faultL = s.faultL := rfl
@[simp] theorem idleEdge_opL (s : State) : (idleEdge s).opL = s.opL := rfl
@[simp] theorem idleEdge_addrL (s : State) : (idleEdge s).addrL = s.addrL := rfl
@[simp] theorem idleEdge_csnR (s : State) : (idleEdge s).csnR = s.csnR := rfl
@[simp] theorem idleEdge_sckR (s : State) : (idleEdge s).sckR = s.sckR := rfl
@[simp] theorem idleEdge_mosiR (s : State) : (idleEdge s).mosiR = s.mosiR := rfl
@[simp] theorem idleEdge_doneR (s : State) : (idleEdge s).doneR = false := rfl
@[simp] theorem idleEdge_rspErr (s : State) : (idleEdge s).rspErr = s.rspErr := rfl
@[simp] theorem idleEdge_rspStatus (s : State) : (idleEdge s).rspStatus = s.rspStatus := rfl
@[simp] theorem idleEdge_rspRdata (s : State) : (idleEdge s).rspRdata = s.rspRdata := rfl
@[simp] theorem idleEdge_rspNrx (s : State) : (idleEdge s).rspNrx = s.rspNrx := rfl
@[simp] theorem idleEdge_stValid (s : State) : (idleEdge s).stValid = s.stValid := rfl
@[simp] theorem idleEdge_stRxDr (s : State) : (idleEdge s).stRxDr = s.stRxDr := rfl
@[simp] theorem idleEdge_stTxDs (s : State) : (idleEdge s).stTxDs = s.stTxDs := rfl
@[simp] theorem idleEdge_stMaxRt (s : State) : (idleEdge s).stMaxRt = s.stMaxRt := rfl
@[simp] theorem idleEdge_fifoValid (s : State) : (idleEdge s).fifoValid = s.fifoValid := rfl
@[simp] theorem idleEdge_fifoRxEmpty (s : State) : (idleEdge s).fifoRxEmpty = s.fifoRxEmpty := rfl
@[simp] theorem idleEdge_build (s : State) : (idleEdge s).build = s.build := rfl
@[simp] theorem idleEdge_inputs (s : State) : (idleEdge s).inputs = s.inputs := rfl
@[simp] theorem idleEdge_tick (s : State) : (idleEdge s).tick = s.tick := rfl

/-! `gapEnd` -/

@[simp] theorem gapEnd_phase (s : State) : (gapEnd s).phase = .idle := rfl
@[simp] theorem gapEnd_cnt (s : State) : (gapEnd s).cnt = s.cnt := rfl
@[simp] theorem gapEnd_frameLen (s : State) : (gapEnd s).frameLen = s.frameLen := rfl
@[simp] theorem gapEnd_nrxL (s : State) : (gapEnd s).nrxL = s.nrxL := rfl
@[simp] theorem gapEnd_byteIdx (s : State) : (gapEnd s).byteIdx = s.byteIdx := rfl
@[simp] theorem gapEnd_bitIdx (s : State) : (gapEnd s).bitIdx = s.bitIdx := rfl
@[simp] theorem gapEnd_txFrame (s : State) : (gapEnd s).txFrame = s.txFrame := rfl
@[simp] theorem gapEnd_rxSh (s : State) : (gapEnd s).rxSh = s.rxSh := rfl
@[simp] theorem gapEnd_rxFrame (s : State) : (gapEnd s).rxFrame = s.rxFrame := rfl
@[simp] theorem gapEnd_faultL (s : State) : (gapEnd s).faultL = s.faultL := rfl
@[simp] theorem gapEnd_opL (s : State) : (gapEnd s).opL = s.opL := rfl
@[simp] theorem gapEnd_addrL (s : State) : (gapEnd s).addrL = s.addrL := rfl
@[simp] theorem gapEnd_csnR (s : State) : (gapEnd s).csnR = s.csnR := rfl
@[simp] theorem gapEnd_sckR (s : State) : (gapEnd s).sckR = s.sckR := rfl
@[simp] theorem gapEnd_mosiR (s : State) : (gapEnd s).mosiR = s.mosiR := rfl
@[simp] theorem gapEnd_doneR (s : State) : (gapEnd s).doneR = false := rfl
@[simp] theorem gapEnd_rspErr (s : State) : (gapEnd s).rspErr = s.rspErr := rfl
@[simp] theorem gapEnd_rspStatus (s : State) : (gapEnd s).rspStatus = s.rspStatus := rfl
@[simp] theorem gapEnd_rspRdata (s : State) : (gapEnd s).rspRdata = s.rspRdata := rfl
@[simp] theorem gapEnd_rspNrx (s : State) : (gapEnd s).rspNrx = s.rspNrx := rfl
@[simp] theorem gapEnd_stValid (s : State) : (gapEnd s).stValid = s.stValid := rfl
@[simp] theorem gapEnd_stRxDr (s : State) : (gapEnd s).stRxDr = s.stRxDr := rfl
@[simp] theorem gapEnd_stTxDs (s : State) : (gapEnd s).stTxDs = s.stTxDs := rfl
@[simp] theorem gapEnd_stMaxRt (s : State) : (gapEnd s).stMaxRt = s.stMaxRt := rfl
@[simp] theorem gapEnd_fifoValid (s : State) : (gapEnd s).fifoValid = s.fifoValid := rfl
@[simp] theorem gapEnd_fifoRxEmpty (s : State) : (gapEnd s).fifoRxEmpty = s.fifoRxEmpty := rfl
@[simp] theorem gapEnd_build (s : State) : (gapEnd s).build = s.build := rfl
@[simp] theorem gapEnd_inputs (s : State) : (gapEnd s).inputs = s.inputs := rfl
@[simp] theorem gapEnd_tick (s : State) : (gapEnd s).tick = s.tick := rfl

/-! `gapWait` -/

@[simp] theorem gapWait_phase (s : State) : (gapWait s).phase = s.phase := rfl
@[simp] theorem gapWait_cnt (s : State) : (gapWait s).cnt = s.cnt - 1 := rfl
@[simp] theorem gapWait_frameLen (s : State) : (gapWait s).frameLen = s.frameLen := rfl
@[simp] theorem gapWait_nrxL (s : State) : (gapWait s).nrxL = s.nrxL := rfl
@[simp] theorem gapWait_byteIdx (s : State) : (gapWait s).byteIdx = s.byteIdx := rfl
@[simp] theorem gapWait_bitIdx (s : State) : (gapWait s).bitIdx = s.bitIdx := rfl
@[simp] theorem gapWait_txFrame (s : State) : (gapWait s).txFrame = s.txFrame := rfl
@[simp] theorem gapWait_rxSh (s : State) : (gapWait s).rxSh = s.rxSh := rfl
@[simp] theorem gapWait_rxFrame (s : State) : (gapWait s).rxFrame = s.rxFrame := rfl
@[simp] theorem gapWait_faultL (s : State) : (gapWait s).faultL = s.faultL := rfl
@[simp] theorem gapWait_opL (s : State) : (gapWait s).opL = s.opL := rfl
@[simp] theorem gapWait_addrL (s : State) : (gapWait s).addrL = s.addrL := rfl
@[simp] theorem gapWait_csnR (s : State) : (gapWait s).csnR = s.csnR := rfl
@[simp] theorem gapWait_sckR (s : State) : (gapWait s).sckR = s.sckR := rfl
@[simp] theorem gapWait_mosiR (s : State) : (gapWait s).mosiR = s.mosiR := rfl
@[simp] theorem gapWait_doneR (s : State) : (gapWait s).doneR = false := rfl
@[simp] theorem gapWait_rspErr (s : State) : (gapWait s).rspErr = s.rspErr := rfl
@[simp] theorem gapWait_rspStatus (s : State) : (gapWait s).rspStatus = s.rspStatus := rfl
@[simp] theorem gapWait_rspRdata (s : State) : (gapWait s).rspRdata = s.rspRdata := rfl
@[simp] theorem gapWait_rspNrx (s : State) : (gapWait s).rspNrx = s.rspNrx := rfl
@[simp] theorem gapWait_stValid (s : State) : (gapWait s).stValid = s.stValid := rfl
@[simp] theorem gapWait_stRxDr (s : State) : (gapWait s).stRxDr = s.stRxDr := rfl
@[simp] theorem gapWait_stTxDs (s : State) : (gapWait s).stTxDs = s.stTxDs := rfl
@[simp] theorem gapWait_stMaxRt (s : State) : (gapWait s).stMaxRt = s.stMaxRt := rfl
@[simp] theorem gapWait_fifoValid (s : State) : (gapWait s).fifoValid = s.fifoValid := rfl
@[simp] theorem gapWait_fifoRxEmpty (s : State) : (gapWait s).fifoRxEmpty = s.fifoRxEmpty := rfl
@[simp] theorem gapWait_build (s : State) : (gapWait s).build = s.build := rfl
@[simp] theorem gapWait_inputs (s : State) : (gapWait s).inputs = s.inputs := rfl
@[simp] theorem gapWait_tick (s : State) : (gapWait s).tick = s.tick := rfl

/-! `loadTransaction` -/

@[simp] theorem loadTransaction_phase (F : List Byte) (r : Nat) (op : ReqOp) (addr : Byte) (s : State) : (loadTransaction F r op addr s).phase = .setup := rfl
@[simp] theorem loadTransaction_cnt (F : List Byte) (r : Nat) (op : ReqOp) (addr : Byte) (s : State) : (loadTransaction F r op addr s).cnt = reload s.build.tSetup := rfl
@[simp] theorem loadTransaction_frameLen (F : List Byte) (r : Nat) (op : ReqOp) (addr : Byte) (s : State) : (loadTransaction F r op addr s).frameLen = BitVec.ofNat 6 F.length := rfl
@[simp] theorem loadTransaction_nrxL (F : List Byte) (r : Nat) (op : ReqOp) (addr : Byte) (s : State) : (loadTransaction F r op addr s).nrxL = BitVec.ofNat 6 r := rfl
@[simp] theorem loadTransaction_byteIdx (F : List Byte) (r : Nat) (op : ReqOp) (addr : Byte) (s : State) : (loadTransaction F r op addr s).byteIdx = 0 := rfl
@[simp] theorem loadTransaction_bitIdx (F : List Byte) (r : Nat) (op : ReqOp) (addr : Byte) (s : State) : (loadTransaction F r op addr s).bitIdx = 7 := rfl
@[simp] theorem loadTransaction_txFrame (F : List Byte) (r : Nat) (op : ReqOp) (addr : Byte) (s : State) : (loadTransaction F r op addr s).txFrame = loadFrame F := rfl
@[simp] theorem loadTransaction_rxSh (F : List Byte) (r : Nat) (op : ReqOp) (addr : Byte) (s : State) : (loadTransaction F r op addr s).rxSh = s.rxSh := rfl
@[simp] theorem loadTransaction_rxFrame (F : List Byte) (r : Nat) (op : ReqOp) (addr : Byte) (s : State) : (loadTransaction F r op addr s).rxFrame = s.rxFrame := rfl
@[simp] theorem loadTransaction_faultL (F : List Byte) (r : Nat) (op : ReqOp) (addr : Byte) (s : State) : (loadTransaction F r op addr s).faultL = false := rfl
@[simp] theorem loadTransaction_opL (F : List Byte) (r : Nat) (op : ReqOp) (addr : Byte) (s : State) : (loadTransaction F r op addr s).opL = op := rfl
@[simp] theorem loadTransaction_addrL (F : List Byte) (r : Nat) (op : ReqOp) (addr : Byte) (s : State) : (loadTransaction F r op addr s).addrL = addr := rfl
@[simp] theorem loadTransaction_csnR (F : List Byte) (r : Nat) (op : ReqOp) (addr : Byte) (s : State) : (loadTransaction F r op addr s).csnR = false := rfl
@[simp] theorem loadTransaction_sckR (F : List Byte) (r : Nat) (op : ReqOp) (addr : Byte) (s : State) : (loadTransaction F r op addr s).sckR = false := rfl
@[simp] theorem loadTransaction_mosiR (F : List Byte) (r : Nat) (op : ReqOp) (addr : Byte) (s : State) : (loadTransaction F r op addr s).mosiR = (F.getD 0 0x00).getLsbD 7 := rfl
@[simp] theorem loadTransaction_doneR (F : List Byte) (r : Nat) (op : ReqOp) (addr : Byte) (s : State) : (loadTransaction F r op addr s).doneR = false := rfl
@[simp] theorem loadTransaction_rspErr (F : List Byte) (r : Nat) (op : ReqOp) (addr : Byte) (s : State) : (loadTransaction F r op addr s).rspErr = s.rspErr := rfl
@[simp] theorem loadTransaction_rspStatus (F : List Byte) (r : Nat) (op : ReqOp) (addr : Byte) (s : State) : (loadTransaction F r op addr s).rspStatus = s.rspStatus := rfl
@[simp] theorem loadTransaction_rspRdata (F : List Byte) (r : Nat) (op : ReqOp) (addr : Byte) (s : State) : (loadTransaction F r op addr s).rspRdata = s.rspRdata := rfl
@[simp] theorem loadTransaction_rspNrx (F : List Byte) (r : Nat) (op : ReqOp) (addr : Byte) (s : State) : (loadTransaction F r op addr s).rspNrx = s.rspNrx := rfl
@[simp] theorem loadTransaction_stValid (F : List Byte) (r : Nat) (op : ReqOp) (addr : Byte) (s : State) : (loadTransaction F r op addr s).stValid = s.stValid := rfl
@[simp] theorem loadTransaction_stRxDr (F : List Byte) (r : Nat) (op : ReqOp) (addr : Byte) (s : State) : (loadTransaction F r op addr s).stRxDr = s.stRxDr := rfl
@[simp] theorem loadTransaction_stTxDs (F : List Byte) (r : Nat) (op : ReqOp) (addr : Byte) (s : State) : (loadTransaction F r op addr s).stTxDs = s.stTxDs := rfl
@[simp] theorem loadTransaction_stMaxRt (F : List Byte) (r : Nat) (op : ReqOp) (addr : Byte) (s : State) : (loadTransaction F r op addr s).stMaxRt = s.stMaxRt := rfl
@[simp] theorem loadTransaction_fifoValid (F : List Byte) (r : Nat) (op : ReqOp) (addr : Byte) (s : State) : (loadTransaction F r op addr s).fifoValid = s.fifoValid := rfl
@[simp] theorem loadTransaction_fifoRxEmpty (F : List Byte) (r : Nat) (op : ReqOp) (addr : Byte) (s : State) : (loadTransaction F r op addr s).fifoRxEmpty = s.fifoRxEmpty := rfl
@[simp] theorem loadTransaction_build (F : List Byte) (r : Nat) (op : ReqOp) (addr : Byte) (s : State) : (loadTransaction F r op addr s).build = s.build := rfl
@[simp] theorem loadTransaction_inputs (F : List Byte) (r : Nat) (op : ReqOp) (addr : Byte) (s : State) : (loadTransaction F r op addr s).inputs = s.inputs := rfl
@[simp] theorem loadTransaction_tick (F : List Byte) (r : Nat) (op : ReqOp) (addr : Byte) (s : State) : (loadTransaction F r op addr s).tick = s.tick := rfl

end Sys2Proof.Machine
end

