-- ==== Sys2Proof/Laws/Ops.lean ====
section
/-! SUPPORT. What each shared operation can do, said once: the input signals over an edge, the offer of a request, the rule that
applies at an edge, and the step. -/

namespace Sys2Proof.Machine

/-! ### The input signals over an edge -/

@[simp] theorem pinsAfter_advance (s : State) (n : Nat) : s.advance.pinsAfter n = s.pinsAfter (n + 1) := by
  have : s.tick + 1 + n = s.tick + (n + 1) := by omega
  simp [State.pinsAfter, this]

@[simp] theorem pins_advance (s : State) : s.advance.pins = s.pinsAfter 1 := pinsAfter_advance s 0

/-- The input signals depend on the model's own two fields only. -/
theorem pinsAfter_congr {s t : State} (hi : t.inputs = s.inputs) (ht : t.tick = s.tick) (n : Nat) :
    t.pinsAfter n = s.pinsAfter n := by
  simp [State.pinsAfter, hi, ht]

/-! ### What is never changed by a rule -/

theorem phaseEdge_own (s : State) :
    (phaseEdge s).build = s.build ∧ (phaseEdge s).inputs = s.inputs ∧ (phaseEdge s).tick = s.tick := by
  unfold phaseEdge setupEdge shiftHiEdge shiftLoEdge holdEdge gapEdge fall
  repeat' split
  all_goals simp

theorem edgeRule_own (s : State) :
    (edgeRule s).build = s.build ∧ (edgeRule s).inputs = s.inputs ∧ (edgeRule s).tick = s.tick := by
  unfold edgeRule
  split
  · simp
  · split
    · simp
    · exact phaseEdge_own s

theorem acceptRule_own (op : ReqOp) (len : BitVec 6) (addr : Byte) (s : State) :
    (acceptRule op len addr s).build = s.build ∧ (acceptRule op len addr s).inputs = s.inputs ∧
      (acceptRule op len addr s).tick = s.tick := by
  unfold acceptRule beginTransaction
  split <;> simp

@[simp] theorem clockEdge_build (s : State) : (clockEdge s).build = s.build := by
  simp [clockEdge, edgeRule_own]

@[simp] theorem acceptEdge_build (op : ReqOp) (len : BitVec 6) (addr : Byte) (s : State) :
    (acceptEdge op len addr s).build = s.build := by
  simp [acceptEdge, acceptRule_own]

@[simp] theorem clockEdge_pinsAfter (s : State) (n : Nat) : (clockEdge s).pinsAfter n = s.pinsAfter (n + 1) := by
  simp [clockEdge, pinsAfter_congr (edgeRule_own s).2.1 (edgeRule_own s).2.2]

@[simp] theorem acceptEdge_pinsAfter (op : ReqOp) (len : BitVec 6) (addr : Byte) (s : State) (n : Nat) :
    (acceptEdge op len addr s).pinsAfter n = s.pinsAfter (n + 1) := by
  simp [acceptEdge, pinsAfter_congr (acceptRule_own op len addr s).2.1 (acceptRule_own op len addr s).2.2]

/-! ### The offer of a request, and the step -/

theorem reqReady_iff (s : State) : s.reqReady = true ↔ s.phase = .idle ∧ s.pins.rst = false := by
  simp [State.reqReady]

theorem offer_ready {s : State} (h : s.reqReady = true) (op : ReqOp) (len : BitVec 6) (addr : Byte) :
    offer op len addr s = .next (acceptEdge op len addr s) := by
  simp [offer, h]

theorem offer_waits {s : State} (h : s.reqReady = false) (op : ReqOp) (len : BitVec 6) (addr : Byte) :
    offer op len addr s = .next (clockEdge s) := by
  simp [offer, h]

/-- Every instruction is the offer of one request. -/
theorem exec_eq_offer (i : Instr) (s : State) :
    exec i s = offer (requestOf i s).1 (requestOf i s).2.1 (requestOf i s).2.2 s := by
  cases i <;> rfl

/-- The instruction at the port offers the port's own operation, length and address. -/
theorem exec_fetch (s : State) : exec (fetch s) s = offer s.portOp s.pins.reqLen s.pins.reqAddr s := by
  unfold fetch State.portReqw State.portOp
  rw [decodeReqw_pack]
  cases reqOpOf s.pins.reqOp <;> rfl

/-- A step at which a request is taken. -/
theorem step_taken {s : State} (hv : s.pins.reqValid = true) (hr : s.reqReady = true) :
    step s = .next (acceptEdge s.portOp s.pins.reqLen s.pins.reqAddr s) := by
  rw [step, if_pos hv, exec_fetch, offer_ready hr]

/-- A step at which no request is taken: none is offered, or the port is not ready. -/
theorem step_untaken {s : State} (h : s.pins.reqValid = true → s.reqReady = false) :
    step s = .next (clockEdge s) := by
  unfold step
  split
  · rw [exec_fetch, offer_waits (h ‹_›)]
  · rfl

/-- Everything a step can do: it takes the request at the port, or the edge runs without one. -/
theorem step_cases (s : State) :
    (s.pins.reqValid = true ∧ s.reqReady = true ∧
      step s = .next (acceptEdge s.portOp s.pins.reqLen s.pins.reqAddr s)) ∨
    ((s.pins.reqValid = true → s.reqReady = false) ∧ step s = .next (clockEdge s)) := by
  by_cases hv : s.pins.reqValid = true
  · by_cases hr : s.reqReady = true
    · exact .inl ⟨hv, hr, step_taken hv hr⟩
    · have h : s.pins.reqValid = true → s.reqReady = false := fun _ => by simpa using hr
      exact .inr ⟨h, step_untaken h⟩
  · have h : s.pins.reqValid = true → s.reqReady = false := fun h => absurd h hv
    exact .inr ⟨h, step_untaken h⟩

/-- In a busy phase no request is taken. -/
theorem step_busy {s : State} (h : s.phase ≠ .idle) : step s = .next (clockEdge s) :=
  step_untaken fun _ => by simp [State.reqReady, h]

/-! ### The rule that applies at an edge (R106) -/

theorem clockEdge_reset {s : State} (h : s.pins.rst = true) : clockEdge s = (resetEdge s).advance := by
  simp [clockEdge, edgeRule, h]

theorem clockEdge_abort {s : State} (hr : s.pins.rst = false) (hp : s.phase.abortable = true)
    (hf : s.pins.busFault = true) : clockEdge s = (abortEdge s).advance := by
  simp [clockEdge, edgeRule, hr, hp, hf]

theorem clockEdge_phase {s : State} (hr : s.pins.rst = false)
    (hf : s.phase.abortable = true → s.pins.busFault = false) : clockEdge s = (phaseEdge s).advance := by
  unfold clockEdge edgeRule
  rw [if_neg (by simp [hr]), if_neg (by simpa using hf)]

/-- Everything an edge without a request can do. -/
theorem clockEdge_cases (s : State) :
    (s.pins.rst = true ∧ clockEdge s = (resetEdge s).advance) ∨
    (s.pins.rst = false ∧ s.phase.abortable = true ∧ s.pins.busFault = true ∧ clockEdge s = (abortEdge s).advance) ∨
    (s.pins.rst = false ∧ (s.phase.abortable = true → s.pins.busFault = false) ∧
      clockEdge s = (phaseEdge s).advance) := by
  cases hr : s.pins.rst
  · by_cases hf : s.phase.abortable = true ∧ s.pins.busFault = true
    · exact .inr (.inl ⟨rfl, hf.1, hf.2, clockEdge_abort hr hf.1 hf.2⟩)
    · have hf' : s.phase.abortable = true → s.pins.busFault = false := by simpa using hf
      exact .inr (.inr ⟨rfl, hf', clockEdge_phase hr hf'⟩)
  · exact .inl ⟨rfl, clockEdge_reset hr⟩

/-- Everything a phase's own rule can do (R107 to R112). -/
theorem phaseEdge_cases (s : State) :
    (s.phase = .idle ∧ phaseEdge s = idleEdge s) ∨
    ((s.phase = .setup ∨ s.phase = .shiftLo) ∧ s.cnt = 0 ∧ phaseEdge s = rise s) ∨
    ((s.phase = .setup ∨ s.phase = .shiftLo ∨ s.phase = .shiftHi ∨ s.phase = .hold) ∧ s.cnt ≠ 0 ∧
      phaseEdge s = countDown s) ∨
    (s.phase = .shiftHi ∧ s.cnt = 0 ∧ s.bitIdx = 0 ∧ s.byteIdx.val = s.frameLen.toNat - 1 ∧
      phaseEdge s = fallToHold s) ∨
    (s.phase = .shiftHi ∧ s.cnt = 0 ∧ s.bitIdx = 0 ∧ s.byteIdx.val ≠ s.frameLen.toNat - 1 ∧
      phaseEdge s = fallToNextByte s) ∨
    (s.phase = .shiftHi ∧ s.cnt = 0 ∧ s.bitIdx ≠ 0 ∧ phaseEdge s = fallToNextBit s) ∨
    (s.phase = .hold ∧ s.cnt = 0 ∧ s.faultL = true ∧ phaseEdge s = release (completeTransportError s)) ∨
    (s.phase = .hold ∧ s.cnt = 0 ∧ s.faultL = false ∧ phaseEdge s = release (completeOK s)) ∨
    (s.phase = .gap ∧ s.cnt = 0 ∧ phaseEdge s = gapEnd s) ∨
    (s.phase = .gap ∧ s.cnt ≠ 0 ∧ phaseEdge s = gapWait s) := by
  cases hp : s.phase <;> by_cases hc : s.cnt = 0 <;> cases hf : s.faultL <;>
    by_cases hb : s.bitIdx = 0 <;> by_cases hk : s.byteIdx.val = s.frameLen.toNat - 1 <;>
    simp [phaseEdge, setupEdge, shiftLoEdge, shiftHiEdge, holdEdge, gapEdge, fall, hp, hc, hf, hb, hk]

/-- Everything an acceptance can do (R107). -/
theorem acceptRule_cases (op : ReqOp) (len : BitVec 6) (addr : Byte) (s : State) :
    (validate op addr len = .ok ∧ acceptRule op len addr s = beginTransaction op len addr s) ∨
    (addrClass addr = .invalid ∧ acceptRule op len addr s = completeError .invalidAddress s) ∨
    (addrClass addr ≠ .invalid ∧ op.isBuf = true ∧ (len.toNat = 0 ∨ 33 ≤ len.toNat) ∧
      acceptRule op len addr s = completeError .invalidLength s) := by
  by_cases ha : addrClass addr = .invalid
  · refine .inr (.inl ⟨ha, ?_⟩)
    simp [acceptRule, validate, ha]
  · by_cases hl : op.isBuf = true ∧ (len.toNat = 0 ∨ 33 ≤ len.toNat)
    · refine .inr (.inr ⟨ha, hl.1, hl.2, ?_⟩)
      have : len.toNat = 0 ∨ 32 < len.toNat := by omega
      simp [acceptRule, validate, ha, hl.1, Config.maxData, this]
    · refine .inl ?_
      have hv : validate op addr len = .ok := by
        rw [validate_eq_ok_iff]
        exact ⟨ha, fun hb => by by_contra h; exact hl ⟨hb, by omega⟩⟩
      exact ⟨hv, by simp [acceptRule, hv]⟩

/-- Everything a step can do, by the priority of R106: a reset, IDLE without a request, a valid request taken, a bad request
completed, an abort, or the rule of a busy phase. -/
theorem step_inversion {s t : State} (h : step s = .next t) :
    (s.pins.rst = true ∧ t = (resetEdge s).advance) ∨
    (s.pins.rst = false ∧ s.phase = .idle ∧ s.pins.reqValid = false ∧ t = (idleEdge s).advance) ∨
    (s.pins.rst = false ∧ s.phase = .idle ∧ s.pins.reqValid = true ∧
      validate s.portOp s.pins.reqAddr s.pins.reqLen = .ok ∧
      t = (beginTransaction s.portOp s.pins.reqLen s.pins.reqAddr s).advance) ∨
    (s.pins.rst = false ∧ s.phase = .idle ∧ s.pins.reqValid = true ∧
      validate s.portOp s.pins.reqAddr s.pins.reqLen ≠ .ok ∧
      ∃ e, (e = .invalidAddress ∨ e = .invalidLength) ∧ t = (completeError e s).advance) ∨
    (s.pins.rst = false ∧ s.phase.abortable = true ∧ s.pins.busFault = true ∧ t = (abortEdge s).advance) ∨
    (s.pins.rst = false ∧ s.phase ≠ .idle ∧ (s.phase.abortable = true → s.pins.busFault = false) ∧
      t = (phaseEdge s).advance) := by
  rcases step_cases s with ⟨hv, hr, he⟩ | ⟨hn, he⟩
  · rw [he] at h; cases h
    rw [reqReady_iff] at hr
    rcases acceptRule_cases s.portOp s.pins.reqLen s.pins.reqAddr s with ⟨h, e⟩ | ⟨h, e⟩ | ⟨h, h', h'', e⟩
    · exact .inr (.inr (.inl ⟨hr.2, hr.1, hv, h, by rw [acceptEdge, e]⟩))
    · refine .inr (.inr (.inr (.inl ⟨hr.2, hr.1, hv, fun hk => ?_, _, .inl rfl, by rw [acceptEdge, e]⟩)))
      exact ((validate_eq_ok_iff _ _ _).1 hk).1 h
    · refine .inr (.inr (.inr (.inl ⟨hr.2, hr.1, hv, fun hk => ?_, _, .inr rfl, by rw [acceptEdge, e]⟩)))
      have := ((validate_eq_ok_iff _ _ _).1 hk).2 h'
      omega
  · rw [he] at h; cases h
    rcases clockEdge_cases s with ⟨h, e⟩ | ⟨h, h', h'', e⟩ | ⟨h, h', e⟩
    · exact .inl ⟨h, e⟩
    · exact .inr (.inr (.inr (.inr (.inl ⟨h, h', h'', e⟩))))
    · by_cases hp : s.phase = .idle
      · refine .inr (.inl ⟨h, hp, ?_, by rw [e]; simp [phaseEdge, hp]⟩)
        by_contra hv
        have := hn (by simpa using hv)
        simp [State.reqReady, hp, h] at this
      · exact .inr (.inr (.inr (.inr (.inr ⟨h, hp, h', e⟩))))

end Sys2Proof.Machine
end

