-- ==== Sys2Proof/Laws/PerInstr.lean ====
section
/-! SUPPORT. One lemma for each constructor: the word an instruction encodes to has the fixed bits of its row in
spec/opcode_table.json, and nothing outside its width. -/

namespace Sys2Proof.Laws.EncodesInRow

/-- `mask` and `match` of the instruction's row, and its width in bits (spec/opcode_table.json). -/
def row : Instr → Nat × Nat × Nat
  | .rRegister _ => (8, 0xE0, 0x0)
  | .wRegister _ => (8, 0xE0, 0x20)
  | .rRxPayload => (8, 0xFF, 0x61)
  | .wTxPayload => (8, 0xFF, 0xA0)
  | .flushTx => (8, 0xFF, 0xE1)
  | .flushRx => (8, 0xFF, 0xE2)
  | .reuseTxPl => (8, 0xFF, 0xE3)
  | .nop => (8, 0xFF, 0xFF)
  | .readReg _ _ => (16, 0xC000, 0x0)
  | .readBuf _ _ => (16, 0xC000, 0x4000)
  | .writeReg _ _ => (16, 0xC000, 0x8000)
  | .writeBuf _ _ => (16, 0xC000, 0xC000)

/-- The number of the encoded word, bit 0 the least significant. -/
def number : Encoded → Nat
  | .opc8 b => b.toNat
  | .reqw w => w.toNat

/-- The encoded word is a word of its row. -/
def Statement (i : Instr) : Prop :=
  number (encode i) &&& (row i).2.1 = (row i).2.2 ∧ tableWord (row i).1 (number (encode i)) = some (encode i)

/-- The top two bits of a request descriptor are its operation. -/
theorem reqw_row (op : BitVec 2) (len : BitVec 6) (addr : Byte) :
    (packReqw op len addr).toNat &&& 0xC000 = op.toNat * 0x4000 ∧
      tableWord 16 (packReqw op len addr).toNat = some (.reqw (packReqw op len addr)) := by
  refine ⟨?_, ?_⟩
  · apply Nat.eq_of_testBit_eq
    intro j
    have hmask : (0xC000 : Nat).testBit j = (decide (14 ≤ j) && (3 : Nat).testBit (j - 14)) := by
      rw [show (0xC000 : Nat) = 3 * 2 ^ 14 by decide, Nat.testBit_mul_two_pow]
    rw [Nat.testBit_and, hmask, show (0x4000 : Nat) = 2 ^ 14 by decide, Nat.testBit_mul_two_pow, BitVec.testBit_toNat,
      BitVec.testBit_toNat, packReqw_bit]
    by_cases hj : 14 ≤ j
    · rw [if_neg (by omega), if_neg (by omega), show j - 8 - 6 = j - 14 by omega]
      by_cases hk : j - 14 < 2
      · have : j - 14 = 0 ∨ j - 14 = 1 := by omega
        have h3 : (3 : Nat).testBit 1 = true := by decide
        rcases this with h | h <;> rw [h] <;> simp [hj, h3]
      · rw [BitVec.getLsbD_of_ge _ _ (by omega)]; simp
    · simp [hj]
  · have h := (packReqw op len addr).isLt
    rw [tableWord, if_neg (by omega), if_pos ⟨rfl, h⟩, BitVec.ofNat_toNat, BitVec.setWidth_eq]

theorem rRegister (a : BitVec 5) : Statement (.rRegister a) := by
  revert a; unfold Statement; decide

theorem wRegister (a : BitVec 5) : Statement (.wRegister a) := by
  revert a; unfold Statement; decide

theorem rRxPayload : Statement .rRxPayload := by
  unfold Statement; decide

theorem wTxPayload : Statement .wTxPayload := by
  unfold Statement; decide

theorem flushTx : Statement .flushTx := by
  unfold Statement; decide

theorem flushRx : Statement .flushRx := by
  unfold Statement; decide

theorem reuseTxPl : Statement .reuseTxPl := by
  unfold Statement; decide

theorem nop : Statement .nop := by
  unfold Statement; decide

theorem readReg (len : BitVec 6) (addr : Byte) : Statement (.readReg len addr) := reqw_row _ len addr

theorem readBuf (len : BitVec 6) (addr : Byte) : Statement (.readBuf len addr) := reqw_row _ len addr

theorem writeReg (len : BitVec 6) (addr : Byte) : Statement (.writeReg len addr) := reqw_row _ len addr

theorem writeBuf (len : BitVec 6) (addr : Byte) : Statement (.writeBuf len addr) := reqw_row _ len addr

end Sys2Proof.Laws.EncodesInRow
end

