-- ==== Sys2Proof/Laws/Run.lean ====
section
/-! SUPPORT. Runs: every run answers a next state, the timed phases count down, and a transaction walks from one rising SCK edge to
the next. -/

namespace Sys2Proof.Machine

/-! ### Runs -/

/-- The state a step answers: there always is one. -/
def stepState (s : State) : State :=
  if s.pins.reqValid = true ∧ s.reqReady = true then acceptEdge s.portOp s.pins.reqLen s.pins.reqAddr s else clockEdge s

theorem step_eq (s : State) : step s = .next (stepState s) := by
  unfold stepState
  split
  next h => exact step_taken h.1 h.2
  next h =>
    refine step_untaken fun hv => ?_
    by_contra hr
    exact h ⟨hv, by simpa using hr⟩

theorem stepState_busy {s : State} (h : s.phase ≠ .idle) : stepState s = clockEdge s := by
  simp [stepState, State.reqReady, h]

/-- The state `k` steps later. -/
def after (s : State) : Nat → State
  | 0 => s
  | k + 1 => after (stepState s) k

@[simp] theorem after_zero (s : State) : after s 0 = s := rfl

theorem after_succ (s : State) (k : Nat) : after s (k + 1) = after (stepState s) k := rfl

/-- A run answers a next state, whatever the state and the length. -/
theorem run_eq (s : State) (k : Nat) : runEdges k s = .next (after s k) := by
  induction k generalizing s with
  | zero => rfl
  | succ k ih => rw [runEdges, step_eq]; exact ih _

theorem after_add (s : State) (m n : Nat) : after s (m + n) = after (after s m) n := by
  induction m generalizing s with
  | zero => simp
  | succ m ih => rw [show m + 1 + n = (m + n) + 1 by omega, after_succ, after_succ, ih]

theorem after_succ' (s : State) (k : Nat) : after s (k + 1) = stepState (after s k) := by
  rw [after_add]; rfl

@[simp] theorem stepState_build (s : State) : (stepState s).build = s.build := by
  unfold stepState; split <;> simp

@[simp] theorem after_build (s : State) (k : Nat) : (after s k).build = s.build := by
  induction k generalizing s with
  | zero => rfl
  | succ k ih => rw [after_succ, ih, stepState_build]

@[simp] theorem stepState_pinsAfter (s : State) (n : Nat) : (stepState s).pinsAfter n = s.pinsAfter (n + 1) := by
  unfold stepState; split <;> simp

@[simp] theorem after_pinsAfter (s : State) (k n : Nat) : (after s k).pinsAfter n = s.pinsAfter (n + k) := by
  induction k generalizing s with
  | zero => rfl
  | succ k ih => rw [after_succ, ih, stepState_pinsAfter, Nat.add_assoc]

/-! ### The timed phases -/

/-- `m` cycles of a counting phase: `cnt` has fallen by `m` and no other register has moved. -/
def waited (t : State) (m : Nat) : State :=
  { t with cnt := t.cnt - m, inputs := t.inputs.drop m, tick := t.tick + m }

/-- While `cnt` is not 0, no reset comes, and no fault in a phase it could abort, SETUP, SHIFT_HI, SHIFT_LO and HOLD only count. -/
theorem after_counting {t : State} {m : Nat} (hm : m ≤ t.cnt)
    (hp : t.phase = .setup ∨ t.phase = .shiftLo ∨ t.phase = .shiftHi ∨ t.phase = .hold)
    (hr : ∀ i < m, (t.pinsAfter i).rst = false)
    (hf : ∀ i < m, t.phase.abortable = true → (t.pinsAfter i).busFault = false) :
    after t m = waited t m := by
  induction m with
  | zero => simp [waited]
  | succ m ih =>
    have h := ih (by omega) (fun i hi => hr i (by omega)) (fun i hi => hf i (by omega))
    rw [after_succ', h]
    have hpins : ∀ n, (waited t m).pinsAfter n = t.pinsAfter (n + m) := by
      intro n; rw [← h, after_pinsAfter]
    have hbusy : (waited t m).phase ≠ .idle := by
      rcases hp with hp | hp | hp | hp <;> simp [waited, hp]
    have hr' : (waited t m).pins.rst = false := by
      have := hr m (by omega); simpa [State.pins, hpins] using this
    have hf' : (waited t m).phase.abortable = true → (waited t m).pins.busFault = false := fun ha => by
      have := hf m (by omega) ha; simpa [State.pins, hpins] using this
    rw [stepState_busy hbusy, clockEdge_phase hr' hf']
    have hc : (waited t m).cnt ≠ 0 := by simp [waited]; omega
    have : phaseEdge (waited t m) = countDown (waited t m) := by
      rcases hp with hp | hp | hp | hp <;>
        simp [phaseEdge, setupEdge, shiftLoEdge, shiftHiEdge, holdEdge, waited, hp] <;> omega
    rw [this]
    simp [waited, countDown, State.advance]
    omega

/-- GAP counts down too, with `done` low after its first cycle, and nothing but a reset disturbs it. -/
theorem after_gap {t : State} {m : Nat} (hm : m ≤ t.cnt) (hp : t.phase = .gap)
    (hr : ∀ i < m, (t.pinsAfter i).rst = false) :
    after t m = { waited t m with doneR := if m = 0 then t.doneR else false } := by
  induction m with
  | zero => simp [waited]
  | succ m ih =>
    have h := ih (by omega) (fun i hi => hr i (by omega))
    rw [after_succ']
    have hpins : ∀ n, (after t m).pinsAfter n = t.pinsAfter (n + m) := fun n => after_pinsAfter t m n
    have hph : (after t m).phase = .gap := by rw [h]; exact hp
    have hr' : (after t m).pins.rst = false := by
      have := hr m (by omega); simpa [State.pins, hpins] using this
    rw [stepState_busy (by simp [hph]), clockEdge_phase hr' (by simp [hph, Phase.abortable])]
    have hc : (after t m).cnt = t.cnt - m := by rw [h]; simp [waited]
    have : phaseEdge (after t m) = gapWait (after t m) := by
      rw [phaseEdge, hph]
      show gapEdge _ = _
      rw [gapEdge, if_neg (by omega)]
    rw [this, h]
    simp [waited, gapWait, State.advance]
    omega

/-! ### The shift register -/

theorem shiftIn_bit (sh : Byte) (b : Bool) (j : Nat) (hj : j < 8) :
    (shiftIn sh b).getLsbD j = if j = 0 then b else sh.getLsbD (j - 1) := by
  have h := BitVec.getLsbD_append (x := sh.extractLsb' 0 7) (y := BitVec.ofBool b) (i := j)
  refine h.trans ?_
  by_cases hj0 : j = 0
  · subst hj0; simp
  · rw [if_neg (by omega), if_neg hj0, BitVec.getLsbD_extractLsb']
    simp; omega

end Sys2Proof.Machine
end

