-- ==== Sys2Proof/Laws/Transaction.lean ====
section
/-! SUPPORT. The walk of a transaction: from the acceptance, bit by bit, to the release of chip-select and the next IDLE (R115 to
R117). Each lemma is one leg of the schedule. -/

namespace Sys2Proof.Machine

/-! ### What stands still over a frame -/

/-- `t` is in the frame `F` that the request `op`, `addr` began in `s`, at bit `n`, with `m` bits of the current byte sampled, while
the device returns `M`. -/
structure OnBit (s : State) (F : List Byte) (r : Nat) (op : ReqOp) (addr : Byte) (M : Nat → Byte) (n m : Nat) (t : State) :
    Prop where
  txFrame : t.txFrame = loadFrame F
  frameLen : t.frameLen = BitVec.ofNat 6 F.length
  nrxL : t.nrxL = BitVec.ofNat 6 r
  opL : t.opL = op
  addrL : t.addrL = addr
  faultL : t.faultL = false
  csnR : t.csnR = false
  doneR : t.doneR = false
  build : t.build = s.build
  response : t.response = s.response
  byteIdx : t.byteIdx.val = n / 8
  bitIdx : t.bitIdx.val = 7 - n % 8
  mosiR : t.mosiR = frameBit F n
  rxFrame : ∀ k : Fin 33, k.val < n / 8 → t.rxFrame.get k = M k.val
  rxSh : ∀ j < m, t.rxSh.getLsbD j = (M (n / 8)).getLsbD (8 - m + j)

section

variable {s t : State} {F : List Byte} {r : Nat} {op : ReqOp} {addr : Byte} {M : Nat → Byte} {n m : Nat}

theorem OnBit.waited (h : OnBit s F r op addr M n m t) (d : Nat) :
    OnBit s F r op addr M n m (Machine.waited t d) :=
  ⟨h.txFrame, h.frameLen, h.nrxL, h.opL, h.addrL, h.faultL, h.csnR, h.doneR, h.build, h.response, h.byteIdx, h.bitIdx,
    h.mosiR, h.rxFrame, h.rxSh⟩

theorem OnBit.advance (h : OnBit s F r op addr M n m t) : OnBit s F r op addr M n m t.advance :=
  ⟨h.txFrame, h.frameLen, h.nrxL, h.opL, h.addrL, h.faultL, h.csnR, h.doneR, h.build, h.response, h.byteIdx, h.bitIdx,
    h.mosiR, h.rxFrame, h.rxSh⟩

/-- The acceptance puts the block on bit 0. -/
theorem onBit_load : OnBit s F r op addr M 0 0 (loadTransaction F r op addr s) where
  txFrame := rfl
  frameLen := rfl
  nrxL := rfl
  opL := rfl
  addrL := rfl
  faultL := rfl
  csnR := rfl
  doneR := rfl
  build := rfl
  response := rfl
  byteIdx := rfl
  bitIdx := rfl
  mosiR := rfl
  rxFrame := fun k hk => absurd hk (by omega)
  rxSh := fun j hj => absurd hj (by omega)

/-- A rising SCK samples the bit the device presents. -/
theorem OnBit.rise (h : OnBit s F r op addr M n (n % 8) t) (hm : t.pins.miso = (M (n / 8)).getLsbD (7 - n % 8)) :
    OnBit s F r op addr M n (n % 8 + 1) (Machine.rise t) where
  txFrame := h.txFrame
  frameLen := h.frameLen
  nrxL := h.nrxL
  opL := h.opL
  addrL := h.addrL
  faultL := h.faultL
  csnR := h.csnR
  doneR := h.doneR
  build := h.build
  response := h.response
  byteIdx := h.byteIdx
  bitIdx := h.bitIdx
  mosiR := h.mosiR
  rxFrame := h.rxFrame
  rxSh := fun j hj => by
    rw [rise_rxSh, shiftIn_bit _ _ _ (by omega)]
    by_cases hj0 : j = 0
    · subst hj0
      rw [if_pos rfl, hm]
      congr 1; omega
    · rw [if_neg hj0, h.rxSh _ (by omega)]
      congr 1; omega

/-- Eight samples make the byte. -/
theorem OnBit.rxSh_eq (h : OnBit s F r op addr M n 8 t) : t.rxSh = M (n / 8) := by
  apply BitVec.eq_of_getLsbD_eq
  intro j hj
  rw [h.rxSh j hj]; congr 1; omega

/-- At a byte's last fall, the byte is stored. -/
theorem OnBit.store (h : OnBit s F r op addr M n 8 t) (k : Fin 33) (hk : k.val < n / 8 + 1) :
    (t.rxFrame.set t.byteIdx.val t.rxSh t.byteIdx.isLt).get k = M k.val := by
  show (t.rxFrame.set t.byteIdx.val t.rxSh t.byteIdx.isLt)[k.val] = _
  rw [Vector.getElem_set]
  split
  next he => rw [h.rxSh_eq, ← he, h.byteIdx]
  next he =>
    have := h.byteIdx
    exact h.rxFrame k (by omega)

/-- A fall inside a byte puts the block on the next bit. -/
theorem OnBit.fallToNextBit (h : OnBit s F r op addr M n (n % 8 + 1) t) (hn : n % 8 ≠ 7) :
    OnBit s F r op addr M (n + 1) ((n + 1) % 8) (Machine.fallToNextBit t) where
  txFrame := h.txFrame
  frameLen := h.frameLen
  nrxL := h.nrxL
  opL := h.opL
  addrL := h.addrL
  faultL := h.faultL
  csnR := h.csnR
  doneR := h.doneR
  build := h.build
  response := h.response
  byteIdx := by rw [fallToNextBit_byteIdx, h.byteIdx]; omega
  bitIdx := by
    have := h.bitIdx
    rw [fallToNextBit_bitIdx, Fin.sub_val_of_le (by rw [Fin.le_def]; simp; omega)]
    simp; omega
  mosiR := by
    have hb := h.bitIdx
    rw [fallToNextBit_mosiR, h.txFrame, loadFrame_get, frameBit, h.byteIdx,
      Fin.sub_val_of_le (by rw [Fin.le_def]; simp; omega), h.bitIdx]
    rw [show (n + 1) / 8 = n / 8 by omega, show 7 - (n + 1) % 8 = 7 - n % 8 - ((1 : Fin 8) : Nat) by simp; omega]
  rxFrame := fun k hk => h.rxFrame k (by omega)
  rxSh := fun j hj => by
    rw [fallToNextBit_rxSh, h.rxSh j (by omega), show (n + 1) / 8 = n / 8 by omega,
      show (n + 1) % 8 = n % 8 + 1 by omega]

/-- The fall at the end of a byte puts the block on the first bit of the next. -/
theorem OnBit.fallToNextByte (h : OnBit s F r op addr M n 8 t) (hn : n % 8 = 7) (hN : (n + 1) / 8 < 33) :
    OnBit s F r op addr M (n + 1) ((n + 1) % 8) (Machine.fallToNextByte t) where
  txFrame := h.txFrame
  frameLen := h.frameLen
  nrxL := h.nrxL
  opL := h.opL
  addrL := h.addrL
  faultL := h.faultL
  csnR := h.csnR
  doneR := h.doneR
  build := h.build
  response := h.response
  byteIdx := by
    have := h.byteIdx
    rw [fallToNextByte_byteIdx, Fin.val_add_one_of_lt (by rw [Fin.lt_def]; simp; omega)]
    omega
  bitIdx := by rw [fallToNextByte_bitIdx]; simp; omega
  mosiR := by
    have := h.byteIdx
    rw [fallToNextByte_mosiR, h.txFrame, loadFrame_get, frameBit,
      Fin.val_add_one_of_lt (by rw [Fin.lt_def]; simp; omega), h.byteIdx,
      show (n + 1) / 8 = n / 8 + 1 by omega, show (n + 1) % 8 = 0 by omega]
  rxFrame := fun k hk => by
    rw [fallToNextByte_rxFrame]; exact h.store k (by omega)
  rxSh := fun j hj => absurd hj (by omega)

end

/-! ### The legs of the schedule -/

/-- The state in cycle `e` of the transaction that began in `s`: cycle 0 starts at the acceptance edge. -/
def cycle (s : State) (F : List Byte) (r : Nat) (op : ReqOp) (addr : Byte) (e : Nat) : State :=
  after (loadTransaction F r op addr s).advance e

section

variable {s : State} {F : List Byte} {r : Nat} {op : ReqOp} {addr : Byte} {M : Nat → Byte}

@[simp] theorem cycle_pinsAfter (e k : Nat) : (cycle s F r op addr e).pinsAfter k = s.pinsAfter (k + e + 1) := by
  rw [cycle, after_pinsAfter, pinsAfter_advance]
  exact pinsAfter_congr rfl rfl _

@[simp] theorem cycle_pins (e : Nat) : (cycle s F r op addr e).pins = s.pinsAfter (e + 1) := by
  rw [State.pins, cycle_pinsAfter, Nat.zero_add]

theorem cycle_succ (e : Nat) : cycle s F r op addr (e + 1) = stepState (cycle s F r op addr e) := after_succ' _ e

/-- A counting phase only counts. -/
theorem cycle_counting {e d : Nat} (hd : d ≤ (cycle s F r op addr e).cnt)
    (hp : (cycle s F r op addr e).phase = .setup ∨ (cycle s F r op addr e).phase = .shiftLo ∨
      (cycle s F r op addr e).phase = .shiftHi ∨ (cycle s F r op addr e).phase = .hold)
    (hq : s.quiet (e + d)) :
    cycle s F r op addr (e + d) = waited (cycle s F r op addr e) d := by
  have h : cycle s F r op addr (e + d) = after (cycle s F r op addr e) d := after_add _ e d
  rw [h]
  refine after_counting hd hp ?_ ?_
  · intro i hi; rw [cycle_pinsAfter]; exact (hq _ (by omega) (by omega)).1
  · intro i hi _; rw [cycle_pinsAfter]; exact (hq _ (by omega) (by omega)).2

/-- The next edge of a busy cycle with quiet inputs is the phase's own rule. -/
theorem cycle_edge {e : Nat} (hp : (cycle s F r op addr e).phase ≠ .idle) (hq : s.quiet (e + 1)) :
    cycle s F r op addr (e + 1) = (phaseEdge (cycle s F r op addr e)).advance := by
  have h := hq (e + 1) (by omega) (by omega)
  rw [cycle_succ, stepState_busy hp, clockEdge_phase (by rw [cycle_pins]; exact h.1)
    (fun _ => by rw [cycle_pins]; exact h.2)]

/-- Between two rising edges of SCK, or before the first, with SCK low and bit `n` on MOSI. -/
structure Low (s : State) (F : List Byte) (r : Nat) (op : ReqOp) (addr : Byte) (M : Nat → Byte) (n : Nat) (t : State) :
    Prop where
  on : OnBit s F r op addr M n (n % 8) t
  phase : t.phase = .setup ∨ t.phase = .shiftLo
  sckR : t.sckR = false

/-- SCK is high over bit `n`, which has been sampled. -/
structure High (s : State) (F : List Byte) (r : Nat) (op : ReqOp) (addr : Byte) (M : Nat → Byte) (n : Nat) (t : State) :
    Prop where
  on : OnBit s F r op addr M n (n % 8 + 1) t
  phase : t.phase = .shiftHi
  sckR : t.sckR = true

theorem Low.waited {n : Nat} {t : State} (h : Low s F r op addr M n t) (d : Nat) :
    Low s F r op addr M n (Machine.waited t d) := ⟨h.on.waited d, h.phase, h.sckR⟩

theorem High.waited {n : Nat} {t : State} (h : High s F r op addr M n t) (d : Nat) :
    High s F r op addr M n (Machine.waited t d) := ⟨h.on.waited d, h.phase, h.sckR⟩

/-- Every cycle of a low half period, from its first cycle `e` on, given what `cnt` holds there. -/
theorem low_leg {n e d : Nat} (h : Low s F r op addr M n (cycle s F r op addr e))
    (hd : d ≤ (cycle s F r op addr e).cnt) (hq : s.quiet (e + d)) :
    Low s F r op addr M n (cycle s F r op addr (e + d)) ∧
      (cycle s F r op addr (e + d)).cnt = (cycle s F r op addr e).cnt - d := by
  have hp : (cycle s F r op addr e).phase = .setup ∨ (cycle s F r op addr e).phase = .shiftLo ∨
      (cycle s F r op addr e).phase = .shiftHi ∨ (cycle s F r op addr e).phase = .hold := by
    rcases h.phase with hp | hp <;> simp [hp]
  rw [cycle_counting hd hp hq]
  exact ⟨h.waited d, rfl⟩

/-- Every cycle of a high half period, likewise. -/
theorem high_leg {n e d : Nat} (h : High s F r op addr M n (cycle s F r op addr e))
    (hd : d ≤ (cycle s F r op addr e).cnt) (hq : s.quiet (e + d)) :
    High s F r op addr M n (cycle s F r op addr (e + d)) ∧
      (cycle s F r op addr (e + d)).cnt = (cycle s F r op addr e).cnt - d := by
  rw [cycle_counting hd (by simp [h.phase]) hq]
  exact ⟨h.waited d, rfl⟩

/-- The edge that ends a low half period is the rising SCK that samples bit `n`. -/
theorem high_of_low {n e : Nat} (h : Low s F r op addr M n (cycle s F r op addr e))
    (hc : (cycle s F r op addr e).cnt = 0) (hq : s.quiet (e + 1))
    (hm : (s.pinsAfter (e + 1)).miso = (M (n / 8)).getLsbD (7 - n % 8)) :
    High s F r op addr M n (cycle s F r op addr (e + 1)) ∧
      (cycle s F r op addr (e + 1)).cnt = reload s.build.sckDiv := by
  have hp : phaseEdge (cycle s F r op addr e) = Machine.rise (cycle s F r op addr e) := by
    rcases h.phase with hp | hp <;> simp [phaseEdge, setupEdge, shiftLoEdge, hp, hc]
  rw [cycle_edge (by rcases h.phase with hp | hp <;> simp [hp]) hq, hp]
  exact ⟨⟨(h.on.rise (by rw [cycle_pins]; exact hm)).advance, rfl, rfl⟩, by simp [h.on.build]⟩

/-- The edge that ends a high half period is the falling SCK that puts the next bit on MOSI. -/
theorem low_of_high {n e : Nat} (h : High s F r op addr M n (cycle s F r op addr e))
    (hc : (cycle s F r op addr e).cnt = 0) (hq : s.quiet (e + 1)) (hF : F.length ≤ 33) (hn : n + 1 < 8 * F.length) :
    Low s F r op addr M (n + 1) (cycle s F r op addr (e + 1)) ∧
      (cycle s F r op addr (e + 1)).cnt = reload s.build.sckDiv := by
  have hbit := h.on.bitIdx
  have hbyte := h.on.byteIdx
  have hlen : (cycle s F r op addr e).frameLen.toNat = F.length := by
    rw [h.on.frameLen, BitVec.toNat_ofNat]; omega
  rw [cycle_edge (by simp [h.phase]) hq]
  by_cases h7 : n % 8 = 7
  · have hb : (cycle s F r op addr e).bitIdx = 0 := Fin.ext (by simp; omega)
    have hp : phaseEdge (cycle s F r op addr e) = Machine.fallToNextByte (cycle s F r op addr e) := by
      simp only [phaseEdge, h.phase, shiftHiEdge, hc, fall, hb, if_true]
      rw [if_neg (by omega)]
    rw [hp]
    have hon := h.on
    rw [h7] at hon
    exact ⟨⟨(hon.fallToNextByte h7 (by omega)).advance, .inr rfl, rfl⟩, by simp [h.on.build]⟩
  · have hb : (cycle s F r op addr e).bitIdx ≠ 0 := fun hb => by
      rw [hb] at hbit; simp at hbit; omega
    have hp : phaseEdge (cycle s F r op addr e) = Machine.fallToNextBit (cycle s F r op addr e) := by
      simp only [phaseEdge, h.phase, shiftHiEdge, hc, fall, hb, if_true, if_false]
    rw [hp]
    exact ⟨⟨(h.on.fallToNextBit h7).advance, .inr rfl, rfl⟩, by simp [h.on.build]⟩

/-- After the last bit's fall: every byte received, chip-select still asserted. -/
structure Held (s : State) (F : List Byte) (r : Nat) (op : ReqOp) (addr : Byte) (M : Nat → Byte) (t : State) : Prop where
  phase : t.phase = .hold
  csnR : t.csnR = false
  sckR : t.sckR = false
  doneR : t.doneR = false
  faultL : t.faultL = false
  mosiR : t.mosiR = frameBit F (8 * F.length - 1)
  nrxL : t.nrxL = BitVec.ofNat 6 r
  opL : t.opL = op
  addrL : t.addrL = addr
  build : t.build = s.build
  response : t.response = s.response
  rxFrame : ∀ k : Fin 33, k.val < F.length → t.rxFrame.get k = M k.val

/-- The edge that ends the last high half period is the last falling SCK. -/
theorem held_of_high {n e : Nat} (h : High s F r op addr M n (cycle s F r op addr e))
    (hc : (cycle s F r op addr e).cnt = 0) (hq : s.quiet (e + 1)) (_hF : F.length ≤ 33) (hn : n + 1 = 8 * F.length) :
    Held s F r op addr M (cycle s F r op addr (e + 1)) ∧
      (cycle s F r op addr (e + 1)).cnt = reload s.build.tHold := by
  have hbit := h.on.bitIdx
  have hbyte := h.on.byteIdx
  have h7 : n % 8 = 7 := by omega
  have hlen : (cycle s F r op addr e).frameLen.toNat = F.length := by
    rw [h.on.frameLen, BitVec.toNat_ofNat]; omega
  have hb : (cycle s F r op addr e).bitIdx = 0 := Fin.ext (by simp; omega)
  have hp : phaseEdge (cycle s F r op addr e) = Machine.fallToHold (cycle s F r op addr e) := by
    simp only [phaseEdge, h.phase, shiftHiEdge, hc, fall, hb, if_true]
    rw [if_pos (by omega)]
  have hon := h.on
  rw [h7] at hon
  rw [cycle_edge (by simp [h.phase]) hq, hp]
  refine ⟨⟨rfl, hon.csnR, rfl, hon.doneR, hon.faultL, ?_, hon.nrxL, hon.opL, hon.addrL, hon.build, hon.response, ?_⟩,
    by simp [hon.build]⟩
  · rw [show 8 * F.length - 1 = n by omega]; exact hon.mosiR
  · intro k hk; exact hon.store k (by omega)

theorem Held.waited {t : State} (h : Held s F r op addr M t) (d : Nat) : Held s F r op addr M (Machine.waited t d) :=
  ⟨h.phase, h.csnR, h.sckR, h.doneR, h.faultL, h.mosiR, h.nrxL, h.opL, h.addrL, h.build, h.response, h.rxFrame⟩

/-- Every cycle of HOLD. -/
theorem held_leg {e d : Nat} (h : Held s F r op addr M (cycle s F r op addr e))
    (hd : d ≤ (cycle s F r op addr e).cnt) (hq : s.quiet (e + d)) :
    Held s F r op addr M (cycle s F r op addr (e + d)) ∧
      (cycle s F r op addr (e + d)).cnt = (cycle s F r op addr e).cnt - d := by
  rw [cycle_counting hd (by simp [h.phase]) hq]
  exact ⟨h.waited d, rfl⟩

/-- After the release: GAP, with the response of the frame. -/
structure Gapped (s : State) (r : Nat) (op : ReqOp) (addr : Byte) (M : Nat → Byte) (t : State) : Prop where
  phase : t.phase = .gap
  csnR : t.csnR = true
  sckR : t.sckR = false
  mosiR : t.mosiR = false
  response : t.response = s.response.succeed op addr r M

/-- The response registers `CompleteOK` writes are the response of the frame (R116). -/
theorem completeOK_response {t : State} (h : Held s F r op addr M t) (hF : r + 1 ≤ F.length ∨ r = 0) (h1 : 1 ≤ F.length)
    (h33 : F.length ≤ 33) : (completeOK t).response = s.response.succeed op addr r M := by
  have hr : r < 2 ^ 6 := by omega
  have hr' : (BitVec.ofNat 6 r).toNat = r := by rw [BitVec.toNat_ofNat]; omega
  have hM : ∀ i : Nat, i < r → (hi : i < 32) → t.rxFrame.get (Fin.succ ⟨i, hi⟩) = M (i + 1) := fun i hi hi' =>
    h.rxFrame _ (by simp; omega)
  have h0 : t.rxFrame.get 0 = M 0 := h.rxFrame 0 (by simp; omega)
  have hresp := h.response
  have hfv : t.fifoValid = s.fifoValid := congrArg Response.fifoValid hresp
  have hfe : t.fifoRxEmpty = s.fifoRxEmpty := congrArg Response.fifoRxEmpty hresp
  simp only [State.response, Response.succeed, Response.mk.injEq, completeOK_rspErr, completeOK_rspStatus,
    completeOK_rspRdata, completeOK_rspNrx, completeOK_stValid, completeOK_stRxDr, completeOK_stTxDs, completeOK_stMaxRt,
    completeOK_fifoValid, completeOK_fifoRxEmpty, h0, h.nrxL, hr', h.opL, h.addrL, hfv, hfe, true_and]
  refine ⟨?_, ?_⟩
  · apply Vector.ext
    intro i hi
    simp only [readData, Vector.getElem_ofFn]
    split
    next hlt => exact hM i hlt hi
    next => rfl
  · by_cases hd : decodesFifo op addr r = true
    · have : 1 ≤ r := by simp [decodesFifo] at hd; omega
      have h1' : t.rxFrame.get 1 = M 1 := h.rxFrame 1 (by simp; omega)
      simp [hd, h1']
    · simp [hd]

/-- The edge that ends HOLD releases chip-select and completes the request. -/
theorem gapped_of_held {e : Nat} (h : Held s F r op addr M (cycle s F r op addr e))
    (hc : (cycle s F r op addr e).cnt = 0) (hq : s.quiet (e + 1)) (hF : r + 1 ≤ F.length ∨ r = 0) (h1 : 1 ≤ F.length)
    (h33 : F.length ≤ 33) :
    Gapped s r op addr M (cycle s F r op addr (e + 1)) ∧ (cycle s F r op addr (e + 1)).doneR = true ∧
      (cycle s F r op addr (e + 1)).cnt = reload s.build.tIdle := by
  have hp : phaseEdge (cycle s F r op addr e) = release (completeOK (cycle s F r op addr e)) := by
    simp [phaseEdge, h.phase, holdEdge, hc, h.faultL]
  rw [cycle_edge (by simp [h.phase]) hq, hp]
  refine ⟨⟨rfl, rfl, ?_, rfl, ?_⟩, rfl, by simp [h.build]⟩
  · simp [h.sckR]
  · exact completeOK_response h hF h1 h33

/-! ### The schedule (R117) -/

theorem quiet_mono {K L : Nat} (h : s.quiet L) (hK : K ≤ L) : s.quiet K := fun n h1 h2 => h n h1 (by omega)

/-- SETUP, cycle by cycle. -/
theorem setup_at {d : Nat} (hd : d < (s.build.tSetup : Nat)) (hq : s.quiet (s.build.tSetup : Nat)) :
    Low s F r op addr M 0 (cycle s F r op addr d) ∧ (cycle s F r op addr d).cnt = reload s.build.tSetup - d := by
  have h0 : Low s F r op addr M 0 (cycle s F r op addr 0) := ⟨onBit_load.advance, .inl rfl, rfl⟩
  have hc : (cycle s F r op addr 0).cnt = reload s.build.tSetup := rfl
  have h := low_leg h0 (d := d) (by rw [hc, reload]; omega) (quiet_mono hq (by omega))
  rwa [hc, Nat.zero_add] at h

/-- SCK rises for bit `n` at its edge, and stays high for SCK_DIV cycles; it stays low as long before the next bit. -/
theorem high_at (hF : F.length ≤ 33) (hp : s.presents F.length M) (n : Nat) (hn : n < 8 * F.length)
    (hq : s.quiet (riseAt s.build n)) :
    High s F r op addr M n (cycle s F r op addr (riseAt s.build n)) ∧
      (cycle s F r op addr (riseAt s.build n)).cnt = reload s.build.sckDiv := by
  have hD := s.build.sckDiv.pos
  have hS := s.build.tSetup.pos
  induction n with
  | zero =>
    have hr : riseAt s.build 0 = (s.build.tSetup : Nat) - 1 + 1 := by rw [riseAt]; omega
    have h := setup_at (r := r) (op := op) (addr := addr) (F := F) (M := M) (d := (s.build.tSetup : Nat) - 1) (by omega)
      (quiet_mono hq (by rw [hr]; omega))
    have hm := hp 0 hn
    rw [hr] at hq hm ⊢
    exact high_of_low h.1 (by rw [h.2, reload]; omega) hq hm
  | succ n ih =>
    have hr : riseAt s.build (n + 1) = riseAt s.build n + ((s.build.sckDiv : Nat) - 1) + 1 + ((s.build.sckDiv : Nat) - 1) + 1 := by
      rw [riseAt, riseAt, Nat.mul_add]; omega
    have hm := hp (n + 1) hn
    rw [hr] at hq hm ⊢
    have h₀ := ih (by omega) (quiet_mono hq (by omega))
    have h₁ := high_leg h₀.1 (d := (s.build.sckDiv : Nat) - 1) (by rw [h₀.2, reload]) (quiet_mono hq (by omega))
    have h₂ := low_of_high h₁.1 (by rw [h₁.2, h₀.2, reload]; omega) (quiet_mono hq (by omega)) hF hn
    have h₃ := low_leg h₂.1 (d := (s.build.sckDiv : Nat) - 1) (by rw [h₂.2, reload]) (quiet_mono hq (by omega))
    exact high_of_low h₃.1 (by rw [h₃.2, h₂.2, reload]; omega) hq hm

/-- Every cycle in which SCK is high over bit `n`. -/
theorem high_during (hF : F.length ≤ 33) (hp : s.presents F.length M) {n d : Nat} (hn : n < 8 * F.length)
    (hd : d < (s.build.sckDiv : Nat)) (hq : s.quiet (riseAt s.build n + d)) :
    High s F r op addr M n (cycle s F r op addr (riseAt s.build n + d)) ∧
      (cycle s F r op addr (riseAt s.build n + d)).cnt = reload s.build.sckDiv - d := by
  have h₀ := high_at (r := r) (op := op) (addr := addr) hF hp n hn (quiet_mono hq (by omega))
  have h₁ := high_leg h₀.1 (d := d) (by rw [h₀.2, reload]; omega) hq
  exact ⟨h₁.1, by rw [h₁.2, h₀.2]⟩

/-- Every cycle in which SCK is low between bit `n` and the next. -/
theorem low_during (hF : F.length ≤ 33) (hp : s.presents F.length M) {n d : Nat} (hn : n + 1 < 8 * F.length)
    (hd : d < (s.build.sckDiv : Nat)) (hq : s.quiet (fallAt s.build n + d)) :
    Low s F r op addr M (n + 1) (cycle s F r op addr (fallAt s.build n + d)) ∧
      (cycle s F r op addr (fallAt s.build n + d)).cnt = reload s.build.sckDiv - d := by
  have hD := s.build.sckDiv.pos
  have hf : fallAt s.build n = riseAt s.build n + ((s.build.sckDiv : Nat) - 1) + 1 := by rw [fallAt]; omega
  rw [hf] at hq ⊢
  have h₀ := high_during (r := r) (op := op) (addr := addr) hF hp (n := n) (d := (s.build.sckDiv : Nat) - 1) (by omega)
    (by omega) (quiet_mono hq (by omega))
  have h₁ := low_of_high h₀.1 (by rw [h₀.2, reload]; omega) (quiet_mono hq (by omega)) hF hn
  have h₂ := low_leg h₁.1 (d := d) (by rw [h₁.2, reload]; omega) hq
  exact ⟨h₂.1, by rw [h₂.2, h₁.2]⟩

/-- Every cycle of HOLD, from the last falling SCK on. -/
theorem held_during (hF : F.length ≤ 33) (h1 : 1 ≤ F.length) (hp : s.presents F.length M) {d : Nat}
    (hd : d < (s.build.tHold : Nat)) (hq : s.quiet (lastFallAt s.build F.length + d)) :
    Held s F r op addr M (cycle s F r op addr (lastFallAt s.build F.length + d)) ∧
      (cycle s F r op addr (lastFallAt s.build F.length + d)).cnt = reload s.build.tHold - d := by
  have hD := s.build.sckDiv.pos
  have hf : lastFallAt s.build F.length = riseAt s.build (8 * F.length - 1) + ((s.build.sckDiv : Nat) - 1) + 1 := by
    have : 16 * F.length - 1 = 2 * (8 * F.length - 1) + 1 := by omega
    rw [lastFallAt, riseAt, this, Nat.mul_add, Nat.mul_one, ← Nat.mul_assoc, Nat.mul_comm (s.build.sckDiv : Nat) 2]; omega
  rw [hf] at hq ⊢
  have h₀ := high_during (r := r) (op := op) (addr := addr) hF hp (n := 8 * F.length - 1) (d := (s.build.sckDiv : Nat) - 1)
    (by omega) (by omega) (quiet_mono hq (by omega))
  have h₁ := held_of_high h₀.1 (by rw [h₀.2, reload]; omega) (quiet_mono hq (by omega)) hF (by omega)
  have h₂ := held_leg h₁.1 (d := d) (by rw [h₁.2, reload]; omega) hq
  exact ⟨h₂.1, by rw [h₂.2, h₁.2]⟩

/-- The edge that releases chip-select and completes the request. -/
theorem gapped_at (hF : F.length ≤ 33) (h1 : 1 ≤ F.length) (hp : s.presents F.length M)
    (hr : r + 1 ≤ F.length ∨ r = 0) (hq : s.quiet (doneAt s.build F.length)) :
    Gapped s r op addr M (cycle s F r op addr (doneAt s.build F.length)) ∧
      (cycle s F r op addr (doneAt s.build F.length)).doneR = true ∧
      (cycle s F r op addr (doneAt s.build F.length)).cnt = reload s.build.tIdle := by
  have hH := s.build.tHold.pos
  have hd : doneAt s.build F.length = lastFallAt s.build F.length + ((s.build.tHold : Nat) - 1) + 1 := by
    rw [doneAt]; omega
  rw [hd] at hq ⊢
  have h := held_during (r := r) (op := op) (addr := addr) hF h1 hp (d := (s.build.tHold : Nat) - 1) (by omega)
    (quiet_mono hq (by omega))
  exact gapped_of_held h.1 (by rw [h.2, reload]; omega) hq hr h1 hF

/-- Every cycle of GAP. -/
theorem gap_during (hF : F.length ≤ 33) (h1 : 1 ≤ F.length) (hp : s.presents F.length M)
    (hr : r + 1 ≤ F.length ∨ r = 0) {d : Nat} (hd : d < (s.build.tIdle : Nat))
    (hq : s.quiet (doneAt s.build F.length + d)) :
    Gapped s r op addr M (cycle s F r op addr (doneAt s.build F.length + d)) ∧
      (cycle s F r op addr (doneAt s.build F.length + d)).doneR = decide (d = 0) ∧
      (cycle s F r op addr (doneAt s.build F.length + d)).cnt = reload s.build.tIdle - d := by
  have h₀ := gapped_at (r := r) (op := op) (addr := addr) hF h1 hp hr (quiet_mono hq (by omega))
  have h : cycle s F r op addr (doneAt s.build F.length + d) = after (cycle s F r op addr (doneAt s.build F.length)) d :=
    after_add _ _ d
  rw [h, after_gap (by rw [h₀.2.2, reload]; omega) h₀.1.phase
    (fun i hi => by rw [cycle_pinsAfter]; exact (hq _ (by omega) (by omega)).1)]
  refine ⟨⟨h₀.1.phase, h₀.1.csnR, h₀.1.sckR, h₀.1.mosiR, h₀.1.response⟩, ?_, by simp [waited, h₀.2.2]⟩
  by_cases hd0 : d = 0 <;> simp [hd0, h₀.2.1]

/-- The edge that enters IDLE again. -/
theorem idle_at (hF : F.length ≤ 33) (h1 : 1 ≤ F.length) (hp : s.presents F.length M)
    (hr : r + 1 ≤ F.length ∨ r = 0) (hq : s.quiet (readyAt s.build F.length)) :
    (cycle s F r op addr (readyAt s.build F.length)).phase = .idle ∧
      (cycle s F r op addr (readyAt s.build F.length)).doneR = false ∧
      (cycle s F r op addr (readyAt s.build F.length)).response = s.response.succeed op addr r M := by
  have hI := s.build.tIdle.pos
  have hd : readyAt s.build F.length = doneAt s.build F.length + ((s.build.tIdle : Nat) - 1) + 1 := by
    rw [readyAt]; omega
  rw [hd] at hq ⊢
  have h := gap_during (r := r) (op := op) (addr := addr) hF h1 hp hr (d := (s.build.tIdle : Nat) - 1) (by omega)
    (quiet_mono hq (by omega))
  rw [cycle_edge (by simp [h.1.phase]) hq]
  have hg : phaseEdge (cycle s F r op addr (doneAt s.build F.length + ((s.build.tIdle : Nat) - 1))) =
      gapEnd (cycle s F r op addr (doneAt s.build F.length + ((s.build.tIdle : Nat) - 1))) := by
    have hc : (cycle s F r op addr (doneAt s.build F.length + ((s.build.tIdle : Nat) - 1))).cnt = 0 := by
      rw [h.2.2, reload]; omega
    simp [phaseEdge, h.1.phase, gapEdge, hc]
  rw [hg]
  exact ⟨rfl, rfl, h.1.response⟩

end

/-! ### The arithmetic of the schedule -/

theorem fallAt_eq (b : Build) (n : Nat) : fallAt b n = riseAt b n + (b.sckDiv : Nat) := rfl

theorem riseAt_succ (b : Build) (n : Nat) : riseAt b (n + 1) = fallAt b n + (b.sckDiv : Nat) := by
  unfold fallAt riseAt
  rw [Nat.mul_add]; omega

theorem fallAt_lt_riseAt (b : Build) {m n : Nat} (h : m < n) : fallAt b m + (b.sckDiv : Nat) ≤ riseAt b n := by
  have : riseAt b n = riseAt b (m + 1) + 2 * (b.sckDiv : Nat) * (n - (m + 1)) := by
    unfold riseAt
    rw [Nat.add_assoc, ← Nat.mul_add]; congr 2; omega
  rw [this, riseAt_succ]; omega

theorem riseAt_mono (b : Build) {m n : Nat} (h : m ≤ n) : riseAt b m ≤ riseAt b n := by
  rcases Nat.lt_or_eq_of_le h with h | h
  · have := fallAt_lt_riseAt b h
    rw [fallAt_eq] at this; omega
  · subst h; omega

theorem lastFallAt_eq (b : Build) {N : Nat} (h : 1 ≤ N) : lastFallAt b N = fallAt b (8 * N - 1) := by
  have : 16 * N - 1 = 2 * (8 * N - 1) + 1 := by omega
  rw [lastFallAt, fallAt, riseAt, this, Nat.mul_add, Nat.mul_one, ← Nat.mul_assoc, Nat.mul_comm (b.sckDiv : Nat) 2]
  omega

/-- Every edge before the completion is in SETUP, in a high half period, in a low one, or in HOLD. -/
theorem leg_of_edge (b : Build) {N e : Nat} (h : 1 ≤ N) :
    e < riseAt b 0 ∨ (∃ n, n < 8 * N ∧ riseAt b n ≤ e ∧ e < fallAt b n) ∨
    (∃ n, n + 1 < 8 * N ∧ fallAt b n ≤ e ∧ e < riseAt b (n + 1)) ∨ lastFallAt b N ≤ e := by
  by_cases h0 : e < riseAt b 0
  · exact .inl h0
  by_cases hl : lastFallAt b N ≤ e
  · exact .inr (.inr (.inr hl))
  have hf := lastFallAt_eq b h
  have key : ∀ n, n ≤ 8 * N - 1 → e < fallAt b n →
      (∃ n, n < 8 * N ∧ riseAt b n ≤ e ∧ e < fallAt b n) ∨
      (∃ n, n + 1 < 8 * N ∧ fallAt b n ≤ e ∧ e < riseAt b (n + 1)) := by
    intro n
    induction n with
    | zero => exact fun _ h1 => .inl ⟨0, by omega, by omega, h1⟩
    | succ n ih =>
      intro h1 h2
      by_cases h3 : riseAt b (n + 1) ≤ e
      · exact .inl ⟨n + 1, by omega, h3, h2⟩
      · by_cases h4 : fallAt b n ≤ e
        · exact .inr ⟨n, by omega, h4, by omega⟩
        · exact ih (by omega) (by omega)
  rcases key (8 * N - 1) (le_refl _) (by omega) with h | h
  · exact .inr (.inl h)
  · exact .inr (.inr (.inl h))

/-! ### Any inputs are those of some device, and an accepted instruction begins the walk -/

/-- Whatever MISO does, it presents some bytes. -/
theorem presents_exists (s : State) (N : Nat) : ∃ M, s.presents N M := by
  have h : ∀ f : Nat → Bool, ∃ b : Byte, ∀ j, j < 8 → b.getLsbD (7 - j) = f j := fun f => by
    refine ⟨shiftIn (shiftIn (shiftIn (shiftIn (shiftIn (shiftIn (shiftIn (shiftIn 0 (f 0)) (f 1)) (f 2)) (f 3)) (f 4)) (f 5))
      (f 6)) (f 7), ?_⟩
    intro j hj
    repeat rw [shiftIn_bit _ _ _ (by omega)]
    have : j = 0 ∨ j = 1 ∨ j = 2 ∨ j = 3 ∨ j = 4 ∨ j = 5 ∨ j = 6 ∨ j = 7 := by omega
    rcases this with rfl | rfl | rfl | rfl | rfl | rfl | rfl | rfl <;> simp
  choose g hg using h
  refine ⟨fun k => g fun j => (s.pinsAfter (riseAt s.build (8 * k + j))).miso, fun n _ => ?_⟩
  rw [hg _ _ (by omega), Nat.div_add_mod]

/-- An instruction accepted with a valid request begins the walk of its frame. -/
theorem run_accepted {i : Instr} {s : State} {op : ReqOp} {len : BitVec 6} {addr : Byte} (hi : requestOf i s = (op, len, addr))
    (hr : s.reqReady = true) (hv : validate op addr len = .ok) :
    ∃ s₁, exec i s = .next s₁ ∧ ∀ e,
      runEdges e s₁ = .next (cycle s (frameOf s.build op addr len s.pins.reqWdata) (rxCount op addr len) op addr e) := by
  refine ⟨_, by rw [exec_eq_offer, hi, offer_ready hr], fun e => ?_⟩
  rw [run_eq]
  simp only [acceptEdge, acceptRule, hv, beginTransaction]
  rfl

end Sys2Proof.Machine
end

