-- ==== Sys2Proof/Machine/Assembler.lean ====
section
/-! DEFINITION. The text of the assembly syntax (30_encoding.md R87, R88): one line of characters to the request it stands for. The
source has no assembler and the block never sees the text; what the spec leaves open of it is in log 20. -/

namespace Sys2Proof.Machine

/-- What a line is made of: words of letters, digits and underscores, and three marks. -/
inductive Token where
  | word (w : List Char)
  | comma
  | opening
  | closing
  deriving DecidableEq, Repr

/-- The line without its comment: `;` starts one (R87). -/
def dropComment (cs : List Char) : List Char := cs.takeWhile fun c => c != ';'

/-- The tokens of a text, `acc` holding the word that is being read, last character first. -/
def tokensFrom : List Char → List Char → List Token
  | acc, [] => endWord acc
  | acc, c :: cs =>
    if c.isAlphanum || c == '_' then tokensFrom (c :: acc) cs
    else endWord acc ++ mark c ++ tokensFrom [] cs
where
  /-- The word read so far, if it is one. -/
  endWord (acc : List Char) : List Token := if acc = [] then [] else [.word acc.reverse]
  /-- The token a mark stands for; every other character only separates. -/
  mark (c : Char) : List Token :=
    if c = ',' then [.comma] else if c = '[' then [.opening] else if c = ']' then [.closing] else []

/-- The value of a digit: 0 to 9, and A to F in either case. -/
def digitOf (c : Char) : Option Nat :=
  if '0' ≤ c ∧ c ≤ '9' then some (c.toNat - '0'.toNat)
  else if 'a' ≤ c ∧ c ≤ 'f' then some (c.toNat - 'a'.toNat + 10)
  else if 'A' ≤ c ∧ c ≤ 'F' then some (c.toNat - 'A'.toNat + 10)
  else none

/-- The number a non-empty string of digits writes in a base, after the value read so far. -/
def digitsOf (base : Nat) : Nat → List Char → Option Nat
  | v, [] => some v
  | v, c :: cs =>
    match digitOf c with
    | none => none
    | some d => if d < base then digitsOf base (v * base + d) cs else none

/-- A number: hexadecimal with `0x`, or decimal (R87). -/
def numberOf : List Char → Option Nat
  | '0' :: 'x' :: c :: cs => digitsOf 16 0 (c :: cs)
  | [] => none
  | c :: cs => digitsOf 10 0 (c :: cs)

/-- A number of at most `n` bits. -/
def fieldOf (n : Nat) (w : List Char) : Option (BitVec n) :=
  match numberOf w with
  | none => none
  | some v => if v < 2 ^ n then some (BitVec.ofNat n v) else none

/-- The command names of 00_scope.md R2 that stand for one opcode, in the spec's spelling and the source's. -/
def commandNames : List (String × Byte) :=
  [("R_RX_PAYLOAD", 0x61), ("W_TX_PAYLOAD", 0xA0), ("FLUSH_TX", 0xE1), ("FLUSH_RX", 0xE2), ("REUSE_TX_PL", 0xE3), ("NOP", 0xFF)] ++
  [("readPayload", 0x61), ("writePayload", 0xA0), ("flushTx", 0xE1), ("flushRx", 0xE2), ("reuseTxPayload", 0xE3), ("noop", 0xFF)]

/-- The one second name R54 gives: the register at 0x09 is RPD, and "CD on the older part". That it may stand for an address beside
RPD is the model's choice (log 20). -/
def olderNames : List (String × Byte) := [("CD", 0x09)]

/-- The names an address may have: those of 20_memory.md R54 and the command names (R87). -/
def addressNames : List (String × Byte) :=
  registerMap.map (fun r => (r.name, r.addr.zeroExtend 8)) ++ olderNames ++ commandNames

/-- An address: a name or a number (R87). -/
def addressOf (w : List Char) : Option Byte :=
  match addressNames.find? fun e => e.1.toList == w with
  | some e => some e.2
  | none => fieldOf 8 w

/-- The rest of a byte list after its first byte, up to the closing mark, which ends the line. -/
def bytesFrom : List Token → Option (List Byte)
  | [.closing] => some []
  | .comma :: .word w :: ts =>
    match fieldOf 8 w, bytesFrom ts with
    | some b, some bs => some (b :: bs)
    | _, _ => none
  | _ => none

/-- A byte list in brackets; WBUF's `len` field holds its count, so at most 63 bytes (log 20). -/
def byteListOf : List Token → Option (List Byte)
  | [.opening, .closing] => some []
  | .opening :: .word w :: ts =>
    match fieldOf 8 w, bytesFrom ts with
    | some b, some bs => if bs.length + 1 < 64 then some (b :: bs) else none
    | _, _ => none
  | _ => none

/-- The operands of a line: none, one word, two words, a word and a byte list, or a byte list alone. -/
inductive Operands where
  | none
  | one (w : List Char)
  | two (w v : List Char)
  | list (bs : List Byte)
  | addrList (w : List Char) (bs : List Byte)
  deriving DecidableEq, Repr

/-- The operands the tokens after the mnemonic make. -/
def operandsOf (ts : List Token) : Option Operands :=
  match ts with
  | [] => some .none
  | [.word w] => some (.one w)
  | [.word w, .comma, .word v] => some (.two w v)
  | .word w :: .comma :: rest => (byteListOf rest).map (.addrList w)
  | _ => (byteListOf ts).map .list

/-- The four lines of R87 and the pseudo-instructions of R88, by mnemonic. -/
def lineOf (m : List Char) (o : Operands) : Option Line :=
  match o with
  | .none =>
    if m = "FLUSH_TX".toList then some Pseudo.flushTx.expand
    else if m = "FLUSH_RX".toList then some Pseudo.flushRx.expand
    else if m = "REUSE_TX_PL".toList then some Pseudo.reuseTxPl.expand
    else if m = "STATUS_PROBE".toList then some Pseudo.statusProbe.expand
    else none
  | .one w =>
    if m = "RREG".toList then (addressOf w).map .rreg
    else if m = "R_REGISTER".toList then (addressOf w).map fun a => (Pseudo.rRegister a).expand
    else if m = "R_RX_PAYLOAD".toList then (fieldOf 6 w).map fun n => (Pseudo.rRxPayload n).expand
    else if m = "CLEAR_FLAGS".toList then (fieldOf 8 w).map fun v => (Pseudo.clearFlags v).expand
    else none
  | .two w v =>
    match addressOf w with
    | none => none
    | some a =>
      if m = "RBUF".toList then (fieldOf 6 v).map (.rbuf a)
      else if m = "WREG".toList then (fieldOf 8 v).map (.wreg a)
      else if m = "W_REGISTER".toList then (fieldOf 8 v).map fun x => (Pseudo.wRegister a x).expand
      else none
  | .list bs => if m = "W_TX_PAYLOAD".toList then some (Pseudo.wTxPayload bs).expand else none
  | .addrList w bs => if m = "WBUF".toList then (addressOf w).map fun a => .wbuf a bs else none

/-- One line of text: a mnemonic and its operands (R87, R88). -/
def assemble (text : List Char) : Option Line :=
  match tokensFrom [] (dropComment text) with
  | .word m :: ts =>
    match operandsOf ts with
    | none => none
    | some o => lineOf m o
  | _ => none

/-- The encoding of a line: its REQW word and its data bytes (R87). -/
def Line.encoding (l : Line) : BitVec 16 × List Byte := (l.reqw, l.bytes)

end Sys2Proof.Machine
end

