-- ==== Sys2Proof/Tests/Slice0.lean ====
section
/-! SUPPORT. The model's own tests. Expected results are the spec's: the encodings of 30_encoding.md R70 and R72, spec/opcode_table.json
and the vectors of 95_test_vectors.md (named X, T or by section). Then one witness for the hypotheses of each obligation. -/

namespace Sys2Proof.Machine.Slice0

/-! ### Small states -/

/-- All four timing parameters 1, FILL_BYTE 0xFF (95_test_vectors.md). -/
def ones : Build := ⟨0xFF, 1, 1, 1, 1⟩

/-- No reset, no request, no fault. -/
def quietPins (miso : Bool) : Pins := ⟨false, false, 0, 0, 0, Vector.replicate 32 0x00, miso, false⟩

/-- The block after a reset, with these inputs to come. -/
def fresh (ps : List Pins) : State :=
  { State.reset with build := ones, inputs := ps, rxSh := 0x5A, rxFrame := Vector.replicate 33 0xEE }

/-- The block after a reset, a line offered in the current cycle. -/
def offers (l : Line) : State := fresh [l.offered false]

/-- The block in a phase, with `cnt`, the inputs of the current cycle, and a two-byte frame on the wire. -/
def within (ph : Phase) (cnt : Nat) (p : Pins) : State :=
  { fresh [p] with
    phase := ph, cnt := cnt, frameLen := 2, nrxL := 1, opL := .readReg, addrL := 0x17, csnR := !ph.selected,
    sckR := ph == .shiftHi, txFrame := loadFrame [0x17, 0xFF] }

/-- The state a step answers. -/
def nextOf (s : State) : State :=
  match step s with
  | .next t => t
  | .fault _ => s
  | .refused _ => s

/-- The state an instruction answers. -/
def execOf (i : Instr) (s : State) : State :=
  match exec i s with
  | .next t => t
  | .fault _ => s
  | .refused _ => s

/-- The frame on the wire and its read count. -/
def framed (s : State) : List Byte × Nat := (s.txFrame.toList.take s.frameLen.toNat, s.nrxL.toNat)

/-! ### Well-formedness: an ill-formed term for each check -/

theorem test_illformed_rRegister : WellFormed (.rRegister 0x18) = false ∧ WellFormed (.rRegister 0x1F) = false := by decide

theorem test_illformed_wRegister : WellFormed (.wRegister 0x1B) = false ∧ WellFormed (.wRegister 0x1E) = false := by decide

theorem test_wellformed : WellFormed (.rRegister 0x17) = true ∧ WellFormed (.wRegister 0x1D) = true ∧
    WellFormed (.readBuf 63 0xFE) = true := by decide

/-! ### Decoding: a word written out for each constructor (R70, R72; vectors 2.2), and the reserved and illegal ones -/

theorem test_decode_rRegister : decode (.opc8 0b00010111) = .ok (.rRegister 0b10111) := by rfl
theorem test_decode_wRegister : decode (.opc8 0b00111101) = .ok (.wRegister 0b11101) := by rfl
theorem test_decode_rRxPayload : decode (.opc8 0b01100001) = .ok .rRxPayload := by rfl
theorem test_decode_wTxPayload : decode (.opc8 0b10100000) = .ok .wTxPayload := by rfl
theorem test_decode_flushTx : decode (.opc8 0b11100001) = .ok .flushTx := by rfl
theorem test_decode_flushRx : decode (.opc8 0b11100010) = .ok .flushRx := by rfl
theorem test_decode_reuseTxPl : decode (.opc8 0b11100011) = .ok .reuseTxPl := by rfl
theorem test_decode_nop : decode (.opc8 0b11111111) = .ok .nop := by rfl
theorem test_decode_readReg : decode (.reqw 0b00_000001_00010111) = .ok (.readReg 1 0x17) := by rfl
theorem test_decode_readBuf : decode (.reqw 0b01_100000_01100001) = .ok (.readBuf 32 0x61) := by rfl
theorem test_decode_writeReg : decode (.reqw 0b10_000001_11100001) = .ok (.writeReg 1 0xE1) := by rfl
theorem test_decode_writeBuf : decode (.reqw 0b11_000101_00010000) = .ok (.writeBuf 5 0x10) := by rfl

theorem test_decode_refuses : decode (.opc8 0x18) = .error (.reservedRead 0x18) ∧ decode (.opc8 0x3E) = .error (.reservedWrite 0x1E) ∧
    decode (.opc8 0x60) = .error (.illegal 0x60) ∧ decode (.opc8 0xFE) = .error (.illegal 0xFE) := ⟨rfl, rfl, rfl, rfl⟩

theorem test_encode : encode (.wRegister 0x1C) = .opc8 0x3C ∧ encode (.readReg 1 0x17) = .reqw 0x0117 ∧
    encode (.writeBuf 32 0xA0) = .reqw 0xE0A0 := by decide

/-! ### Validation (vectors 2.1) -/

/-- Row by row: address, class. -/
theorem test_classes :
    [0x00, 0x07, 0x17, 0x1C, 0x1D].map addrClass = List.replicate 5 .reg ∧
    [0x61, 0xA0].map addrClass = List.replicate 2 .payloadCmd ∧
    [0xE1, 0xE2, 0xE3, 0xFF].map addrClass = List.replicate 4 .noargCmd ∧
    [0x18, 0x1B, 0x1E, 0x1F, 0x20, 0x27, 0x3D, 0x3F, 0x50, 0x60, 0x62, 0x9F, 0xA1, 0xA8, 0xB0, 0xE0, 0xE4, 0xFE].map addrClass =
      List.replicate 18 .invalid := by decide

theorem test_lengths :
    validate .readBuf 0x00 0 = .invalidLength ∧ validate .readBuf 0x00 33 = .invalidLength ∧
    validate .readBuf 0x00 32 = .ok ∧ validate .writeBuf 0xE1 0 = .invalidLength ∧
    validate .writeBuf 0x60 0 = .invalidAddress ∧ validate .readBuf 0x18 33 = .invalidAddress ∧
    validate .readReg 0x00 0 = .ok ∧ validate .writeReg 0x00 63 = .ok := by decide

/-- T7: bad requests on consecutive cycles complete one a cycle, with these codes. -/
theorem test_error_codes :
    [Line.rreg 0x18, .rbuf 0x00 0, .wbuf 0x60 [], .rbuf 0x00 33, .wbuf 0xE1 []].map (fun l =>
      ((nextOf (offers l)).doneR, (nextOf (offers l)).rspErr.code, (nextOf (offers l)).csnR)) =
      [(true, 1, true), (true, 2, true), (true, 1, true), (true, 2, true), (true, 2, true)] := by decide

/-! ### One instruction each: the frame it puts on the wire (vectors 2.3) -/

theorem test_readReg : framed (nextOf (offers (.rreg 0x17))) = ([0x17, 0xFF], 1) := by decide
theorem test_readReg_noarg : framed (nextOf (offers (.rreg 0xFF))) = ([0xFF, 0xFF], 1) := by decide
theorem test_readBuf : framed (nextOf (offers (.rbuf 0x0A 5))) = ([0x0A, 0xFF, 0xFF, 0xFF, 0xFF, 0xFF], 5) := by decide
theorem test_readBuf_noarg : framed (nextOf (offers (.rbuf 0xE2 2))) = ([0xE2, 0xFF, 0xFF], 2) := by decide
theorem test_writeReg : framed (nextOf (offers (.wreg 0x1D 0x00))) = ([0x3D, 0x00], 0) := by decide
theorem test_writeReg_noarg : framed (nextOf (offers (.wreg 0xE1 0x99))) = ([0xE1], 0) := by decide
theorem test_writeBuf : framed (nextOf (offers (.wbuf 0x10 [0x11, 0x22, 0x33, 0x44, 0x55]))) =
    ([0x30, 0x11, 0x22, 0x33, 0x44, 0x55], 0) := by decide
theorem test_writeBuf_noarg : framed (nextOf (offers (.wbuf 0xE2 [0x01, 0x02, 0x03]))) = ([0xE2], 0) := by decide

theorem test_rRegister : framed (execOf (.rRegister 0x1C) (offers (.rreg 0x1C))) = ([0x1C, 0xFF], 1) := by decide
theorem test_wRegister : framed (execOf (.wRegister 0x0C) (offers (.wbuf 0x0C [0xC3]))) = ([0x2C, 0xC3], 0) := by decide
theorem test_rRxPayload : framed (execOf .rRxPayload (offers (.rbuf 0x61 2))) = ([0x61, 0xFF, 0xFF], 2) := by decide
theorem test_rRxPayload_write : framed (execOf .rRxPayload (offers (.wbuf 0x61 [0xAA, 0xBB]))) = ([0x61, 0xAA, 0xBB], 0) := by decide
theorem test_wTxPayload : framed (execOf .wTxPayload (offers (.wbuf 0xA0 [0x68, 0x69]))) = ([0xA0, 0x68, 0x69], 0) := by decide
theorem test_wTxPayload_read : framed (execOf .wTxPayload (offers (.rreg 0xA0))) = ([0xA0, 0xFF], 1) := by decide
theorem test_flushTx : framed (execOf .flushTx (offers (.wreg 0xE1 0x99))) = ([0xE1], 0) := by decide
theorem test_flushTx_read : framed (execOf .flushTx (offers (.rreg 0xE1))) = ([0xE1, 0xFF], 1) := by decide
theorem test_flushRx : framed (execOf .flushRx (offers (.wbuf 0xE2 [0x01, 0x02, 0x03]))) = ([0xE2], 0) := by decide
theorem test_reuseTxPl : framed (execOf .reuseTxPl (offers (.wreg 0xE3 0x00))) = ([0xE3], 0) := by decide
theorem test_nop : framed (execOf .nop (offers (.wreg 0xFF 0x00))) = ([0xFF], 0) := by decide
theorem test_nop_read : framed (execOf .nop (offers (.rbuf 0xFF 3))) = ([0xFF, 0xFF, 0xFF, 0xFF], 3) := by decide

/-- T1, edge 0: chip-select falls, bit 7 of 0xFF on MOSI, SETUP. -/
theorem test_accept_edge : (nextOf (offers (.wreg 0xFF 0x00))).csnR = false ∧ (nextOf (offers (.wreg 0xFF 0x00))).mosiR = true ∧
    (nextOf (offers (.wreg 0xFF 0x00))).sckR = false ∧ (nextOf (offers (.wreg 0xFF 0x00))).phase = .setup := by decide

/-! ### The engine -/

/-- T8: the samples 1, 0, 1, 0, 0, 1, 0, 1 leave 0xA5. -/
theorem test_shift_register :
    [true, false, true, false, false, true, false, true].foldl shiftIn 0x5A = 0xA5 := by decide

/-- T2, edge 16: the byte is stored, the next begins and its bit 7 goes on MOSI. -/
theorem test_byte_boundary :
    let t := nextOf { within .shiftHi 0 (quietPins false) with bitIdx := 0, rxSh := 0x0E }
    t.phase = .shiftLo ∧ t.byteIdx = 1 ∧ t.bitIdx = 7 ∧ t.mosiR = true ∧ t.rxFrame.get 0 = 0x0E := by decide

/-- T1, edge 16: the last fall leaves MOSI as it is. -/
theorem test_last_fall :
    let t := nextOf { within .shiftHi 0 (quietPins false) with byteIdx := 1, bitIdx := 0, mosiR := true }
    t.phase = .hold ∧ t.mosiR = true ∧ t.csnR = false := by decide

/-- T5, fault in cycle 15: the abort comes instead of the last fall. -/
theorem test_abort_before_last_fall :
    let t := nextOf { within .shiftHi 0 { quietPins false with busFault := true } with byteIdx := 1, bitIdx := 0 }
    t.phase = .hold ∧ t.sckR = false ∧ t.faultL = true ∧ t.rxFrame.get 1 = 0xEE := by decide

/-- T5, fault in cycle 16: ignored in HOLD, the completion is OK. -/
theorem test_fault_in_hold_ignored :
    let t := nextOf (within .hold 0 { quietPins false with busFault := true })
    t.rspErr = .ok ∧ t.doneR = true ∧ t.csnR = true := by decide

/-- T6: `rst` at an edge in mid-frame. -/
theorem test_reset_edge :
    let t := nextOf (within .shiftHi 3 { quietPins false with rst := true, reqValid := true })
    t.phase = .idle ∧ t.csnR = true ∧ t.sckR = false ∧ t.doneR = false ∧ t.frameLen = 0 := by decide

/-! ### Responses (vectors 2.4) -/

/-- RREG 0x17 with M = [0x4E, 0x10] at the end of HOLD. -/
theorem test_fifo_decode :
    let t := nextOf { within .hold 0 (quietPins false) with rxFrame := loadFrame [0x4E, 0x10] }
    t.rspStatus = 0x4E ∧ t.rspRdata.get 0 = 0x10 ∧ t.rspNrx = 1 ∧ (t.stRxDr, t.stTxDs, t.stMaxRt) = (true, false, false) ∧
      (t.fifoValid, t.fifoRxEmpty) = (true, false) := by decide

/-- A write of 0x17 decodes no FIFO_STATUS, and neither does a read of 0x61. -/
theorem test_fifo_unchanged :
    decodesFifo .writeReg 0x17 0 = false ∧ decodesFifo .readBuf 0x61 2 = false ∧ decodesFifo .readReg 0x16 1 = false ∧
      decodesFifo .readBuf 0x17 2 = true := by decide

/-- The three flags of a status byte. -/
theorem test_status_flags :
    [0x0E, 0x2E, 0x1E, 0x70, 0x8F, 0x40].map (fun b => (rxDrOf b, txDsOf b, maxRtOf b)) =
      [(false, false, false), (false, true, false), (false, false, true), (true, true, true), (false, false, false),
        (true, false, false)] := by decide

/-! ### Reset and the first step -/

/-- R47: what software and the bus see first. -/
theorem test_reset : State.reset.phase = .idle ∧ State.reset.csnR = true ∧ State.reset.bitIdx = 7 ∧ State.reset.stValid = false ∧
    State.reset.rspErr = .ok := ⟨rfl, rfl, rfl, rfl, rfl⟩

/-- A placed word runs as the first instruction after reset: an opcode byte and a request. -/
theorem test_first_step_opcode : step (State.reset.withFetchWord 8 0x61) = exec .rRxPayload (State.reset.withFetchWord 8 0x61) := rfl
theorem test_first_step_request :
    step (State.reset.withFetchWord 16 0x4105) = exec (.readBuf 1 0x05) (State.reset.withFetchWord 16 0x4105) := rfl

/-! ### The device side -/

/-- The documented registers are REG_SET: 26 rows, each in it, no address twice (R13, R54). -/
theorem test_register_map : registerMap.length = 26 ∧ (registerMap.all fun r => inRegSet r.addr) = true ∧
    (registerMap.map RegRow.addr).Nodup := by decide

/-- The reference slave at the start of every program (95_test_vectors.md part 3). -/
def slave : RefSlave :=
  ⟨Vector.ofFn fun i => if i.val = 7 then [0x0E] else List.replicate (regWidth (BitVec.ofFin i)) 0x00, [], []⟩

/-- P1: write and read back 0x00, then 0x05. -/
theorem test_program_P1 :
    let e := runLines ones [.wreg 0x00 0x0E, .rreg 0x00, .wreg 0x05 0x2E, .rreg 0x05] State.reset.response slave
    e.1.err = .ok ∧ e.1.status = 0x0E ∧ e.1.rdata.get 0 = 0x2E ∧ e.1.nrx = 1 ∧ e.2.reg 0x00 = [0x0E] ∧ e.2.reg 0x05 = [0x2E] := by
  decide

/-- P3: a 5-byte register, whole and then its first byte. -/
theorem test_program_P3 :
    let e := runLines ones [.wbuf 0x10 [0x11, 0x22, 0x33, 0x44, 0x55], .wreg 0x10 0x99, .rbuf 0x10 5] State.reset.response slave
    e.2.reg 0x10 = [0x99, 0x22, 0x33, 0x44, 0x55] ∧ e.1.nrx = 5 ∧ e.1.rdata.toList.take 5 = [0x99, 0x22, 0x33, 0x44, 0x55] := by decide

/-- The reference slave's start has the widths and depths of R131. -/
theorem slave_wf : slave.Wf := ⟨by decide, by decide, by decide⟩

/-- R64 and R155: reads of 0x61, 0xA0, 0xE1, 0xE2 and 0xE3 perform their commands; a read of 0xFF, of a register or of no valid
address changes nothing; a register write does. -/
theorem test_changes_device : ([0x61, 0xA0, 0xE1, 0xE2, 0xE3].all fun a => changesDevice (.readReg 1 a)) = true ∧
    ([0xFF, 0x05, 0x18].any fun a => changesDevice (.readBuf 2 a)) = false ∧ changesDevice (.writeReg 1 0x05) = true ∧
    changesDevice (.writeBuf 0 0x05) = false := by decide

/-! ### Assembly (R87, R88) -/

theorem test_assemble : (assemble "RREG FIFO_STATUS ; data?".toList).map Line.encoding = some (0x0117, []) ∧
    (assemble "WBUF 0x10, [0x11, 34]".toList).map Line.encoding = some (0xC210, [0x11, 0x22]) ∧
    assemble "RREG CD".toList = assemble "RREG RPD".toList ∧ (assemble "RREG CD".toList).map Line.reqw = some 0x0109 := by decide

theorem test_assemble_pseudo : (assemble "CLEAR_FLAGS 0xFF".toList).map Line.encoding = some (0x8107, [0x70]) ∧
    (assemble "STATUS_PROBE".toList).map Line.encoding = some (0x81FF, [0x00]) ∧
    (assemble "WREG 7, 256".toList) = none := by decide

/-! ### Witnesses: for each obligation with hypotheses, a state and operands that meet them all -/

theorem witness_DecodeOfEncodeIsTheInstruction : WellFormed (.wRegister 0x1D) = true := by decide

theorem witness_OpcodeByteDecodesToOneCommandOnly : decode (.opc8 0x3D) = .ok (.wRegister 0x1D) := by rfl

/-- A boundary value of each clause: 0x1F, 0x20, 0x3F and 0xFE. -/
theorem witness_OpcodeMapOfEveryByte : (0x1F : Byte).toNat ≤ 0x1F ∧ (0x20 ≤ (0x20 : Byte).toNat ∧ (0x3F : Byte).toNat ≤ 0x3F) ∧
    (0x40 ≤ (0xFE : Byte).toNat ∧ (0xFE : Byte).toNat ∉ [0x61, 0xA0, 0xE1, 0xE2, 0xE3, 0xFF]) := by decide

theorem witness_OpcodeByteIsTheAddressWithTheWriteBit : isCmd 0xFF = true ∧ isRegAddr 0x1D = true ∧ isRegAddr 0x00 = true := by decide

theorem witness_FrameIsOneOpcodeAndAtMost32DataBytes : validate .writeBuf 0xA0 32 = .ok ∧ (31 < dataLen .writeBuf 0xA0 32) := by decide

theorem witness_EveryFrameStartsWithALegalOpcode : validate .writeReg 0x1D 0 = .ok ∧
    (0x20 ≤ (0x3F : Byte).toNat ∧ (0x3F : Byte).toNat ≤ 0x3F) := by decide
theorem witness_EveryFrameStartsWithALegalOpcode_illegal : decodeOpcode 0x50 = .error (.illegal 0x50) := by rfl
theorem witness_EveryFrameStartsWithALegalOpcode_reserved : decodeOpcode 0x18 = .error (.reservedRead 0x18) := by rfl

theorem witness_PseudoInstructionsFrameTheirCommands :
    isRegAddr 0x1D = true ∧ (1 ≤ (1 : BitVec 6).toNat ∧ (32 : BitVec 6).toNat ≤ 32) ∧ (List.replicate 32 (0x00 : Byte)).length ≤ 32 ∧
    (Pseudo.wTxPayload [0x68, 0x69]).expand.frame ones = [0xA0, 0x68, 0x69] := by decide

theorem witness_StepRunsTheDecodedRequest : (offers (.rreg 0x17)).pins.reqValid = true ∧
    decode (.reqw (offers (.rreg 0x17)).portReqw) = .ok (.readReg 1 0x17) := ⟨rfl, rfl⟩

/-- Ready, with a valid request offered: the hypotheses of the statements about a step that takes one. -/
theorem witness_StepRunsTheWireCommand : (offers (.rreg 0x17)).pins.reqValid = true ∧ (offers (.rreg 0x17)).reqReady = true ∧
    validate (offers (.rreg 0x17)).portOp (offers (.rreg 0x17)).pins.reqAddr (offers (.rreg 0x17)).pins.reqLen = .ok := by decide

theorem witness_BuildParametersNeverChange : step (offers (.rreg 0x17)) = .next (nextOf (offers (.rreg 0x17))) := rfl

theorem witness_ResetEdgeSetsEveryRegister :
    (within .shiftHi 3 { quietPins false with rst := true }).pins.rst = true := by decide

/-- IDLE with nothing offered, with a bad request, and with a good one. -/
theorem witness_IdleStepTakesTheRequest :
    (fresh [quietPins false]).phase = .idle ∧ (fresh [quietPins false]).pins.rst = false ∧ (fresh [quietPins false]).pins.reqValid = false ∧
    (offers (.rreg 0x18)).pins.reqValid = true ∧ validate .readReg 0x18 1 ≠ .ok ∧
    (offers (.rreg 0x17)).pins.reqValid = true ∧ validate .readReg 0x17 1 = .ok := by decide

theorem witness_ReadRegFramesTheAddressAndOneFill : (offers (.rreg 0x1D)).reqReady = true ∧ addrClass 0x1D ≠ .invalid := by decide

theorem witness_ReadBufFramesTheAddressAndItsFills : (offers (.rbuf 0x61 32)).reqReady = true ∧ addrClass 0x61 ≠ .invalid ∧
    1 ≤ (32 : BitVec 6).toNat ∧ (32 : BitVec 6).toNat ≤ 32 := by decide

theorem witness_WriteRegFramesOneByteOrTheOpcodeAlone : (offers (.wreg 0xE1 0x00)).reqReady = true ∧ addrClass 0xE1 ≠ .invalid ∧
    isNoargCmd 0xE1 = true ∧ addrClass 0x1D ≠ .invalid ∧ isNoargCmd 0x1D = false := by decide

theorem witness_WriteBufFramesItsBytesInOrder : (offers (.wbuf 0xA0 [0x68, 0x69])).reqReady = true ∧ addrClass 0xA0 ≠ .invalid ∧
    1 ≤ (2 : BitVec 6).toNat ∧ (2 : BitVec 6).toNat ≤ 32 := by decide

/-- A register form and a buffer form at the port. -/
theorem witness_RRegisterFramesItsOpcodeAndFills : inRegSet 0x1D = true ∧
    ((offers (.rreg 0x1D)).reqReady = true ∧ (offers (.rreg 0x1D)).portOp.isBuf = false) ∧
    ((offers (.rbuf 0x1D 32)).reqReady = true ∧ (offers (.rbuf 0x1D 32)).portOp.isBuf = true ∧
      1 ≤ (offers (.rbuf 0x1D 32)).pins.reqLen.toNat ∧ (offers (.rbuf 0x1D 32)).pins.reqLen.toNat ≤ 32) := by decide

theorem witness_WRegisterFramesItsOpcodeAndData : inRegSet 0x00 = true ∧
    ((offers (.wreg 0x00 0x0E)).reqReady = true ∧ (offers (.wreg 0x00 0x0E)).portOp.isBuf = false) ∧
    ((offers (.wbuf 0x00 [0x0E])).reqReady = true ∧ (offers (.wbuf 0x00 [0x0E])).portOp.isBuf = true ∧
      1 ≤ (offers (.wbuf 0x00 [0x0E])).pins.reqLen.toNat ∧ (offers (.wbuf 0x00 [0x0E])).pins.reqLen.toNat ≤ 32) := by decide

/-- Each of the four operations at the port, with a length in range. -/
theorem witness_PayloadCommandsFrameFillsOrData :
    ((offers (.rreg 0x61)).reqReady = true ∧ (offers (.rreg 0x61)).portOp = .readReg) ∧
    ((offers (.wreg 0xA0 0x42)).reqReady = true ∧ (offers (.wreg 0xA0 0x42)).portOp = .writeReg) ∧
    ((offers (.rbuf 0x61 32)).reqReady = true ∧ (offers (.rbuf 0x61 32)).portOp = .readBuf ∧
      (offers (.rbuf 0x61 32)).pins.reqLen.toNat = 32) ∧
    ((offers (.wbuf 0xA0 [0x68])).reqReady = true ∧ (offers (.wbuf 0xA0 [0x68])).portOp = .writeBuf ∧
      (offers (.wbuf 0xA0 [0x68])).pins.reqLen.toNat = 1) := by decide

theorem witness_NoArgumentCommandsGoAloneWhenWritten :
    ((offers (.wreg 0xFF 0x00)).reqReady = true ∧ (offers (.wreg 0xFF 0x00)).portOp = .writeReg) ∧
    ((offers (.rreg 0xE1)).reqReady = true ∧ (offers (.rreg 0xE1)).portOp = .readReg) ∧
    ((offers (.wbuf 0xE2 [0x01])).reqReady = true ∧ (offers (.wbuf 0xE2 [0x01])).portOp = .writeBuf ∧
      (offers (.wbuf 0xE2 [0x01])).pins.reqLen.toNat = 1) ∧
    ((offers (.rbuf 0xE3 32)).reqReady = true ∧ (offers (.rbuf 0xE3 32)).portOp = .readBuf ∧
      (offers (.rbuf 0xE3 32)).pins.reqLen.toNat = 32) := by decide

/-- A bad address; a good one with length 0, and with length 33. -/
theorem witness_BadRequestsCompleteAtOnceWithTheirCode : (offers (.rreg 0x18)).reqReady = true ∧
    addrClass (requestOf (.readReg 1 0x18) (offers (.rreg 0x18))).2.2 = .invalid ∧
    addrClass (requestOf .nop (offers (.rbuf 0x00 0))).2.2 ≠ .invalid ∧ (requestOf .nop (offers (.rbuf 0x00 0))).1.isBuf = true ∧
    (requestOf .nop (offers (.rbuf 0x00 0))).2.1.toNat = 0 ∧ 32 < (requestOf .nop (offers (.rbuf 0x00 33))).2.1.toNat := by decide

theorem witness_AcceptanceLeavesEveryOtherRegister : (offers (.rreg 0x17)).reqReady = true ∧ validate .readReg 0x17 1 = .ok ∧
    (offers (.rreg 0x18)).reqReady = true ∧ validate .readReg 0x18 1 ≠ .ok := by decide

theorem witness_UnreadyPortTakesNoRequest : (within .gap 0 (quietPins false)).reqReady = false ∧
    (fresh [{ quietPins false with rst := true }]).reqReady = false := by decide

theorem witness_OneByteBufferIsTheRegisterOperation : (offers (.rreg 0x05)).reqReady = true ∧ addrClass 0x05 ≠ .invalid := by decide

/-- A one-byte write, its other 31 write bytes different. -/
theorem witness_UnusedWriteBytesAreIgnored :
    (offers (.wreg 0x00 0x0E)).inputs = [(Line.wreg 0x00 0x0E).offered false] ∧ (offers (.wreg 0x00 0x0E)).reqReady = true ∧
    ∀ k (hk : k < 32), (requestOf (.writeReg 1 0x00) (offers (.wreg 0x00 0x0E))).1.isRead = false →
      k < dataLen (requestOf (.writeReg 1 0x00) (offers (.wreg 0x00 0x0E))).1 (requestOf (.writeReg 1 0x00) (offers (.wreg 0x00 0x0E))).2.2
        (requestOf (.writeReg 1 0x00) (offers (.wreg 0x00 0x0E))).2.1 →
      (Vector.replicate 32 (0x0E : Byte))[k] = ((Line.wreg 0x00 0x0E).offered false).reqWdata[k] := by decide

theorem witness_LowPhasesCountAndThenRaiseSck :
    ((within .setup 1 (quietPins true)).phase = .setup ∧ (within .setup 1 (quietPins true)).cnt ≠ 0 ∧
      (within .setup 1 (quietPins true)).pins.rst = false ∧ (within .setup 1 (quietPins true)).pins.busFault = false) ∧
    ((within .shiftLo 0 (quietPins true)).phase = .shiftLo ∧ (within .shiftLo 0 (quietPins true)).cnt = 0 ∧
      (within .shiftLo 0 (quietPins true)).pins.rst = false ∧ (within .shiftLo 0 (quietPins true)).pins.busFault = false) := by decide

/-- Counting; inside a byte; at the end of a byte that is not the last; at the end of the last. -/
theorem witness_HighPhaseCountsAndThenLowersSck :
    ((within .shiftHi 1 (quietPins true)).pins.rst = false ∧ (within .shiftHi 1 (quietPins true)).pins.busFault = false ∧
      (within .shiftHi 1 (quietPins true)).cnt ≠ 0) ∧
    (within .shiftHi 0 (quietPins true)).bitIdx ≠ 0 ∧
    ({ within .shiftHi 0 (quietPins true) with bitIdx := 0 }.byteIdx.val + 1 < (within .shiftHi 0 (quietPins true)).frameLen.toNat) ∧
    ({ within .shiftHi 0 (quietPins true) with bitIdx := 0, byteIdx := 1 }.byteIdx.val + 1 =
      (within .shiftHi 0 (quietPins true)).frameLen.toNat) := by decide

theorem witness_HoldReleasesChipSelectAndCompletes : (within .hold 0 (quietPins true)).phase = .hold ∧
    (within .hold 0 (quietPins true)).pins.rst = false ∧ (within .hold 1 (quietPins true)).cnt ≠ 0 := by decide

/-- A read of FIFO_STATUS, and a completion that is none. -/
theorem witness_SuccessWritesTheResponseAndTheFlags :
    let s := within .hold 0 (quietPins true)
    s.phase = .hold ∧ s.cnt = 0 ∧ s.pins.rst = false ∧ s.faultL = false ∧
      ((s.opL = .readReg ∨ s.opL = .readBuf) ∧ s.addrL = 0x17 ∧ 1 ≤ s.nrxL.toNat) ∧
      ¬ ((s.opL = .readReg ∨ s.opL = .readBuf) ∧ ({ s with addrL := 0x16 } : State).addrL = 0x17 ∧ 1 ≤ s.nrxL.toNat) := by decide

theorem witness_TransportErrorKeepsTheFlags :
    let s := { within .hold 0 (quietPins true) with faultL := true }
    s.phase = .hold ∧ s.cnt = 0 ∧ s.pins.rst = false ∧ s.faultL = true := by decide

theorem witness_GapCountsAndThenIdles : (within .gap 0 (quietPins true)).phase = .gap ∧
    (within .gap 0 (quietPins true)).pins.rst = false ∧ (within .gap 1 (quietPins true)).cnt ≠ 0 := by decide

/-- A fault in SETUP, and no reset in the T_HOLD edges after the abort. -/
theorem witness_TransportFaultAbortsAndReleases :
    let s := { within .setup 0 (quietPins false) with inputs := [{ quietPins false with busFault := true }, quietPins false] }
    s.phase = .setup ∧ s.pins.rst = false ∧ s.pins.busFault = true ∧
      ∀ n, 1 ≤ n → n ≤ (s.build.tHold : Nat) → (s.pinsAfter n).rst = false := by
  refine ⟨rfl, rfl, rfl, fun n h1 h2 => ?_⟩
  have : n = 1 := Nat.le_antisymm h2 h1
  subst this; rfl

theorem witness_FaultOutsideAFrameIsIgnored : (within .hold 0 (quietPins true)).phase = .hold ∧
    (within .hold 0 (quietPins true)).inputs = [quietPins true] ∧ (within .gap 0 (quietPins true)).phase = .gap ∧
    (fresh [quietPins true]).phase = .idle := by decide

theorem witness_ResponseHoldsBetweenCompletions :
    let s := within .shiftHi 0 (quietPins true)
    step s = .next (nextOf s) ∧ s.pins.rst = false ∧ ¬ (s.phase = .hold ∧ s.cnt = 0) ∧
      ¬ (s.phase = .idle ∧ s.pins.reqValid = true ∧ validate s.portOp s.pins.reqAddr s.pins.reqLen ≠ .ok) :=
  ⟨rfl, rfl, by decide, by decide⟩

/-- R48 holds in mid-frame, in any phase the helper builds with chip-select asserted. -/
theorem inv_within (ph : Phase) (h : ph.selected = true) (cnt : Nat) (p : Pins) : Inv (within ph cnt p) := by
  constructor
  · show (!ph.selected) = false ↔ _; simp [h, within]
  · show (ph == .shiftHi) = true ↔ _; simp [within]
  · intro _; show 1 ≤ (2 : BitVec 6).toNat ∧ (2 : BitVec 6).toNat ≤ 33 ∧ (0 : Fin 33).val < (2 : BitVec 6).toNat; decide
  · show (1 : BitVec 6).toNat = if ReqOp.readReg.isRead = true then (2 : BitVec 6).toNat - 1 else 0; decide
  · intro hd; cases hd
  · intro hc; change (!ph.selected) = true at hc; simp [h] at hc

/-- R48 holds in IDLE, whatever is offered. -/
theorem inv_fresh (ps : List Pins) : Inv (fresh ps) := by
  constructor <;> simp [fresh, State.reset, Phase.selected, Phase.abortable, ReqOp.isRead, ReqOp.code]

/-- The completion edge, and the acceptance of a bad request. -/
theorem witness_DoneMarksEveryCompletionAndNothingElse :
    (Inv (within .hold 0 (quietPins true)) ∧ step (within .hold 0 (quietPins true)) = .next (nextOf (within .hold 0 (quietPins true)))) ∧
    (Inv (offers (.rreg 0x18)) ∧ step (offers (.rreg 0x18)) = .next (nextOf (offers (.rreg 0x18)))) :=
  ⟨⟨inv_within _ rfl _ _, rfl⟩, inv_fresh _, rfl⟩

/-- Chip-select high, and low. -/
theorem witness_ChipSelectMovesOnlyAtTheEnds :
    (Inv (offers (.rreg 0x17)) ∧ step (offers (.rreg 0x17)) = .next (nextOf (offers (.rreg 0x17))) ∧ (offers (.rreg 0x17)).csnR = true) ∧
    (Inv (within .hold 0 (quietPins true)) ∧ step (within .hold 0 (quietPins true)) = .next (nextOf (within .hold 0 (quietPins true))) ∧
      (within .hold 0 (quietPins true)).csnR = false) :=
  ⟨⟨inv_fresh _, rfl, rfl⟩, inv_within _ rfl _ _, rfl, rfl⟩

theorem witness_MosiChangesOnlyAtFallingSck : Inv (offers (.wreg 0xFF 0x00)) ∧
    step (offers (.wreg 0xFF 0x00)) = .next (nextOf (offers (.wreg 0xFF 0x00))) ∧
    (nextOf (offers (.wreg 0xFF 0x00))).mosiR ≠ (offers (.wreg 0xFF 0x00)).mosiR :=
  ⟨inv_fresh _, rfl, by decide⟩

/-- A rising SCK, and a falling one. -/
theorem witness_SckMovesOnlyInAFrame :
    (Inv (within .setup 0 (quietPins true)) ∧ step (within .setup 0 (quietPins true)) = .next (nextOf (within .setup 0 (quietPins true))) ∧
      (nextOf (within .setup 0 (quietPins true))).sckR ≠ (within .setup 0 (quietPins true)).sckR) ∧
    (Inv (within .shiftHi 0 (quietPins true)) ∧
      step (within .shiftHi 0 (quietPins true)) = .next (nextOf (within .shiftHi 0 (quietPins true))) ∧
      (nextOf (within .shiftHi 0 (quietPins true))).sckR ≠ (within .shiftHi 0 (quietPins true)).sckR) :=
  ⟨⟨inv_within _ rfl _ _, rfl, by decide⟩, inv_within _ rfl _ _, rfl, by decide⟩

/-- A rising SCK, and an edge that is none. -/
theorem witness_MisoIsSampledExactlyAtRisingSck :
    (Inv (within .setup 0 (quietPins true)) ∧ step (within .setup 0 (quietPins true)) = .next (nextOf (within .setup 0 (quietPins true))) ∧
      (within .setup 0 (quietPins true)).pins.rst = false ∧ (within .setup 0 (quietPins true)).sckR = false ∧
      (nextOf (within .setup 0 (quietPins true))).sckR = true) ∧
    (Inv (within .shiftHi 0 (quietPins true)) ∧ (nextOf (within .shiftHi 0 (quietPins true))).sckR = false) :=
  ⟨⟨inv_within _ rfl _ _, rfl, rfl, rfl, by decide⟩, inv_within _ rfl _ _, by decide⟩

/-- Two states in mid-frame, MISO 0 in one and 1 in the other, and different bits received before. -/
theorem witness_DeviceCannotInfluenceTheBus :
    let s := within .setup 0 (quietPins false)
    let t := { within .setup 0 (quietPins true) with rxSh := 0xA5 }
    t = { s with
      rxSh := t.rxSh, rxFrame := t.rxFrame, rspStatus := t.rspStatus, rspRdata := t.rspRdata, stRxDr := t.stRxDr,
      stTxDs := t.stTxDs, stMaxRt := t.stMaxRt, fifoRxEmpty := t.fifoRxEmpty, inputs := t.inputs, tick := t.tick } ∧
    ∀ n, t.pinsAfter n = { s.pinsAfter n with miso := (t.pinsAfter n).miso } := by
  refine ⟨rfl, fun n => ?_⟩
  cases n <;> rfl

theorem witness_EveryStepKeepsTheReachableInvariants : Inv (within .setup 0 (quietPins true)) ∧
    step (within .setup 0 (quietPins true)) = .next (nextOf (within .setup 0 (quietPins true))) :=
  ⟨inv_within _ rfl _ _, rfl⟩

/-- What the engine relies on holds in SETUP with bit 7 of the opcode 0x17 on MOSI. -/
theorem engine_setup (p : Pins) : EngineInv (within .setup 0 p) := by
  constructor
  · exact Nat.le_refl _
  · intro _; exact ⟨by show (loadFrame [0x17, 0xFF]).get 0 = opcode .readReg 0x17; decide, by show addrClass 0x17 ≠ .invalid; decide⟩
  · show ∀ k : Fin 33, (2 : BitVec 6).toNat ≤ k.val → (loadFrame [0x17, 0xFF]).get k = 0x00
    decide
  · intro _; show false = ((loadFrame [0x17, 0xFF]).get 0).getLsbD 7; decide
  · intro _; rfl

theorem witness_EveryStepKeepsTheEngineInvariants : EngineInv (within .setup 0 (quietPins true)) ∧
    step (within .setup 0 (quietPins true)) = .next (nextOf (within .setup 0 (quietPins true))) :=
  ⟨engine_setup _, rfl⟩

/-- One step after a reset, a request accepted. -/
theorem witness_ReachableStatesObeyTheInvariants : (nextOf (offers (.rreg 0x17))).reachable :=
  ⟨offers (.rreg 0x17), 1, rfl, rfl⟩

theorem witness_OpcodeOnTheWireIsAlwaysLegal : EngineInv (within .setup 0 (quietPins true)) ∧
    (within .setup 0 (quietPins true)).csnR = false := ⟨engine_setup _, rfl⟩

theorem witness_BlockReturnsToIdleInBoundedTime : Inv (within .setup 0 (quietPins true)) ∧
    EngineInv (within .setup 0 (quietPins true)) := ⟨inv_within _ rfl _ _, engine_setup _⟩

/-- T1's transaction: a status probe offered, and eighteen quiet cycles after it in which the device returns 0xFF. -/
def probe : State := fresh ((Line.wreg 0xFF 0x00).offered true :: List.replicate 18 (quietPins true))

theorem quiet_probe : probe.quiet 18 := by
  intro n h1 h2
  have h : ∀ n < 19, 1 ≤ n → (probe.pinsAfter n).rst = false ∧ (probe.pinsAfter n).busFault = false := by decide
  exact h n (by omega) h1

theorem presents_probe : probe.presents 1 fun _ => 0xFF := by
  have h : ∀ n < 8, (probe.pinsAfter (riseAt probe.build n)).miso = (0xFF : Byte).getLsbD (7 - n % 8) := by decide
  exact h

theorem witness_EveryTransactionAgreesWithItsFrame : probe.reqReady = true ∧
    validate (requestOf .nop probe).1 (requestOf .nop probe).2.2 (requestOf .nop probe).2.1 = .ok ∧
    probe.quiet (doneAt probe.build
      (frameOf probe.build (requestOf .nop probe).1 (requestOf .nop probe).2.2 (requestOf .nop probe).2.1 probe.pins.reqWdata).length) ∧
    (probe.presents
      (frameOf probe.build (requestOf .nop probe).1 (requestOf .nop probe).2.2 (requestOf .nop probe).2.1 probe.pins.reqWdata).length
      fun _ => 0xFF) ∧
    ¬ ((requestOf .nop probe).1.isRead = true ∧ (requestOf .nop probe).2.2 = 0x17) :=
  ⟨rfl, rfl, fun n h1 h2 => quiet_probe n h1 (Nat.le_trans h2 (by decide)), presents_probe, by decide⟩

/-- A read of FIFO_STATUS offered, and its 33 edges (95_test_vectors.md 2.6), the device returning 0xFF. -/
def fifoRead : State := fresh ((Line.rreg 0x17).offered true :: List.replicate 33 (quietPins true))

theorem witness_EveryTransactionAgreesWithItsFrame_fifo : fifoRead.reqReady = true ∧ validate .readReg 0x17 1 = .ok ∧
    doneAt fifoRead.build (frameOf fifoRead.build .readReg 0x17 1 fifoRead.pins.reqWdata).length = 33 ∧ fifoRead.quiet 33 ∧
    (fifoRead.presents (frameOf fifoRead.build .readReg 0x17 1 fifoRead.pins.reqWdata).length fun _ => 0xFF) ∧
    ReqOp.readReg.isRead = true := by
  have hq : ∀ n < 34, 1 ≤ n → (fifoRead.pinsAfter n).rst = false ∧ (fifoRead.pinsAfter n).busFault = false := by decide
  have hp : ∀ n < 16, (fifoRead.pinsAfter (riseAt fifoRead.build n)).miso = (0xFF : Byte).getLsbD (7 - n % 8) := by decide
  exact ⟨rfl, rfl, by decide, fun n h1 h2 => hq n (by omega) h1, hp, rfl⟩

theorem witness_WireCarriesTheFrame : Inv probe ∧ probe.reqReady = true ∧
    validate (requestOf .nop probe).1 (requestOf .nop probe).2.2 (requestOf .nop probe).2.1 = .ok ∧
    probe.quiet (doneAt probe.build
      (frameOf probe.build (requestOf .nop probe).1 (requestOf .nop probe).2.2 (requestOf .nop probe).2.1 probe.pins.reqWdata).length) :=
  ⟨inv_fresh _, rfl, rfl, fun n h1 h2 => quiet_probe n h1 (Nat.le_trans h2 (by decide))⟩

/-- The edge that enters IDLE again is edge 18 (T1). -/
theorem witness_TransactionKeepsTheEdgeSchedule : probe.reqReady = true ∧
    validate (requestOf .nop probe).1 (requestOf .nop probe).2.2 (requestOf .nop probe).2.1 = .ok ∧
    readyAt probe.build (frameLength (requestOf .nop probe).1 (requestOf .nop probe).2.2 (requestOf .nop probe).2.1) = 18 ∧
    probe.quiet 18 := ⟨rfl, rfl, by decide, quiet_probe⟩

theorem witness_ReferenceSlaveKeepsStickyFlags :
    (slave.answer [0x17, 0xFF]).map (fun e => e.1) = some [0x0E, 0x01] ∧ (0x17 : Byte) ≠ 0x27 := by decide

theorem witness_ReferenceSlaveReadsBack : inRegSet 0x10 = true ∧ (0x10 : BitVec 5) ≠ 0x07 ∧ (0x10 : BitVec 5) ≠ 0x17 ∧
    [0x11, 0x22, 0x33, 0x44, (0x55 : Byte)].length = regWidth 0x10 ∧
    (List.replicate 5 (0xFF : Byte)).length = [0x11, 0x22, 0x33, 0x44, (0x55 : Byte)].length := by decide

/-- The sizes at both ends of their range, and a state of the slave in which 32-byte payloads stand. -/
theorem witness_ReferenceSlaveMeetsTheDeviceContract : (1 ≤ 1 ∧ 1 ≤ 32) ∧ (1 ≤ 32 ∧ 32 ≤ 32) ∧
    (slave.setReg 0x11 [0x20]).reg 0x11 = [BitVec.ofNat 8 32] ∧ ∀ p ∈ (slave.setReg 0x11 [0x20]).rxf, p.length = 32 := by decide

end Sys2Proof.Machine.Slice0
end

section
/-! PROOFS. The family of 10_state.md: what an edge can do as one relation, the invariants of reachable states and of the engine, the
strobe `done`, and the bounded return to IDLE. -/

namespace Sys2Proof.Machine

/-! ### The phases -/

/-- The phases that end with a rising SCK can be aborted (R113). -/
theorem Phase.abortable_of_low {p : Phase} (h : p = .setup ∨ p = .shiftLo) : p.abortable = true := by
  rcases h with rfl | rfl <;> rfl

/-- An abort or an edge of SETUP, SHIFT_LO or SHIFT_HI happens under chip-select. -/
theorem Phase.selected_of_abortable {p : Phase} (h : p.abortable = true) : p.selected = true := by
  revert h; cases p <;> decide

/-! ### The rule that applies at an edge, as a relation with one named case for each row of R106 to R113 -/

/-- `StepRule s u`: at the edge that ends the cycle of `s`, one rule of the spec applies and gives the registers `u`. Each constructor
carries the rule's whole guard. -/
inductive StepRule (s : State) : State → Prop where
  | reset (hr : s.pins.rst = true) : StepRule s (resetEdge s)
  | idle (hr : s.pins.rst = false) (hp : s.phase = .idle) (hv : s.pins.reqValid = false) : StepRule s (idleEdge s)
  | begin (hr : s.pins.rst = false) (hp : s.phase = .idle) (hv : s.pins.reqValid = true)
      (hok : validate s.portOp s.pins.reqAddr s.pins.reqLen = .ok) :
      StepRule s (beginTransaction s.portOp s.pins.reqLen s.pins.reqAddr s)
  | reject (e : Completion) (he : e = .invalidAddress ∨ e = .invalidLength) (hr : s.pins.rst = false) (hp : s.phase = .idle)
      (hv : s.pins.reqValid = true) (hbad : validate s.portOp s.pins.reqAddr s.pins.reqLen ≠ .ok) :
      StepRule s (completeError e s)
  | abort (hr : s.pins.rst = false) (hp : s.phase.abortable = true) (hf : s.pins.busFault = true) : StepRule s (abortEdge s)
  | rise (hr : s.pins.rst = false) (hp : s.phase = .setup ∨ s.phase = .shiftLo) (hf : s.pins.busFault = false)
      (hc : s.cnt = 0) : StepRule s (rise s)
  | count (hr : s.pins.rst = false) (hp : s.phase = .setup ∨ s.phase = .shiftLo ∨ s.phase = .shiftHi ∨ s.phase = .hold)
      (hf : s.phase.abortable = true → s.pins.busFault = false) (hc : s.cnt ≠ 0) : StepRule s (countDown s)
  | fallToHold (hr : s.pins.rst = false) (hp : s.phase = .shiftHi) (hf : s.pins.busFault = false) (hc : s.cnt = 0)
      (hb : s.bitIdx = 0) (hk : s.byteIdx.val = s.frameLen.toNat - 1) : StepRule s (fallToHold s)
  | fallToNextByte (hr : s.pins.rst = false) (hp : s.phase = .shiftHi) (hf : s.pins.busFault = false) (hc : s.cnt = 0)
      (hb : s.bitIdx = 0) (hk : s.byteIdx.val ≠ s.frameLen.toNat - 1) : StepRule s (fallToNextByte s)
  | fallToNextBit (hr : s.pins.rst = false) (hp : s.phase = .shiftHi) (hf : s.pins.busFault = false) (hc : s.cnt = 0)
      (hb : s.bitIdx ≠ 0) : StepRule s (fallToNextBit s)
  | releaseFault (hr : s.pins.rst = false) (hp : s.phase = .hold) (hc : s.cnt = 0) (hl : s.faultL = true) :
      StepRule s (release (completeTransportError s))
  | releaseOK (hr : s.pins.rst = false) (hp : s.phase = .hold) (hc : s.cnt = 0) (hl : s.faultL = false) :
      StepRule s (release (completeOK s))
  | gapEnd (hr : s.pins.rst = false) (hp : s.phase = .gap) (hc : s.cnt = 0) : StepRule s (gapEnd s)
  | gapWait (hr : s.pins.rst = false) (hp : s.phase = .gap) (hc : s.cnt ≠ 0) : StepRule s (gapWait s)

/-- Outside IDLE, without a reset or an abort, the phase's own rule is one of the relation. -/
theorem stepRule_phaseEdge {s : State} (hr : s.pins.rst = false) (hp : s.phase ≠ .idle)
    (hf : s.phase.abortable = true → s.pins.busFault = false) : StepRule s (phaseEdge s) := by
  have hlow : s.phase = .setup ∨ s.phase = .shiftLo → s.pins.busFault = false := fun h => hf (Phase.abortable_of_low h)
  have hhigh : s.phase = .shiftHi → s.pins.busFault = false := fun h => hf (by rw [h]; rfl)
  rcases phaseEdge_cases s with ⟨h, e⟩ | ⟨h, hc, e⟩ | ⟨h, hc, e⟩ | ⟨h, hc, hb, hk, e⟩ | ⟨h, hc, hb, hk, e⟩ | ⟨h, hc, hb, e⟩ |
    ⟨h, hc, hl, e⟩ | ⟨h, hc, hl, e⟩ | ⟨h, hc, e⟩ | ⟨h, hc, e⟩ <;> rw [e]
  · exact absurd h hp
  · exact .rise hr h (hlow h) hc
  · exact .count hr h hf hc
  · exact .fallToHold hr h (hhigh h) hc hb hk
  · exact .fallToNextByte hr h (hhigh h) hc hb hk
  · exact .fallToNextBit hr h (hhigh h) hc hb
  · exact .releaseFault hr h hc hl
  · exact .releaseOK hr h hc hl
  · exact .gapEnd hr h hc
  · exact .gapWait hr h hc

/-- Every step is one rule of the relation, and then the clock edge as such. -/
theorem stepRule_of_step {s t : State} (h : step s = .next t) : ∃ u, StepRule s u ∧ t = u.advance := by
  rcases step_inversion h with ⟨hr, e⟩ | ⟨hr, hp, hv, e⟩ | ⟨hr, hp, hv, hok, e⟩ | ⟨hr, hp, hv, hbad, c, hc, e⟩ | ⟨hr, hp, hf, e⟩ |
    ⟨hr, hp, hf, e⟩
  · exact ⟨_, .reset hr, e⟩
  · exact ⟨_, .idle hr hp hv, e⟩
  · exact ⟨_, .begin hr hp hv hok, e⟩
  · exact ⟨_, .reject c hc hr hp hv hbad, e⟩
  · exact ⟨_, .abort hr hp hf, e⟩
  · exact ⟨_, stepRule_phaseEdge hr hp hf, e⟩

/-! ### What the acceptance of a valid request loads -/

theorem begin_frameLen {op : ReqOp} {len : BitVec 6} {addr : Byte} (h : validate op addr len = .ok) (s : State) :
    (beginTransaction op len addr s).frameLen.toNat = dataLen op addr len + 1 := by
  have := dataLen_le h
  rw [beginTransaction, loadTransaction_frameLen, BitVec.toNat_ofNat, frameOf_length, Nat.mod_eq_of_lt (by omega)]

theorem begin_nrxL {op : ReqOp} {len : BitVec 6} {addr : Byte} (h : validate op addr len = .ok) (s : State) :
    (beginTransaction op len addr s).nrxL.toNat = rxCount op addr len := by
  have := rxCount_le h
  rw [beginTransaction, loadTransaction_nrxL, BitVec.toNat_ofNat, Nat.mod_eq_of_lt (by omega)]

theorem begin_txFrame (op : ReqOp) (len : BitVec 6) (addr : Byte) (s : State) (k : Fin 33) :
    (beginTransaction op len addr s).txFrame.get k = (frameOf s.build op addr len s.pins.reqWdata).getD k.val 0x00 := by
  rw [beginTransaction, loadTransaction_txFrame, loadFrame_get]

/-! ### The position in the frame -/

/-- The next byte of a frame: no index wraps below 32. -/
theorem byteIdx_succ {k : Fin 33} (h : k.val + 1 < 33) : (k + 1).val = k.val + 1 :=
  Fin.val_add_one_of_lt (Fin.lt_def.2 (Nat.lt_of_succ_lt_succ h))

/-- The next bit of a byte: no index wraps above 0. -/
theorem bitIdx_pred {j : Fin 8} (h : j ≠ 0) : (j - 1).val = j.val - 1 := Fin.sub_val_of_le (Fin.one_le_of_ne_zero h)

/-! ### The six items of R48, each kept by every rule -/

section

variable {s u : State}

/-- `done` is low while chip-select is asserted. -/
theorem Inv.done_low (h : Inv s) (hp : s.phase.selected = true) : ¬ s.doneR = true := by
  intro hd
  rcases h.done_strobe hd with ⟨hg, -⟩ | ⟨hi, -⟩
  · rw [hg] at hp; cases hp
  · rw [hi] at hp; cases hp

/-- Item 1: chip-select is asserted exactly in the selected phases. -/
theorem StepRule.chip_select (hu : StepRule s u) (h : Inv s) : u.csnR = false ↔ u.phase.selected = true := by
  have hs := h.chip_select
  cases hu with
  | reset | begin | releaseFault | releaseOK => simp [beginTransaction, Phase.selected]
  | idle | reject | count | gapWait => exact hs
  | abort _ hp => exact hs.trans (iff_of_true (Phase.selected_of_abortable hp) rfl)
  | rise _ hp => rcases hp with hp | hp <;> simpa [hp, Phase.selected] using hs
  | fallToHold _ hp | fallToNextByte _ hp | fallToNextBit _ hp | gapEnd _ hp => simpa [hp, Phase.selected] using hs

/-- Item 2: SCK is high exactly in SHIFT_HI. -/
theorem StepRule.clock_high (hu : StepRule s u) (h : Inv s) : u.sckR = true ↔ u.phase = .shiftHi := by
  have hs := h.clock_high
  cases hu with
  | reset | begin | abort | rise | fallToHold | fallToNextByte | fallToNextBit => simp [beginTransaction]
  | idle | reject | count | gapWait => exact hs
  | releaseFault _ hp | releaseOK _ hp | gapEnd _ hp => simpa [hp] using hs

/-- Item 3: a frame has 1 to 33 bytes, and the byte on the wire is one of them. -/
theorem StepRule.frame_bounds (hu : StepRule s u) (h : Inv s) (ha : u.phase.abortable = true) :
    1 ≤ u.frameLen.toNat ∧ u.frameLen.toNat ≤ 33 ∧ u.byteIdx.val < u.frameLen.toNat := by
  have hs := h.frame_bounds
  cases hu with
  | reset | abort | fallToHold | releaseFault | releaseOK | gapEnd => cases ha
  | idle | reject | count | gapWait => exact hs ha
  | begin _ _ _ hok =>
    have hlen := dataLen_le hok
    have hfirst : (beginTransaction s.portOp s.pins.reqLen s.pins.reqAddr s).byteIdx.val = 0 := rfl
    rw [begin_frameLen hok, hfirst]
    omega
  | rise _ hp => exact hs (Phase.abortable_of_low hp)
  | fallToNextBit _ hp => exact hs (by rw [hp]; rfl)
  | fallToNextByte _ hp _ _ _ hk =>
    obtain ⟨h1, h33, hlt⟩ := hs (by rw [hp]; rfl)
    rw [fallToNextByte_byteIdx, fallToNextByte_frameLen, byteIdx_succ (by omega)]
    omega

/-- Item 4: the read count goes with the latched operation and the frame's length; only a reset and an acceptance move them. -/
theorem StepRule.read_count (hu : StepRule s u) (h : Inv s) :
    u.nrxL.toNat = if u.opL.isRead then u.frameLen.toNat - 1 else 0 := by
  have hs := h.read_count
  cases hu with
  | reset => simp
  | begin _ _ _ hok =>
    rw [begin_nrxL hok, begin_frameLen hok, rxCount]
    rfl
  | releaseOK => simpa using hs
  | idle | reject | abort | rise | count | fallToHold | fallToNextByte | fallToNextBit | releaseFault | gapEnd | gapWait => exact hs

/-- The two edges that raise `done`: the release at the end of HOLD, and the completion of a bad request in IDLE (R111, R122). -/
theorem StepRule.done_raised (hu : StepRule s u) (h : Inv s) (hd : u.doneR = true) : s.pins.rst = false ∧
    ((s.phase = .hold ∧ s.cnt = 0 ∧ u.phase = .gap ∧ u.cnt = reload u.build.tIdle) ∨
      ((s.phase = .idle ∧ s.pins.reqValid = true ∧ validate s.portOp s.pins.reqAddr s.pins.reqLen ≠ .ok) ∧
        u.phase = .idle ∧ (u.rspErr = .invalidAddress ∨ u.rspErr = .invalidLength))) := by
  cases hu with
  | reset | idle | begin | gapEnd | gapWait => cases hd
  | releaseFault hr hp hc | releaseOK hr hp hc => exact ⟨hr, .inl ⟨hp, hc, rfl, by simp⟩⟩
  | reject e he hr hp hv hbad => exact ⟨hr, .inr ⟨⟨hp, hv, hbad⟩, hp, by rcases he with rfl | rfl <;> simp⟩⟩
  | abort _ hp => exact absurd hd (h.done_low (Phase.selected_of_abortable hp))
  | rise _ hp => exact absurd hd (h.done_low (Phase.selected_of_abortable (Phase.abortable_of_low hp)))
  | count _ hp => exact absurd hd (h.done_low (by rcases hp with hp | hp | hp | hp <;> rw [hp] <;> rfl))
  | fallToHold _ hp | fallToNextByte _ hp | fallToNextBit _ hp => exact absurd hd (h.done_low (by rw [hp]; rfl))

/-- Item 5: `done` is high only in the first cycle of GAP, or in IDLE with the code of a bad request. -/
theorem StepRule.done_strobe (hu : StepRule s u) (h : Inv s) (hd : u.doneR = true) :
    (u.phase = .gap ∧ u.cnt = reload u.build.tIdle) ∨
    (u.phase = .idle ∧ (u.rspErr = .invalidAddress ∨ u.rspErr = .invalidLength)) := by
  obtain ⟨-, ⟨-, -, hg⟩ | ⟨-, hi⟩⟩ := hu.done_raised h hd
  · exact .inl hg
  · exact .inr hi

/-- Item 6: MOSI is 0 while chip-select is released. -/
theorem StepRule.mosi_idle (hu : StepRule s u) (h : Inv s) (hcs : u.csnR = true) : u.mosiR = false := by
  cases hu with
  | reset | releaseFault | releaseOK => rfl
  | begin => cases hcs
  | idle | reject | abort | rise | count | fallToHold | gapEnd | gapWait => exact h.mosi_idle hcs
  | fallToNextByte _ hp | fallToNextBit _ hp =>
    have hlow : s.csnR = false := h.chip_select.2 (by rw [hp]; rfl)
    exact absurd (hlow.symm.trans hcs) (by decide)

/-- The six items together. -/
theorem StepRule.inv (hu : StepRule s u) (h : Inv s) : Inv u :=
  ⟨hu.chip_select h, hu.clock_high h, hu.frame_bounds h, hu.read_count h, hu.done_strobe h, hu.mosi_idle h⟩

theorem Inv.advance (h : Inv s) : Inv s.advance :=
  ⟨h.chip_select, h.clock_high, h.frame_bounds, h.read_count, h.done_strobe, h.mosi_idle⟩

end

/-- Settles O48: a step is one rule of the relation, and each rule keeps each item. -/
theorem everyStepKeepsTheReachableInvariants : Obligations.EveryStepKeepsTheReachableInvariants := by
  intro s t h hst
  obtain ⟨u, hu, rfl⟩ := stepRule_of_step hst
  exact (hu.inv h).advance

/-! ### What the engine relies on, each item kept by every rule -/

section

variable {s u : State}

/-- `cnt` is at most what its phase is entered with (R32). -/
theorem StepRule.cnt_bounded (hu : StepRule s u) (h : EngineInv s) : u.cnt ≤ cntLimit u.build u.phase := by
  have hs := h.cnt_bounded
  cases hu with
  | reset | begin | abort | rise | fallToHold | fallToNextByte | fallToNextBit => exact Nat.le_refl _
  | releaseFault | releaseOK => simp [cntLimit]
  | idle | reject => exact hs
  | count | gapWait => exact Nat.le_trans (Nat.sub_le _ _) hs
  | gapEnd _ _ hc => exact Nat.le_of_eq hc

/-- The frame on the wire begins with the opcode of a valid address (R84): the acceptance loads it, and no rule moves it under
chip-select. -/
theorem StepRule.opcode_legal (hu : StepRule s u) (h : EngineInv s) (hcs : u.csnR = false) :
    u.txFrame.get 0 = opcode u.opL u.addrL ∧ addrClass u.addrL ≠ .invalid := by
  cases hu with
  | reset | releaseFault | releaseOK => cases hcs
  | begin _ _ _ hok =>
    refine ⟨?_, ((validate_eq_ok_iff _ _ _).1 hok).1⟩
    rw [begin_txFrame]
    exact frameOf_head ..
  | idle | reject | abort | rise | count | fallToHold | fallToNextByte | fallToNextBit | gapEnd | gapWait =>
    exact h.opcode_legal hcs

/-- `tx_frame` is 0x00 past the frame (R35). -/
theorem StepRule.tail_zero (hu : StepRule s u) (h : EngineInv s) (k : Fin 33) (hk : u.frameLen.toNat ≤ k.val) :
    u.txFrame.get k = 0x00 := by
  cases hu with
  | reset => simp [Vector.get]
  | begin _ _ _ hok =>
    rw [begin_frameLen hok] at hk
    rw [begin_txFrame]
    exact List.getD_eq_default _ _ (by rwa [frameOf_length])
  | releaseOK => simpa using h.tail_zero k (by simpa using hk)
  | idle | reject | abort | rise | count | fallToHold | fallToNextByte | fallToNextBit | releaseFault | gapEnd | gapWait =>
    exact h.tail_zero k hk

/-- MOSI holds the current bit of the current byte (R109). -/
theorem StepRule.mosi_bit (hu : StepRule s u) (h : EngineInv s) (ha : u.phase.abortable = true) :
    u.mosiR = (u.txFrame.get u.byteIdx).getLsbD u.bitIdx.val := by
  cases hu with
  | reset | abort | fallToHold | releaseFault | releaseOK | gapEnd => cases ha
  | begin => rw [begin_txFrame]; rfl
  | fallToNextByte | fallToNextBit => rfl
  | rise _ hp => exact h.mosi_bit (Phase.abortable_of_low hp)
  | idle | reject | count | gapWait => exact h.mosi_bit ha

/-- No fault is latched before an abort, and an abort leaves for HOLD (R37, R113). -/
theorem StepRule.no_fault_yet (hu : StepRule s u) (h : EngineInv s) (ha : u.phase.abortable = true) : u.faultL = false := by
  cases hu with
  | reset | abort | fallToHold | releaseFault | releaseOK | gapEnd => cases ha
  | begin => rfl
  | rise _ hp => exact h.no_fault_yet (Phase.abortable_of_low hp)
  | fallToNextByte _ hp | fallToNextBit _ hp => exact h.no_fault_yet (by rw [hp]; rfl)
  | idle | reject | count | gapWait => exact h.no_fault_yet ha

/-- The five items together. -/
theorem StepRule.engineInv (hu : StepRule s u) (h : EngineInv s) : EngineInv u :=
  ⟨hu.cnt_bounded h, hu.opcode_legal h, hu.tail_zero h, hu.mosi_bit h, hu.no_fault_yet h⟩

theorem EngineInv.advance (h : EngineInv s) : EngineInv s.advance :=
  ⟨h.cnt_bounded, h.opcode_legal, h.tail_zero, h.mosi_bit, h.no_fault_yet⟩

end

/-- Settles O50: a step is one rule of the relation, and each rule keeps each item. -/
theorem everyStepKeepsTheEngineInvariants : Obligations.EveryStepKeepsTheEngineInvariants := by
  intro s t h hst
  obtain ⟨u, hu, rfl⟩ := stepRule_of_step hst
  exact (hu.engineInv h).advance

/-! ### Runs from a reset -/

/-- R48 holds after a reset edge, whatever the build, the inputs and the two unspecified registers. -/
theorem inv_of_justReset {s : State} (h : s.justReset) : Inv s := by
  rw [State.justReset] at h
  rw [h]
  constructor <;> simp [State.reset, Phase.selected, Phase.abortable]

/-- So does what the engine relies on. -/
theorem engineInv_of_justReset {s : State} (h : s.justReset) : EngineInv s := by
  rw [State.justReset] at h
  rw [h]
  constructor <;> simp [State.reset, Phase.abortable, Vector.get]

theorem reset_justReset : State.reset.justReset := rfl

/-- Settles O49. -/
theorem resetHasTheReachableInvariants : Obligations.ResetHasTheReachableInvariants := inv_of_justReset reset_justReset

/-- Settles O51. -/
theorem resetHasTheEngineInvariants : Obligations.ResetHasTheEngineInvariants := engineInv_of_justReset reset_justReset

/-- What every step keeps, every run keeps. -/
theorem after_induction {P : State → Prop} (hstep : ∀ s t, P s → step s = .next t → P t) {s : State} (h : P s) (k : Nat) :
    P (after s k) := by
  induction k with
  | zero => exact h
  | succ k ih =>
    rw [after_succ']
    exact hstep _ _ ih (step_eq _)

/-- What holds after every reset edge and what every step keeps, holds of every reachable state. -/
theorem reachable_induction {P : State → Prop} (hreset : ∀ s, s.justReset → P s) (hstep : ∀ s t, P s → step s = .next t → P t)
    {s : State} (h : s.reachable) : P s := by
  obtain ⟨s₀, k, h₀, hk⟩ := h
  rw [run_eq] at hk
  cases hk
  exact after_induction hstep (hreset s₀ h₀) k

/-- Settles O52: the two invariants by induction over the run, and the strobe from the rules that raise it. -/
theorem reachableStatesObeyTheInvariants : Obligations.ReachableStatesObeyTheInvariants := by
  intro s hs
  have hI : Inv s := reachable_induction (fun _ => inv_of_justReset) everyStepKeepsTheReachableInvariants hs
  have hE : EngineInv s := reachable_induction (fun _ => engineInv_of_justReset) everyStepKeepsTheEngineInvariants hs
  refine ⟨hI, hE, fun t hst hd => ?_⟩
  obtain ⟨u, hu, rfl⟩ := stepRule_of_step hst
  obtain ⟨-, ⟨hp, -, hg, -⟩ | ⟨hbad, -⟩⟩ := hu.done_raised hI hd
  · exact .inl ⟨hp, hg⟩
  · exact .inr hbad

/-! ### The strobe -/

/-- The edges of `StepRule.done_raised` always raise `done`. -/
theorem StepRule.done_of_completion {s u : State} (hu : StepRule s u) (hr : s.pins.rst = false)
    (h : (s.phase = .hold ∧ s.cnt = 0) ∨
      (s.phase = .idle ∧ s.pins.reqValid = true ∧ validate s.portOp s.pins.reqAddr s.pins.reqLen ≠ .ok)) : u.doneR = true := by
  cases hu with
  | releaseFault | releaseOK | reject => rfl
  | reset hr' => exact absurd (hr.symm.trans hr') (by decide)
  | idle _ hp hv => simp [hp, hv] at h
  | begin _ hp _ hok => simp [hp, hok] at h
  | abort _ hp => rcases h with ⟨h, -⟩ | ⟨h, -⟩ <;> rw [h] at hp <;> cases hp
  | rise _ hp => rcases hp with hp | hp <;> simp [hp] at h
  | count _ hp _ hc => rcases hp with hp | hp | hp | hp <;> simp [hp, hc] at h
  | fallToHold _ hp | fallToNextByte _ hp | fallToNextBit _ hp | gapEnd _ hp | gapWait _ hp => simp [hp] at h

/-- Settles O42. -/
theorem doneMarksEveryCompletionAndNothingElse : Obligations.DoneMarksEveryCompletionAndNothingElse := by
  intro s t h hst
  obtain ⟨u, hu, rfl⟩ := stepRule_of_step hst
  refine ⟨fun hd => ?_, fun ⟨hr, hc⟩ => hu.done_of_completion hr hc⟩
  obtain ⟨hr, ⟨hp, hc, -⟩ | ⟨hbad, -⟩⟩ := hu.done_raised h hd
  · exact ⟨hr, .inl ⟨hp, hc⟩⟩
  · exact ⟨hr, .inr hbad⟩

/-! ### The bounded return to IDLE: a measure that every edge of a busy phase lowers -/

theorem reload_add_one (d : ℕ+) : reload d + 1 = (d : Nat) := by
  have := d.pos
  rw [reload]; omega

/-- The bits of the frame that follow the current one. -/
def bitsLeft (s : State) : Nat := 8 * (s.frameLen.toNat - 1 - s.byteIdx.val) + s.bitIdx.val

/-- The most edges that follow the end of the current phase before IDLE, where no reset and no abort comes (R117). -/
def edgesAfterPhase (s : State) : Nat :=
  match s.phase with
  | .idle => 0
  | .setup => (s.build.sckDiv : Nat) + 2 * (s.build.sckDiv : Nat) * bitsLeft s + (s.build.tHold : Nat) + (s.build.tIdle : Nat)
  | .shiftLo => (s.build.sckDiv : Nat) + 2 * (s.build.sckDiv : Nat) * bitsLeft s + (s.build.tHold : Nat) + (s.build.tIdle : Nat)
  | .shiftHi => 2 * (s.build.sckDiv : Nat) * bitsLeft s + (s.build.tHold : Nat) + (s.build.tIdle : Nat)
  | .hold => (s.build.tIdle : Nat)
  | .gap => 0

/-- The most edges before IDLE. -/
def remaining (s : State) : Nat := if s.phase = .idle then 0 else s.cnt + 1 + edgesAfterPhase s

section

variable {s u : State}

theorem remaining_idle (hp : s.phase = .idle) : remaining s = 0 := if_pos hp

theorem remaining_low (hp : s.phase = .setup ∨ s.phase = .shiftLo) : remaining s =
    s.cnt + 1 + ((s.build.sckDiv : Nat) + 2 * (s.build.sckDiv : Nat) * bitsLeft s + (s.build.tHold : Nat) + (s.build.tIdle : Nat)) := by
  rcases hp with hp | hp <;> simp [remaining, edgesAfterPhase, hp]

theorem remaining_shiftHi (hp : s.phase = .shiftHi) : remaining s =
    s.cnt + 1 + (2 * (s.build.sckDiv : Nat) * bitsLeft s + (s.build.tHold : Nat) + (s.build.tIdle : Nat)) := by
  simp [remaining, edgesAfterPhase, hp]

theorem remaining_hold (hp : s.phase = .hold) : remaining s = s.cnt + 1 + (s.build.tIdle : Nat) := by
  simp [remaining, edgesAfterPhase, hp]

theorem remaining_gap (hp : s.phase = .gap) : remaining s = s.cnt + 1 := by
  simp [remaining, edgesAfterPhase, hp]

theorem remaining_pos (hp : s.phase ≠ .idle) : 0 < remaining s := by
  rw [remaining, if_neg hp]; omega

theorem remaining_release (s : State) : remaining (release s) = (s.build.tIdle : Nat) := by
  rw [remaining_gap rfl, release_cnt, reload_add_one]

/-- A frame that an abort cuts off has more edges to go than HOLD and GAP have. -/
theorem hold_lt_remaining (hp : s.phase.abortable = true) : (s.build.tHold : Nat) + (s.build.tIdle : Nat) < remaining s := by
  cases h : s.phase with
  | idle | hold | gap => rw [h] at hp; cases hp
  | setup => rw [remaining_low (.inl h)]; omega
  | shiftLo => rw [remaining_low (.inr h)]; omega
  | shiftHi => rw [remaining_shiftHi h]; omega

/-- The fall at the end of a byte leaves one bit less. -/
theorem bitsLeft_fallToNextByte (h33 : s.frameLen.toNat ≤ 33) (hk : s.byteIdx.val + 1 < s.frameLen.toNat) (hb : s.bitIdx = 0) :
    bitsLeft s = bitsLeft (fallToNextByte s) + 1 := by
  rw [bitsLeft, bitsLeft, fallToNextByte_frameLen, fallToNextByte_byteIdx, fallToNextByte_bitIdx, byteIdx_succ (by omega), hb]
  have h0 : (0 : Fin 8).val = 0 := rfl
  have h7 : (7 : Fin 8).val = 7 := rfl
  omega

/-- A fall inside a byte leaves one bit less. -/
theorem bitsLeft_fallToNextBit (hb : s.bitIdx ≠ 0) : bitsLeft s = bitsLeft (fallToNextBit s) + 1 := by
  have h0 : s.bitIdx.val ≠ 0 := fun h => hb (Fin.ext h)
  rw [bitsLeft, bitsLeft, fallToNextBit_frameLen, fallToNextBit_byteIdx, fallToNextBit_bitIdx, bitIdx_pred hb]
  omega

/-- A half period that starts with one bit less to go has fewer edges to go. -/
theorem remaining_lt_of_fall (hp : s.phase = .shiftHi) (hu : u.phase = .shiftLo) (hc : u.cnt = reload s.build.sckDiv)
    (hb : u.build = s.build) (hbits : bitsLeft s = bitsLeft u + 1) : remaining u < remaining s := by
  have := reload_add_one s.build.sckDiv
  rw [remaining_shiftHi hp, remaining_low (.inr hu), hc, hb, hbits, Nat.mul_add]
  omega

/-- Every edge of a busy phase brings IDLE nearer, whatever the inputs do. -/
theorem StepRule.remaining_lt (hu : StepRule s u) (h : Inv s) (hp : s.phase ≠ .idle) : remaining u < remaining s := by
  have hpos := remaining_pos hp
  cases hu with
  | reset | gapEnd => rwa [remaining_idle rfl]
  | idle _ hi | reject _ _ _ hi | begin _ hi => exact absurd hi hp
  | abort _ ha =>
    have := reload_add_one s.build.tHold
    have := hold_lt_remaining ha
    rw [remaining_hold rfl, abortEdge_cnt, abortEdge_build]; omega
  | rise _ hl _ hc =>
    have := reload_add_one s.build.sckDiv
    have hbits : bitsLeft (Machine.rise s) = bitsLeft s := rfl
    rw [remaining_low hl, remaining_shiftHi rfl, rise_cnt, rise_build, hbits]; omega
  | count _ _ _ hc | gapWait _ _ hc =>
    have hcnt : s.cnt - 1 < s.cnt := by omega
    simpa [remaining, hp, edgesAfterPhase, bitsLeft] using hcnt
  | fallToHold _ hh =>
    have := reload_add_one s.build.tHold
    have := hold_lt_remaining (s := s) (by rw [hh]; rfl)
    rw [remaining_hold rfl, fallToHold_cnt, fallToHold_build]; omega
  | fallToNextByte _ hh _ _ hb hk =>
    obtain ⟨-, h33, hlt⟩ := h.frame_bounds (by rw [hh]; rfl)
    exact remaining_lt_of_fall hh rfl rfl rfl (bitsLeft_fallToNextByte h33 (by omega) hb)
  | fallToNextBit _ hh _ _ hb => exact remaining_lt_of_fall hh rfl rfl rfl (bitsLeft_fallToNextBit hb)
  | releaseFault _ hh | releaseOK _ hh =>
    simp only [remaining_release, completeTransportError_build, completeOK_build, remaining_hold hh]
    omega

theorem remaining_advance (s : State) : remaining s.advance = remaining s := rfl

/-- After at most `remaining s` edges the block is in IDLE. -/
theorem idle_within_remaining {n : Nat} (h : Inv s) (hn : remaining s ≤ n) : ∃ k ≤ n, (after s k).phase = .idle := by
  induction n generalizing s with
  | zero =>
    refine ⟨0, le_refl _, ?_⟩
    by_contra hp
    have : 0 < remaining s := remaining_pos hp
    omega
  | succ n ih =>
    by_cases hp : s.phase = .idle
    · exact ⟨0, by omega, hp⟩
    · obtain ⟨u, hu, hstep⟩ := stepRule_of_step (step_eq s)
      have hlt := hu.remaining_lt h hp
      have hI : Inv (stepState s) := hstep ▸ (hu.inv h).advance
      have hR : remaining (stepState s) ≤ n := by rw [hstep, remaining_advance]; omega
      obtain ⟨k, hk, hidle⟩ := ih hI hR
      exact ⟨k + 1, by omega, hidle⟩

/-- No frame has more than 264 bits. -/
theorem bitsLeft_le (h33 : s.frameLen.toNat ≤ 33) : bitsLeft s ≤ 263 := by
  have := s.bitIdx.isLt
  rw [bitsLeft]; omega

/-- The bound of the whole block: a transaction of 33 bytes (R117). -/
theorem remaining_le (h : Inv s) (hE : EngineInv s) : remaining s ≤
    (s.build.tSetup : Nat) + 528 * (s.build.sckDiv : Nat) + (s.build.tHold : Nat) + (s.build.tIdle : Nat) := by
  have hc := hE.cnt_bounded
  have hS := reload_add_one s.build.tSetup
  have hD := reload_add_one s.build.sckDiv
  have hH := reload_add_one s.build.tHold
  have hI := reload_add_one s.build.tIdle
  have hbits : s.phase.abortable = true → 2 * (s.build.sckDiv : Nat) * bitsLeft s ≤ 2 * (s.build.sckDiv : Nat) * 263 :=
    fun ha => Nat.mul_le_mul_left _ (bitsLeft_le (h.frame_bounds ha).2.1)
  cases hp : s.phase <;> rw [hp] at hc hbits <;> simp only [cntLimit] at hc
  case idle => rw [remaining_idle hp]; omega
  case setup => have := hbits rfl; rw [remaining_low (.inl hp)]; omega
  case shiftLo => have := hbits rfl; rw [remaining_low (.inr hp)]; omega
  case shiftHi => have := hbits rfl; rw [remaining_shiftHi hp]; omega
  case hold => rw [remaining_hold hp]; omega
  case gap => rw [remaining_gap hp]; omega

end

/-- Settles O54: the measure is within the bound at the start, and chip-select is released in IDLE. -/
theorem blockReturnsToIdleInBoundedTime : Obligations.BlockReturnsToIdleInBoundedTime := by
  intro s h hE
  obtain ⟨k, hk, hidle⟩ := idle_within_remaining h (remaining_le h hE)
  have hI : Inv (after s k) := after_induction everyStepKeepsTheReachableInvariants h k
  refine ⟨k, after s k, hk, run_eq s k, hidle, ?_⟩
  by_contra hcs
  have := hI.chip_select.1 (by simpa using hcs)
  rw [hidle] at this; cases this

/-! ### The outputs, the build, and a port that is not ready -/

/-- Settles O15. -/
theorem outputsAreTheRegisters : Obligations.OutputsAreTheRegisters := by
  intro s
  have hready : (outputs s).reqReady = true ↔ s.phase = .idle ∧ s.pins.rst = false := reqReady_iff s
  have hbusy : (outputs s).busy = true ↔ s.phase ≠ .idle := bne_iff_ne
  have hcode : ∀ e, s.rspErr = e → (outputs s).rspErr = e.code := fun e h => congrArg Completion.code h
  exact ⟨hready, hbusy, rfl, rfl, rfl, rfl, rfl, rfl, rfl, rfl, rfl, rfl, rfl, rfl, rfl, rfl, hcode .ok, hcode .invalidAddress,
    hcode .invalidLength, hcode .transportError⟩

/-- Settles O16. -/
theorem buildParametersNeverChange : Obligations.BuildParametersNeverChange := by
  intro s t h
  rw [step_eq] at h
  cases h
  exact stepState_build s

/-- Settles O29: every instruction is the offer of one request, and an offer to an unready port waits. -/
theorem unreadyPortTakesNoRequest : Obligations.UnreadyPortTakesNoRequest := by
  intro i s h
  rw [exec_eq_offer, offer_waits h]

end Sys2Proof.Machine
end

section
/-! PROOFS. The family of 20_memory.md: what an edge does to chip-select, the opcode on the wire, and the registers of the reference
slave. -/

namespace Sys2Proof.Machine

/-! ### Chip-select: its next value at every edge -/

theorem Phase.abortable_iff {p : Phase} : p.abortable = true ↔ p = .setup ∨ p = .shiftLo ∨ p = .shiftHi := by
  cases p <;> decide

/-- The edge at which a valid request is accepted (R107). -/
abbrev State.begins (s : State) : Prop :=
  s.phase = .idle ∧ s.pins.rst = false ∧ s.pins.reqValid = true ∧ validate s.portOp s.pins.reqAddr s.pins.reqLen = .ok

/-- The edges that leave chip-select high whatever it was: a reset and the end of HOLD (R111, R145). -/
abbrev State.ends (s : State) : Prop := s.pins.rst = true ∨ (s.phase = .hold ∧ s.cnt = 0)

/-- Only the acceptance of a valid request, a reset and the end of HOLD move chip-select. -/
theorem StepRule.csnR_next {s u : State} (hu : StepRule s u) :
    u.csnR = if s.begins then false else if s.ends then true else s.csnR := by
  cases hu with
  | reset hr => simp [hr]
  | idle hr hp hv => simp [hr, hp, hv]
  | begin hr hp hv hok => simp [hr, hp, hv, hok, beginTransaction]
  | reject _ _ hr hp _ hbad => simp [hr, hp, hbad]
  | abort hr hp => rcases Phase.abortable_iff.1 hp with hp | hp | hp <;> simp [hr, hp]
  | rise hr hp => rcases hp with hp | hp <;> simp [hr, hp]
  | count hr hp _ hc => rcases hp with hp | hp | hp | hp <;> simp [hr, hp, hc]
  | fallToHold hr hp | fallToNextByte hr hp | fallToNextBit hr hp | gapEnd hr hp | gapWait hr hp => simp [hr, hp]
  | releaseFault _ hp hc | releaseOK _ hp hc => simp [hp, hc]

/-- Settles O43: the next value of chip-select, where its present value says which of the two ends can come. -/
theorem chipSelectMovesOnlyAtTheEnds : Obligations.ChipSelectMovesOnlyAtTheEnds := by
  intro s t h hst
  obtain ⟨u, hu, rfl⟩ := stepRule_of_step hst
  rw [advance_csnR, hu.csnR_next]
  refine ⟨fun hhigh => ?_, fun hlow => ?_⟩
  · by_cases hb : s.begins <;> simp [hb, hhigh]
  · have hselected := h.chip_select.1 hlow
    have hb : ¬ s.begins := by
      rintro ⟨hidle, -⟩
      rw [hidle] at hselected; cases hselected
    simp [hb, hlow]

/-! ### The opcode of a valid address -/

theorem addrClass_valid_iff (a : Byte) : addrClass a ≠ .invalid ↔ isRegAddr a = true ∨ isCmd a = true := by
  unfold addrClass isCmd
  cases isRegAddr a <;> cases isPayloadCmd a <;> cases isNoargCmd a <;> decide

/-- A register address is a documented 5-bit address under three zero bits (R74). -/
theorem exists_reg_of_isRegAddr {a : Byte} (h : isRegAddr a = true) : ∃ r : BitVec 5, inRegSet r = true ∧ a = r.zeroExtend 8 := by
  have hlow : ∀ a : Byte, a.extractLsb' 5 3 = 0b000 → a = (a.extractLsb' 0 5).zeroExtend 8 := by decide
  obtain ⟨hzero, hset⟩ : a.extractLsb' 5 3 = 0b000 ∧ inRegSet (a.extractLsb' 0 5) = true := by simpa [isRegAddr] using h
  exact ⟨_, hset, hlow a hzero⟩

theorem opcode_read {op : ReqOp} (h : op.isRead = true) (a : Byte) : opcode op a = a := by simp [opcode, h]

theorem opcode_write {op : ReqOp} (h : op.isRead = false) (a : Byte) : opcode op a = 0x20 ||| a := by
  simp [opcode, h, BitVec.or_comm]

/-- The commands of CMD_SET (R14). -/
theorem isCmd_iff (a : Byte) : isCmd a = true ↔ a = 0x61 ∨ a = 0xA0 ∨ a = 0xE1 ∨ a = 0xE2 ∨ a = 0xE3 ∨ a = 0xFF := by
  simp [isCmd, isPayloadCmd, isNoargCmd, or_assoc]

/-- Each command has bit 5 set, so it is its own opcode, read or written (R76). -/
theorem opcode_cmd {a : Byte} (h : isCmd a = true) (op : ReqOp) : opcode op a = a := by
  rcases (isCmd_iff a).1 h with rfl | rfl | rfl | rfl | rfl | rfl <;> cases op <;> rfl

theorem decodeOpcode_cmd {a : Byte} (h : isCmd a = true) : ∃ i, decodeOpcode a = .ok i ∧ WellFormed i = true := by
  rcases (isCmd_iff a).1 h with rfl | rfl | rfl | rfl | rfl | rfl <;> exact ⟨_, rfl, rfl⟩

/-- The opcode of a valid address is a command at a documented address (R84). -/
theorem decodeOpcode_opcode {a : Byte} (h : addrClass a ≠ .invalid) (op : ReqOp) :
    ∃ i, decodeOpcode (opcode op a) = .ok i ∧ WellFormed i = true := by
  rcases (addrClass_valid_iff a).1 h with hreg | hcmd
  · obtain ⟨r, hr, rfl⟩ := exists_reg_of_isRegAddr hreg
    cases hop : op.isRead
    · exact ⟨.wRegister r, by rw [opcode_write hop, decodeOpcode_write hr], hr⟩
    · exact ⟨.rRegister r, by rw [opcode_read hop, decodeOpcode_read hr], hr⟩
  · rw [opcode_cmd hcmd]
    exact decodeOpcode_cmd hcmd

/-- Settles O53: the engine invariant keeps the opcode of a valid address at the head of the frame. -/
theorem opcodeOnTheWireIsAlwaysLegal : Obligations.OpcodeOnTheWireIsAlwaysLegal := by
  intro s h hcs
  obtain ⟨hop, hvalid⟩ := h.opcode_legal hcs
  rw [hop]
  exact decodeOpcode_opcode hvalid s.opL

/-! ### The registers of the reference slave -/

theorem upTo_whole (bytes : List Byte) : upTo bytes.length bytes = bytes := by
  refine List.ext_getElem (upTo_length _ _) fun n _ h => ?_
  simp [upTo, h]

/-- A write as wide as its register leaves the written bytes in it (R131). -/
theorem answer_write_whole {a : BitVec 5} {D : List Byte} (ha : inRegSet a = true) (hs : a ≠ statusAddr)
    (hD : D.length = regWidth a) (x : RefSlave) :
    x.answer ((0x20 ||| a.zeroExtend 8) :: D) = some (x.status :: fillers D.length, x.setReg a D) := by
  rw [answer_eq (decodeOpcode_write ha), command_write hs, ← hD, overwrite_whole]
  rfl

/-- A read as wide as its register returns the bytes that stand in it (R131). -/
theorem answer_read_whole {a : BitVec 5} {fills : List Byte} {x : RefSlave} (ha : inRegSet a = true) (hf : a ≠ 0x17)
    (hw : (x.reg a).length = regWidth a) (hn : fills.length = (x.reg a).length) :
    x.answer (a.zeroExtend 8 :: fills) = some (x.status :: x.reg a, x) := by
  rw [answer_eq (decodeOpcode_read ha), command_read hf, ← hw, List.take_length, hn, upTo_whole]
  rfl

/-- Settles O59: the whole write leaves `D` in the register, and the whole read returns what stands there. -/
theorem referenceSlaveReadsBack : Obligations.ReferenceSlaveReadsBack := by
  intro x a D fills ha hs hf hD hn
  have hreg : (x.setReg a D).reg a = D := by rw [RefSlave.reg_setReg, if_pos rfl]
  have hread := answer_read_whole (fills := fills) (x := x.setReg a D) ha hf (by rwa [hreg]) (by rwa [hreg])
  rw [hreg] at hread
  exact ⟨_, _, _, _, answer_write_whole ha hs hD x, hread, rfl, rfl⟩

end Sys2Proof.Machine
end

section
/-! PROOFS. The family of 30_encoding.md: the two word formats read and written back, the opcode map, the address classes, the frames of
the pseudo-instructions, and what of the request at the port a step runs. -/

namespace Sys2Proof

/-! ### The request descriptor -/

/-- The request of an operation, a length and an address. -/
def ReqOp.request : ReqOp → BitVec 6 → Byte → Instr
  | .readReg => .readReg
  | .readBuf => .readBuf
  | .writeReg => .writeReg
  | .writeBuf => .writeBuf

theorem wellFormed_request (op : ReqOp) (len : BitVec 6) (addr : Byte) : WellFormed (op.request len addr) = true := by
  cases op <;> rfl

theorem encode_request (op : ReqOp) (len : BitVec 6) (addr : Byte) :
    encode (op.request len addr) = .reqw (packReqw op.code len addr) := by
  cases op <;> rfl

theorem decodeReqw_eq_request (w : BitVec 16) :
    decodeReqw w = (reqOpOf (w.extractLsb' 14 2)).request (w.extractLsb' 8 6) (w.extractLsb' 0 8) := by
  cases h : reqOpOf (w.extractLsb' 14 2) <;> simp [decodeReqw, h, ReqOp.request]

theorem decode_encode_request (op : ReqOp) (len : BitVec 6) (addr : Byte) :
    decode (encode (op.request len addr)) = .ok (op.request len addr) := by
  rw [encode_request, decode, decodeReqw_eq_request, packReqw_op, packReqw_len, packReqw_addr, reqOpOf_code]

/-- The three fields cover all 16 bits of a descriptor (R70). -/
theorem packReqw_fields (w : BitVec 16) : packReqw (w.extractLsb' 14 2) (w.extractLsb' 8 6) (w.extractLsb' 0 8) = w := by
  have hhigh : w.extractLsb' 14 2 ++ w.extractLsb' 8 6 = w.extractLsb' 8 8 := BitVec.extractLsb'_append_extractLsb'_eq_extractLsb' rfl
  rw [packReqw, hhigh]
  exact BitVec.extractLsb'_append_extractLsb'

/-! ### The opcode byte -/

/-- A byte under 0b000 is a read of the register its low five bits name, or reserved (R81, R82). -/
theorem decodeOpcode_of_readRow {b : Byte} (h : b.extractLsb' 5 3 = 0b000) : decodeOpcode b =
    if inRegSet (b.extractLsb' 0 5) then .ok (.rRegister (b.extractLsb' 0 5)) else .error (.reservedRead (b.extractLsb' 0 5)) := by
  rw [decodeOpcode, if_pos h]

/-- A byte under 0b001 is a write of the register its low five bits name, or reserved (R81, R82). -/
theorem decodeOpcode_of_writeRow {b : Byte} (h : b.extractLsb' 5 3 = 0b001) : decodeOpcode b =
    if inRegSet (b.extractLsb' 0 5) then .ok (.wRegister (b.extractLsb' 0 5)) else .error (.reservedWrite (b.extractLsb' 0 5)) := by
  rw [decodeOpcode, if_neg (by rw [h]; decide), if_pos h]

/-- The six addresses of the 5-bit space outside REG_SET (R83). -/
theorem inRegSet_iff (r : BitVec 5) : inRegSet r = true ↔ r.toNat ∉ [0x18, 0x19, 0x1A, 0x1B, 0x1E, 0x1F] := by
  revert r; decide

/-- In the register rows the command keeps the low five bits and its row is the top three; elsewhere the byte is its constant (R72). -/
theorem encode_of_decodeOpcode {b : Byte} {i : Instr} (h : decodeOpcode b = .ok i) :
    WellFormed i = true ∧ encode i = .opc8 b := by
  have hb : b.extractLsb' 5 3 ++ b.extractLsb' 0 5 = b := BitVec.extractLsb'_append_extractLsb'
  by_cases hr : b.extractLsb' 5 3 = 0b000
  · rw [decodeOpcode_of_readRow hr] at h
    split at h <;> cases h
    rw [hr] at hb
    exact ⟨‹_›, congrArg Encoded.opc8 hb⟩
  by_cases hw : b.extractLsb' 5 3 = 0b001
  · rw [decodeOpcode_of_writeRow hw] at h
    split at h <;> cases h
    rw [hw] at hb
    exact ⟨‹_›, congrArg Encoded.opc8 hb⟩
  · simp only [decodeOpcode, if_neg hr, if_neg hw] at h
    repeat' split at h
    all_goals cases h
    all_goals exact ⟨rfl, congrArg Encoded.opc8 (Eq.symm ‹_›)⟩

theorem decode_encode {i : Instr} (h : WellFormed i = true) : decode (encode i) = .ok i := by
  cases i with
  | rRegister a =>
    have hw : (0b000#3 ++ a).extractLsb' 5 3 = 0b000 := BitVec.extractLsb'_append_eq_left
    have ha : (0b000#3 ++ a).extractLsb' 0 5 = a := BitVec.extractLsb'_append_eq_right
    exact (decodeOpcode_of_readRow hw).trans (by rw [ha]; exact if_pos h)
  | wRegister a =>
    have hw : (0b001#3 ++ a).extractLsb' 5 3 = 0b001 := BitVec.extractLsb'_append_eq_left
    have ha : (0b001#3 ++ a).extractLsb' 0 5 = a := BitVec.extractLsb'_append_eq_right
    exact (decodeOpcode_of_writeRow hw).trans (by rw [ha]; exact if_pos h)
  | rRxPayload | wTxPayload | flushTx | flushRx | reuseTxPl | nop => rfl
  | readReg len addr => exact decode_encode_request .readReg len addr
  | readBuf len addr => exact decode_encode_request .readBuf len addr
  | writeReg len addr => exact decode_encode_request .writeReg len addr
  | writeBuf len addr => exact decode_encode_request .writeBuf len addr

/-- Settles O1: the cases of the encoder. -/
theorem decodeOfEncodeIsTheInstruction : Obligations.DecodeOfEncodeIsTheInstruction := fun _ h => decode_encode h

/-- Settles O2: the descriptor's request packs the fields it was read from. -/
theorem everyDescriptorDecodesAndEncodesBack : Obligations.EveryDescriptorDecodesAndEncodesBack := by
  intro w
  refine ⟨decodeReqw w, rfl, ?_⟩
  rw [decodeReqw_eq_request]
  exact ⟨wellFormed_request _ _ _, by rw [encode_request, code_reqOpOf, packReqw_fields]⟩

/-- Settles O3: the rows of the opcode decoder. -/
theorem opcodeByteDecodesToOneCommandOnly : Obligations.OpcodeByteDecodesToOneCommandOnly :=
  fun _ _ h => encode_of_decodeOpcode h

/-- Settles O5: each word is evaluated. -/
theorem wordsOfTheSpecDecode : Obligations.WordsOfTheSpecDecode :=
  ⟨rfl, rfl, rfl, rfl, rfl, rfl, rfl, rfl, rfl, rfl, rfl, rfl, rfl, rfl, rfl⟩

end Sys2Proof

namespace Sys2Proof.Machine

/-! ### The opcode map -/

/-- The top three bits of a byte are its multiple of 32. -/
theorem row_eq_iff (b : Byte) (c : BitVec 3) : b.extractLsb' 5 3 = c ↔ b.toNat / 32 = c.toNat := by
  have htop : (b.extractLsb' 5 3).toNat = b.toNat / 32 := by
    rw [BitVec.extractLsb'_toNat, Nat.shiftRight_eq_div_pow, Nat.mod_eq_of_lt (by omega)]
  rw [← BitVec.toNat_inj, htop]

/-- A byte outside both register rows and CMD_SET is illegal (R82). -/
theorem decodeOpcode_illegal {b : Byte} (hr : b.extractLsb' 5 3 ≠ 0b000) (hw : b.extractLsb' 5 3 ≠ 0b001) (hc : ¬ isCmd b = true) :
    decodeOpcode b = .error (.illegal b) := by
  simp only [isCmd_iff, not_or] at hc
  obtain ⟨h₁, h₂, h₃, h₄, h₅, h₆⟩ := hc
  rw [decodeOpcode, if_neg hr, if_neg hw, if_neg h₁, if_neg h₂, if_neg h₃, if_neg h₄, if_neg h₅, if_neg h₆]

/-- Settles O4: the top three bits of a byte say which row it is in, and the low five which register. -/
theorem opcodeMapOfEveryByte : Obligations.OpcodeMapOfEveryByte := by
  have hlow (b : Byte) : (b.extractLsb' 0 5).toNat = b.toNat % 32 := BitVec.extractLsb'_toNat ..
  refine ⟨fun b hb => ?_, fun b hb hb' => ?_, rfl, rfl, rfl, rfl, rfl, rfl, fun b hb hcmd => ?_, by decide +kernel, by decide +kernel,
    by decide +kernel⟩
  · have hrow : b.extractLsb' 5 3 = 0b000 := (row_eq_iff b _).2 (show _ = 0 by omega)
    have hmem : inRegSet (b.extractLsb' 0 5) = true ↔ b.toNat ∉ [0x18, 0x19, 0x1A, 0x1B, 0x1E, 0x1F] := by
      rw [inRegSet_iff, hlow, Nat.mod_eq_of_lt (by omega)]
    exact (decodeOpcode_of_readRow hrow).trans ((if_congr hmem rfl rfl).trans (ite_not ..))
  · have hrow : b.extractLsb' 5 3 = 0b001 := (row_eq_iff b _).2 (show _ = 1 by omega)
    have hmem : inRegSet (b.extractLsb' 0 5) = true ↔ b.toNat ∉ [0x38, 0x39, 0x3A, 0x3B, 0x3E, 0x3F] := by
      rw [inRegSet_iff, hlow]
      simp only [List.mem_cons, List.not_mem_nil, or_false]
      omega
    exact (decodeOpcode_of_writeRow hrow).trans ((if_congr hmem rfl rfl).trans (ite_not ..))
  · have hr : b.extractLsb' 5 3 ≠ 0b000 := fun h => absurd ((row_eq_iff b _).1 h) (show ¬ _ = 0 by omega)
    have hw : b.extractLsb' 5 3 ≠ 0b001 := fun h => absurd ((row_eq_iff b _).1 h) (show ¬ _ = 1 by omega)
    refine decodeOpcode_illegal hr hw fun hc => ?_
    rcases (isCmd_iff b).1 hc with rfl | rfl | rfl | rfl | rfl | rfl <;> exact hcmd (by decide)

/-! ### The address classes -/

theorem isRegAddr_iff (a : Byte) : isRegAddr a = true ↔ a.toNat ≤ 0x17 ∨ a = 0x1C ∨ a = 0x1D := by
  revert a; decide

theorem isPayloadCmd_iff (a : Byte) : isPayloadCmd a = true ↔ a = 0x61 ∨ a = 0xA0 := by simp [isPayloadCmd]

theorem isNoargCmd_iff (a : Byte) : isNoargCmd a = true ↔ a = 0xE1 ∨ a = 0xE2 ∨ a = 0xE3 ∨ a = 0xFF := by
  simp [isNoargCmd, or_assoc]

/-- Settles O6: the membership of each set, in the order of R74. -/
theorem everyAddressHasItsClass : Obligations.EveryAddressHasItsClass := by
  refine ⟨fun a => ?_, by decide +kernel⟩
  simp only [addrClass, isRegAddr_iff, isPayloadCmd_iff, isNoargCmd_iff]

theorem isRegAddr_le {a : Byte} (h : isRegAddr a = true) : a.toNat ≤ 0x1D := by
  rcases (isRegAddr_iff a).1 h with h | rfl | rfl
  · omega
  · decide
  · decide

/-- Below 0x20 the write bit adds (R76). -/
theorem toNat_or_writeBit {a : Byte} (h : a.toNat < 0x20) : (a ||| 0x20).toNat = 0x20 + a.toNat := by
  rw [BitVec.or_comm, BitVec.toNat_or]
  exact (Nat.two_pow_add_eq_or_of_lt (i := 5) h 1).symm

/-- Settles O7: a register address has bit 5 clear, a command has it set. -/
theorem opcodeByteIsTheAddressWithTheWriteBit : Obligations.OpcodeByteIsTheAddressWithTheWriteBit := by
  intro a
  refine ⟨opcode_read rfl a, opcode_read rfl a, rfl, rfl, fun h => ⟨opcode_cmd h .writeReg, opcode_cmd h⟩, fun h => ?_⟩
  have hle := isRegAddr_le h
  exact ⟨hle, toNat_or_writeBit (by omega), by omega⟩

/-! ### Validation -/

theorem isBuf_iff (op : ReqOp) : op.isBuf = true ↔ op = .readBuf ∨ op = .writeBuf := by cases op <;> decide

theorem validate_eq_invalidAddress_iff (op : ReqOp) (a : Byte) (len : BitVec 6) :
    validate op a len = .invalidAddress ↔ addrClass a = .invalid := by
  unfold validate
  split
  · simp [*]
  · split <;> simp [*]

theorem validate_eq_invalidLength_iff (op : ReqOp) (a : Byte) (len : BitVec 6) :
    validate op a len = .invalidLength ↔ addrClass a ≠ .invalid ∧ op.isBuf = true ∧ (len.toNat = 0 ∨ 33 ≤ len.toNat) := by
  unfold validate
  cases op.isBuf <;> by_cases h : addrClass a = .invalid <;> simp [h, Config.maxData]
  omega

/-- Settles O10: one equivalence for each answer of the validation. -/
theorem everyDescriptorIsAcceptedOrHasItsCode : Obligations.EveryDescriptorIsAcceptedOrHasItsCode := by
  intro op a len
  rw [← isBuf_iff]
  exact ⟨validate_eq_invalidAddress_iff op a len, validate_eq_invalidLength_iff op a len, validate_eq_ok_iff op len a⟩

/-- What the opcode decoder refuses is no valid address: a read would send it as it stands (R84). -/
theorem addrClass_of_decodeOpcode_error {a : Byte} {e : DecodeError} (h : decodeOpcode a = .error e) : addrClass a = .invalid := by
  by_contra hvalid
  obtain ⟨i, hi, -⟩ := decodeOpcode_opcode hvalid .readReg
  rw [opcode_read rfl, h] at hi
  cases hi

/-- No pre-formed write opcode is a valid address (R84). -/
theorem addrClass_writeOpcode {a : Byte} (h : 0x20 ≤ a.toNat) (h' : a.toNat ≤ 0x3F) : addrClass a = .invalid := by
  by_contra hvalid
  rcases (addrClass_valid_iff a).1 hvalid with hreg | hcmd
  · have := isRegAddr_le hreg
    omega
  · rcases (isCmd_iff a).1 hcmd with rfl | rfl | rfl | rfl | rfl | rfl <;> revert h' <;> decide

/-- Settles O9: a valid address has a legal opcode, and the refused addresses are of class INVALID. -/
theorem everyFrameStartsWithALegalOpcode : Obligations.EveryFrameStartsWithALegalOpcode := by
  refine ⟨fun b op a len wdata h => ?_, fun op a len h => ?_, fun op a len h h' => ?_, fun op a len r h => ?_⟩
  · rw [frameOf_head]
    exact decodeOpcode_opcode ((validate_eq_ok_iff op len a).1 h).1 op
  · exact (validate_eq_invalidAddress_iff op a len).2 (addrClass_of_decodeOpcode_error h)
  · exact (validate_eq_invalidAddress_iff op a len).2 (addrClass_writeOpcode h h')
  · exact (validate_eq_invalidAddress_iff op a len).2 (addrClass_of_decodeOpcode_error h)

/-! ### The frames of the pseudo-instructions -/

theorem addrClass_reg {a : Byte} (h : isRegAddr a = true) : addrClass a = .reg := if_pos h

/-- Only a write of a no-argument command leaves its data bytes out (R77). -/
theorem dataLen_eq {op : ReqOp} {a : Byte} (h : op.isRead = true ∨ addrClass a ≠ .noargCmd) (len : BitVec 6) :
    dataLen op a len = if op.isBuf then len.toNat else 1 := by
  rcases h with h | h <;> simp [dataLen, h]

theorem dataLen_noarg {op : ReqOp} {a : Byte} (h : op.isRead = false) (ha : addrClass a = .noargCmd) (len : BitVec 6) :
    dataLen op a len = 0 := by
  simp [dataLen, h, ha]

/-- A register operation at a valid address is a valid request, whatever its length field holds (R89). -/
theorem validate_register {op : ReqOp} (hop : op.isBuf = false) {a : Byte} (ha : addrClass a ≠ .invalid) (len : BitVec 6) :
    validate op a len = .ok :=
  (validate_eq_ok_iff op len a).2 ⟨ha, fun h => by simp [hop] at h⟩

/-- The frame of a read is its address and as many fills as it reads (R90). -/
theorem frameOf_read (b : Build) {op : ReqOp} (h : op.isRead = true) (a : Byte) (len : BitVec 6) (wdata : Vector Byte 32) :
    frameOf b op a len wdata = a :: List.replicate (if op.isBuf then len.toNat else 1) b.fillByte := by
  rw [frameOf, opcode_read h, dataBytes_read b h, dataLen_eq (.inl h)]

/-- The bytes of a line stand first in its write data. -/
theorem take_wdata {l : Line} (h : l.bytes.length ≤ 32) : l.wdata.toList.take l.bytes.length = l.bytes := by
  refine List.ext_getElem (by simpa using h) fun i _ hi => ?_
  simp [Line.wdata, hi]

/-- A line that writes as many bytes as it holds frames its write opcode and those bytes (R87, R90). -/
theorem frame_write (b : Build) {l : Line} (h : l.op.isRead = false) (hn : dataLen l.op l.addr l.len = l.bytes.length)
    (hle : l.bytes.length ≤ 32) : l.frame b = (l.addr ||| 0x20) :: l.bytes := by
  rw [Line.frame, frameOf, hn, dataBytes_write b h l.wdata hle, take_wdata hle, opcode_write h, BitVec.or_comm]

/-- A one-byte read of a register frames the address and one fill (R88). -/
theorem rreg_frames (b : Build) {a : Byte} (h : isRegAddr a = true) :
    validate .readReg a 1 = .ok ∧ (Line.rreg a).frame b = [a, b.fillByte] :=
  ⟨validate_register rfl (by simp [addrClass_reg h]) 1, frameOf_read b (op := .readReg) rfl a 1 _⟩

/-- A one-byte write of a register frames the write opcode and the byte (R88). -/
theorem wreg_frames (b : Build) {a : Byte} (h : isRegAddr a = true) (v : Byte) :
    validate .writeReg a 1 = .ok ∧ (Line.wreg a v).frame b = [a ||| 0x20, v] := by
  have hclass := addrClass_reg h
  have hn : dataLen .writeReg a 1 = 1 := dataLen_eq (.inr (by simp [hclass])) 1
  have hop : ReqOp.writeReg.isRead = false := rfl
  have hle : [v].length ≤ 32 := by simp
  exact ⟨validate_register rfl (by simp [hclass]) 1, frame_write b (l := .wreg a v) hop hn hle⟩

/-- A write of a no-argument command frames the command alone (R88, R93). -/
theorem wreg_noarg_frames (b : Build) {a : Byte} (h : isNoargCmd a = true) (v : Byte) :
    validate .writeReg a 1 = .ok ∧ (Line.wreg a v).frame b = [a] := by
  obtain ⟨hclass, hop⟩ := noarg_opcode a h
  refine ⟨validate_register rfl (by simp [hclass]) 1, ?_⟩
  show opcode .writeReg a :: (List.range (dataLen .writeReg a 1)).map _ = [a]
  rw [dataLen_noarg rfl hclass, opcode_cmd (by simp [isCmd, h])]
  rfl

/-- A read of the received payload frames the command and its fills (R88). -/
theorem rxPayload_frames (b : Build) {n : BitVec 6} (h : 1 ≤ n.toNat ∧ n.toNat ≤ 32) :
    validate .readBuf 0x61 n = .ok ∧ (Line.rbuf 0x61 n).frame b = 0x61 :: List.replicate n.toNat b.fillByte :=
  ⟨(validate_eq_ok_iff _ _ _).2 ⟨by decide, fun _ => h⟩, frameOf_read b (op := .readBuf) rfl 0x61 n _⟩

/-- A write of a payload frames the command and the payload (R88). -/
theorem txPayload_frames (b : Build) {bytes : List Byte} (h : 1 ≤ bytes.length ∧ bytes.length ≤ 32) :
    validate .writeBuf 0xA0 (Line.wbuf 0xA0 bytes).len = .ok ∧ (Line.wbuf 0xA0 bytes).frame b = 0xA0 :: bytes := by
  have hlen : (Line.wbuf 0xA0 bytes).len.toNat = bytes.length := Nat.mod_eq_of_lt (by omega)
  have hn : dataLen .writeBuf 0xA0 (Line.wbuf 0xA0 bytes).len = bytes.length := (dataLen_eq (.inr (by decide)) _).trans hlen
  have hop : ReqOp.writeBuf.isRead = false := rfl
  have hcmd : (0xA0 : Byte) ||| 0x20 = 0xA0 := rfl
  refine ⟨(validate_eq_ok_iff _ _ _).2 ⟨by decide, fun _ => by rwa [hlen]⟩, ?_⟩
  exact (frame_write b (l := .wbuf 0xA0 bytes) hop hn h.2).trans (congrArg (· :: bytes) hcmd)

/-- Settles O11: the frame of each row of R88. -/
theorem pseudoInstructionsFrameTheirCommands : Obligations.PseudoInstructionsFrameTheirCommands := by
  rintro b p F (⟨a, ha, rfl, rfl⟩ | ⟨a, v, ha, rfl, rfl⟩ | ⟨n, hn, hn', rfl, rfl⟩ | ⟨bytes, hn, hn', rfl, rfl⟩ | ⟨rfl, rfl⟩ |
    ⟨rfl, rfl⟩ | ⟨rfl, rfl⟩ | ⟨rfl, rfl⟩ | ⟨m, rfl, rfl⟩)
  · exact rreg_frames b ha
  · exact wreg_frames b ha v
  · exact rxPayload_frames b ⟨hn, hn'⟩
  · exact txPayload_frames b ⟨hn, hn'⟩
  · exact wreg_noarg_frames b (a := 0xE1) rfl 0x00
  · exact wreg_noarg_frames b (a := 0xE2) rfl 0x00
  · exact wreg_noarg_frames b (a := 0xE3) rfl 0x00
  · exact wreg_noarg_frames b (a := 0xFF) rfl 0x00
  · exact wreg_frames b (a := 0x07) rfl (m &&& 0x70)

/-! ### What of the request at the port a step runs -/

/-- Settles O12: the port's descriptor decodes to what `fetch` reads. -/
theorem stepRunsTheDecodedRequest : Obligations.StepRunsTheDecodedRequest := by
  intro s i h
  obtain rfl : fetch s = i := Except.ok.inj h
  rfl

/-- The command of the opcode byte of a valid request offers that request, form and length from the port (R80, log 7). -/
theorem exists_command_at_port (s : State) (h : addrClass s.pins.reqAddr ≠ .invalid) :
    ∃ i, decodeOpcode (opcode s.portOp s.pins.reqAddr) = .ok i ∧ WellFormed i = true ∧
      requestOf i s = (s.portOp, s.pins.reqLen, s.pins.reqAddr) := by
  rcases (addrClass_valid_iff _).1 h with hreg | hcmd
  · obtain ⟨r, hr, ha⟩ := exists_reg_of_isRegAddr hreg
    rw [ha]
    cases hop : s.portOp.isRead
    · exact ⟨.wRegister r, by rw [opcode_write hop, decodeOpcode_write hr], hr, by rw [requestOf, asWrite_of_isWrite hop]⟩
    · exact ⟨.rRegister r, by rw [opcode_read hop, decodeOpcode_read hr], hr, by rw [requestOf, asRead_of_isRead hop]⟩
  · rw [opcode_cmd hcmd]
    rcases (isCmd_iff _).1 hcmd with ha | ha | ha | ha | ha | ha <;> rw [ha] <;> exact ⟨_, rfl, rfl, rfl⟩

/-- Settles O13: the step and the wire command are the offer of the same request. -/
theorem stepRunsTheWireCommand : Obligations.StepRunsTheWireCommand := by
  intro s hv hr hok
  obtain ⟨i, hi, hwf, hreq⟩ := exists_command_at_port s ((validate_eq_ok_iff _ _ _).1 hok).1
  exact ⟨i, hi, hwf, by rw [step_taken hv hr, exec_eq_offer, hreq, offer_ready hr]⟩

/-- A frame depends on the write bytes it carries only (R85, R90). -/
theorem frameOf_congr (b : Build) {op : ReqOp} {a : Byte} {len : BitVec 6} {w w' : Vector Byte 32}
    (h : op.isRead = false → ∀ k < dataLen op a len, w.getD k 0x00 = w'.getD k 0x00) :
    frameOf b op a len w = frameOf b op a len w' := by
  have hbytes : ∀ k ∈ List.range (dataLen op a len), dataByte b op w k = dataByte b op w' k := by
    intro k hk
    cases hop : op.isRead
    · simpa [dataByte, hop] using h hop k (List.mem_range.1 hk)
    · simp [dataByte, hop]
  rw [frameOf, frameOf, List.map_congr_left hbytes]

/-- `s` with other write bytes at the port. -/
def State.withWdata (s : State) (w : Vector Byte 32) : State := { s with inputs := { s.pins with reqWdata := w } :: s.inputs.tail }

theorem requestOf_withWdata (i : Instr) (s : State) (w : Vector Byte 32) : requestOf i (s.withWdata w) = requestOf i s := by
  cases i <;> rfl

/-- The acceptance reads nothing of the write bytes but the frame. -/
theorem acceptEdge_withWdata {op : ReqOp} {len : BitVec 6} {addr : Byte} (s : State) {w : Vector Byte 32}
    (h : op.isRead = false → ∀ k < dataLen op addr len, w.getD k 0x00 = s.pins.reqWdata.getD k 0x00) :
    acceptEdge op len addr (s.withWdata w) = acceptEdge op len addr s := by
  unfold acceptEdge acceptRule
  cases validate op addr len with
  | ok =>
    have hF := frameOf_congr s.build h
    exact congrArg (fun F => (loadTransaction F (rxCount op addr len) op addr s).advance) hF
  | invalidAddress | invalidLength | transportError => rfl

/-- Settles O31: other write bytes leave the request and its frame as they were. -/
theorem unusedWriteBytesAreIgnored : Obligations.UnusedWriteBytesAreIgnored := by
  intro i s p ps w hin hr h
  have hpins : s.pins = p := by simp [State.pins, State.pinsAfter, hin]
  have hs : { s with inputs := { p with reqWdata := w } :: ps } = s.withWdata w := by simp [State.withWdata, hpins, hin]
  have hr' : (s.withWdata w).reqReady = true := hr
  rw [hs, exec_eq_offer, exec_eq_offer, requestOf_withWdata, offer_ready hr', offer_ready hr, acceptEdge_withWdata]
  intro hop k hk
  by_cases hk32 : k < 32
  · simpa [Vector.getD, hk32, hpins] using h k hk32 hop hk
  · simp [Vector.getD, hk32]

end Sys2Proof.Machine
end

section
/-! PROOFS. The family of 40_host_operations.md: what a frame holds, what the acceptance of a valid request loads, and the one-byte
buffer operation. -/

namespace Sys2Proof.Machine

/-! ### The frame -/

/-- The data bytes stand after the opcode, in order (R90). -/
theorem frameOf_data (b : Build) (op : ReqOp) (a : Byte) (len : BitVec 6) (wdata : Vector Byte 32) {i : Nat} (h : i < dataLen op a len) :
    (frameOf b op a len wdata).getD (i + 1) 0x00 = dataByte b op wdata i := by
  simp [frameOf, h]

/-- A frame has no data byte, one, or as many as the length field says (R77). -/
theorem dataLen_cases (op : ReqOp) (a : Byte) (len : BitVec 6) :
    dataLen op a len = 0 ∨ dataLen op a len = 1 ∨ dataLen op a len = len.toNat := by
  unfold dataLen
  split
  · exact .inl rfl
  · split
    · exact .inr (.inr rfl)
    · exact .inr (.inl rfl)

/-- Settles O8: the bytes of the frame, and the bound of validation on its data. -/
theorem frameIsOneOpcodeAndAtMost32DataBytes : Obligations.FrameIsOneOpcodeAndAtMost32DataBytes := by
  intro b op a len wdata h n F
  have hlen : F.length = n + 1 := frameOf_length ..
  have hn : n ≤ 32 := dataLen_le h
  have hcases : n = 0 ∨ n = 1 ∨ n = len.toNat := dataLen_cases op a len
  exact ⟨frameOf_head .., fun _ => frameOf_data b op a len wdata, by omega, by omega, by omega, by omega, rxCount_le h⟩

/-- The frame of a valid write is its command alone, or its write opcode and its first write bytes (R90, R93, R94). -/
theorem frameOf_write (b : Build) {op : ReqOp} (h : op.isRead = false) {a : Byte} {len : BitVec 6} (hv : validate op a len = .ok)
    (wdata : Vector Byte 32) :
    frameOf b op a len wdata =
      if isNoargCmd a then [a] else (a ||| 0x20) :: wdata.toList.take (if op.isBuf then len.toNat else 1) := by
  split
  next ha =>
    have hclass := (noarg_opcode a ha).1
    rw [frameOf, dataLen_noarg h hclass, opcode_cmd (by simp [isCmd, ha]), List.range_zero, List.map_nil]
  next ha =>
    have hclass := addrClass_ne_noarg a (by simpa using ha)
    rw [frameOf, opcode_write h, BitVec.or_comm, dataBytes_write b h wdata (dataLen_le hv), dataLen_eq (.inr hclass)]

theorem take_one_wdata (wdata : Vector Byte 32) : wdata.toList.take 1 = [wdata[0]] :=
  by simp [List.take_one, List.head?_eq_getElem?]

/-! ### The acceptance of a valid request -/

theorem rxCount_read {op : ReqOp} (h : op.isRead = true) (a : Byte) (len : BitVec 6) :
    rxCount op a len = if op.isBuf then len.toNat else 1 := by
  rw [rxCount, if_pos h, dataLen_eq (.inl h)]

theorem rxCount_write {op : ReqOp} (h : op.isRead = false) (a : Byte) (len : BitVec 6) : rxCount op a len = 0 := by
  simp [rxCount, h]

section
variable {i : Instr} {s : State} {op : ReqOp} {len : BitVec 6} {a : Byte}

/-- An instruction whose request is valid begins its transaction at a ready port (R107). -/
theorem exec_begins (hi : requestOf i s = (op, len, a)) (hr : s.reqReady = true) (hv : validate op a len = .ok) :
    exec i s = .next (beginTransaction op len a s).advance := by
  rw [exec_eq_offer, hi, offer_ready hr, acceptEdge, acceptRule, hv]

/-- A read loads its address and as many fills as it reads (R91, R92). -/
theorem exec_read (hop : op.isRead = true) (hi : requestOf i s = (op, len, a)) (hr : s.reqReady = true)
    (hv : validate op a len = .ok) :
    exec i s = .next (loadTransaction (a :: List.replicate (if op.isBuf then len.toNat else 1) s.build.fillByte)
      (if op.isBuf then len.toNat else 1) op a s).advance := by
  rw [exec_begins hi hr hv, beginTransaction, frameOf_read _ hop, rxCount_read hop]

/-- A write loads its command alone, or its write opcode and its first write bytes, and reads nothing (R93, R94). -/
theorem exec_write (hop : op.isRead = false) (hi : requestOf i s = (op, len, a)) (hr : s.reqReady = true)
    (hv : validate op a len = .ok) :
    exec i s = .next (loadTransaction
      (if isNoargCmd a then [a] else (a ||| 0x20) :: s.pins.reqWdata.toList.take (if op.isBuf then len.toNat else 1))
      0 op a s).advance := by
  rw [exec_begins hi hr hv, beginTransaction, frameOf_write _ hop hv, rxCount_write hop]

end

/-- A length of 1 to 32 at a valid address passes validation in every operation (R89). -/
theorem validate_buffer (op : ReqOp) {a : Byte} (ha : addrClass a ≠ .invalid) {len : BitVec 6}
    (h : 1 ≤ len.toNat ∧ len.toNat ≤ 32) : validate op a len = .ok :=
  (validate_eq_ok_iff op len a).2 ⟨ha, fun _ => h⟩

/-- Settles O19: a read of one byte, whatever the length field holds. -/
theorem readRegFramesTheAddressAndOneFill : Obligations.ReadRegFramesTheAddressAndOneFill :=
  fun len a _ hr ha => exec_read (i := .readReg len a) (op := .readReg) rfl rfl hr (validate_register rfl ha len)

/-- Settles O20: a read of as many bytes as the length field says. -/
theorem readBufFramesTheAddressAndItsFills : Obligations.ReadBufFramesTheAddressAndItsFills :=
  fun len a _ hr ha h h' => exec_read (i := .readBuf len a) (op := .readBuf) rfl rfl hr (validate_buffer .readBuf ha ⟨h, h'⟩)

/-- Settles O21: a write whose one byte, if the command takes it, is the first at the port. -/
theorem writeRegFramesOneByteOrTheOpcodeAlone : Obligations.WriteRegFramesOneByteOrTheOpcodeAlone := by
  intro len a s hr ha
  rw [← take_one_wdata]
  exact exec_write (i := .writeReg len a) (op := .writeReg) rfl rfl hr (validate_register rfl ha len)

/-- Settles O22: a write of as many bytes as the length field says. -/
theorem writeBufFramesItsBytesInOrder : Obligations.WriteBufFramesItsBytesInOrder :=
  fun len a _ hr ha h h' => exec_write (i := .writeBuf len a) (op := .writeBuf) rfl rfl hr (validate_buffer .writeBuf ha ⟨h, h'⟩)

/-! ### The one-byte buffer operation (R95): `op` is a register operation and `op'` the buffer operation of its direction -/

section
variable {op op' : ReqOp} (hdir : op'.isRead = op.isRead) (hreg : op.isBuf = false) (hbuf : op'.isBuf = true)
include hdir hreg hbuf

theorem dataLen_oneByte (a : Byte) (len : BitVec 6) : dataLen op' a 1 = dataLen op a len := by
  simp [dataLen, hdir, hreg, hbuf]

theorem rxCount_oneByte (a : Byte) (len : BitVec 6) : rxCount op' a 1 = rxCount op a len := by
  rw [rxCount, rxCount, hdir, dataLen_oneByte hdir hreg hbuf a len]

theorem frameOf_oneByte (b : Build) (a : Byte) (len : BitVec 6) (wdata : Vector Byte 32) :
    frameOf b op' a 1 wdata = frameOf b op a len wdata := by
  have hbyte : dataByte b op' wdata = dataByte b op wdata := by funext; simp [dataByte, hdir]
  rw [frameOf, frameOf, hbyte, dataLen_oneByte hdir hreg hbuf a len, opcode, opcode, hdir]

/-- The two load the same frame and read count, so their next states differ in the latched operation only. -/
theorem exec_oneByte {i i' : Instr} {s : State} {a : Byte} {len : BitVec 6} (hi : requestOf i s = (op, len, a))
    (hi' : requestOf i' s = (op', 1, a)) (hr : s.reqReady = true) (ha : addrClass a ≠ .invalid) :
    ∃ t, exec i s = .next t ∧ exec i' s = .next { t with opL := op' } := by
  refine ⟨_, exec_begins hi hr (validate_register hreg ha len), ?_⟩
  rw [exec_begins hi' hr (validate_buffer op' ha (by decide)), beginTransaction, frameOf_oneByte hdir hreg hbuf _ a len,
    rxCount_oneByte hdir hreg hbuf a len]
  rfl

/-- The response depends on the direction, the address and the read count, not on the form. -/
theorem transact_oneByte {a : Byte} (ha : addrClass a ≠ .invalid) (len : BitVec 6) (M : Nat → Byte) (old : Response) :
    transact op' 1 a M old = transact op len a M old := by
  have hfifo (r : Nat) : decodesFifo op' a r = decodesFifo op a r := by rw [decodesFifo, decodesFifo, hdir]
  rw [transact, transact, validate_register hreg ha len, validate_buffer op' ha (by decide)]
  simp only [Response.succeed, rxCount_oneByte hdir hreg hbuf a len, hfifo]

end

/-- Settles O30: the rules of the one-byte buffer operation, for reads and for writes. -/
theorem oneByteBufferIsTheRegisterOperation : Obligations.OneByteBufferIsTheRegisterOperation :=
  fun len a _ hr ha =>
    ⟨exec_oneByte (op := .readReg) (op' := .readBuf) rfl rfl rfl rfl rfl hr ha,
      exec_oneByte (op := .writeReg) (op' := .writeBuf) rfl rfl rfl rfl rfl hr ha,
      fun b w => ⟨frameOf_read b (op := .readBuf) rfl a 1 w, frameOf_read b (op := .readReg) rfl a len w⟩,
      transact_oneByte (op := .readReg) (op' := .readBuf) rfl rfl rfl ha len,
      transact_oneByte (op := .writeReg) (op' := .writeBuf) rfl rfl rfl ha len⟩

end Sys2Proof.Machine
end

section
/-! PROOFS. The family of 41_commands.md: a wire command does what the request that produces it does, so the frame of each of its
forms is the frame of that request. -/

namespace Sys2Proof.Machine

/-! ### A command in each of the four forms that produce it -/

section
variable {i : Instr} {s : State} {op : ReqOp} {len : BitVec 6} {a : Byte}

/-- An instruction does what the request it offers does ("Produced by" of each rule). -/
theorem exec_eq_exec_request (hi : requestOf i s = (op, len, a)) : exec i s = exec (op.request len a) s := by
  rw [exec_eq_offer, hi]
  cases op <;> rfl

theorem exec_as_readReg (hi : requestOf i s = (.readReg, len, a)) (hr : s.reqReady = true) (ha : addrClass a ≠ .invalid) :
    exec i s = .next (loadTransaction [a, s.build.fillByte] 1 .readReg a s).advance :=
  (exec_eq_exec_request hi).trans (readRegFramesTheAddressAndOneFill len a s hr ha)

theorem exec_as_readBuf (hi : requestOf i s = (.readBuf, len, a)) (hr : s.reqReady = true) (ha : addrClass a ≠ .invalid)
    (h : 1 ≤ len.toNat) (h' : len.toNat ≤ 32) :
    exec i s = .next (loadTransaction (a :: List.replicate len.toNat s.build.fillByte) len.toNat .readBuf a s).advance :=
  (exec_eq_exec_request hi).trans (readBufFramesTheAddressAndItsFills len a s hr ha h h')

theorem exec_as_writeReg (hi : requestOf i s = (.writeReg, len, a)) (hr : s.reqReady = true) (ha : addrClass a ≠ .invalid) :
    exec i s =
      .next (loadTransaction (if isNoargCmd a then [a] else [a ||| 0x20, s.pins.reqWdata[0]]) 0 .writeReg a s).advance :=
  (exec_eq_exec_request hi).trans (writeRegFramesOneByteOrTheOpcodeAlone len a s hr ha)

theorem exec_as_writeBuf (hi : requestOf i s = (.writeBuf, len, a)) (hr : s.reqReady = true) (ha : addrClass a ≠ .invalid)
    (h : 1 ≤ len.toNat) (h' : len.toNat ≤ 32) :
    exec i s = .next (loadTransaction (if isNoargCmd a then [a] else (a ||| 0x20) :: s.pins.reqWdata.toList.take len.toNat) 0
      .writeBuf a s).advance :=
  (exec_eq_exec_request hi).trans (writeBufFramesItsBytesInOrder len a s hr ha h h')

end

/-! ### The register commands -/

section
variable (a : BitVec 5) {s : State}

theorem readOpcode_eq : (0b000 : BitVec 3) ++ a = a.zeroExtend 8 := by revert a; decide

theorem writeOpcode_eq : (0b001 : BitVec 3) ++ a = a.zeroExtend 8 ||| 0x20 := by revert a; decide

/-- A documented register's address, as the eight bits at the port, is of class REG (R74). -/
theorem addrClass_zeroExtend {a : BitVec 5} (h : inRegSet a = true) : addrClass (a.zeroExtend 8) = .reg := by
  revert a; decide

theorem requestOf_rRegister {op : ReqOp} (h : s.portOp.asRead = op) :
    requestOf (.rRegister a) s = (op, s.pins.reqLen, a.zeroExtend 8) := by rw [← h]; rfl

theorem requestOf_wRegister {op : ReqOp} (h : s.portOp.asWrite = op) :
    requestOf (.wRegister a) s = (op, s.pins.reqLen, a.zeroExtend 8) := by rw [← h]; rfl

end

/-- Settles O23: the opcode is the register's address, so the two forms are reads of it. -/
theorem rRegisterFramesItsOpcodeAndFills : Obligations.RRegisterFramesItsOpcodeAndFills := by
  intro a s hr ha c
  have hc : c = a.zeroExtend 8 := readOpcode_eq a
  have hvalid : addrClass (a.zeroExtend 8) ≠ .invalid := by simp [addrClass_zeroExtend ha]
  rw [hc]
  exact ⟨fun hb => exec_as_readReg (requestOf_rRegister a (if_neg (by simp [hb]))) hr hvalid,
    fun hb => exec_as_readBuf (requestOf_rRegister a (if_pos hb)) hr hvalid⟩

/-- Settles O24: the opcode is the register's address with the write bit, so the two forms are writes of that address. -/
theorem wRegisterFramesItsOpcodeAndData : Obligations.WRegisterFramesItsOpcodeAndData := by
  intro a s hr ha c
  have hc : c = a.zeroExtend 8 ||| 0x20 := writeOpcode_eq a
  have hvalid : addrClass (a.zeroExtend 8) ≠ .invalid := by simp [addrClass_zeroExtend ha]
  have hdata : ¬ isNoargCmd (a.zeroExtend 8) = true := fun h => by
    simpa [addrClass_zeroExtend ha] using (noarg_opcode _ h).1
  rw [hc]
  refine ⟨fun hb => ?_, fun hb h h' => ?_⟩
  · rw [exec_as_writeReg (requestOf_wRegister a (if_neg (by simp [hb]))) hr hvalid, if_neg hdata]
  · rw [exec_as_writeBuf (requestOf_wRegister a (if_pos hb)) hr hvalid h h', if_neg hdata]

/-! ### The other commands -/

/-- A payload command is its own write opcode, and carries data bytes. -/
theorem payload_opcode {c : Byte} (h : isPayloadCmd c = true) :
    addrClass c = .payloadCmd ∧ c ||| 0x20 = c ∧ ¬ isNoargCmd c = true := by
  rcases (isPayloadCmd_iff c).1 h with rfl | rfl <;> decide

/-- Settles O25: a payload command is its own write opcode, so its four forms are the four requests at it. -/
theorem payloadCommandsFrameFillsOrData : Obligations.PayloadCommandsFrameFillsOrData := by
  intro c i s hci hr
  have hi {op : ReqOp} (hp : s.portOp = op) : requestOf i s = (op, s.pins.reqLen, c) := by
    rcases hci with ⟨rfl, rfl⟩ | ⟨rfl, rfl⟩ <;> rw [← hp] <;> rfl
  have hpayload : isPayloadCmd c = true := (isPayloadCmd_iff c).2 (hci.imp And.left And.left)
  obtain ⟨hclass, hopcode, hdata⟩ := payload_opcode hpayload
  have hvalid : addrClass c ≠ .invalid := by simp [hclass]
  refine ⟨fun hp => exec_as_readReg (hi hp) hr hvalid, fun hp => ?_,
    fun h h' => ⟨fun hp => exec_as_readBuf (hi hp) hr hvalid h h', fun hp => ?_⟩⟩
  · rw [exec_as_writeReg (hi hp) hr hvalid, if_neg hdata, hopcode]
  · rw [exec_as_writeBuf (hi hp) hr hvalid h h', if_neg hdata, hopcode]

/-- Settles O26: a write of a no-argument command has no data byte, and a read of it is a read like any other. -/
theorem noArgumentCommandsGoAloneWhenWritten : Obligations.NoArgumentCommandsGoAloneWhenWritten := by
  intro c i s hci hr
  have hi {op : ReqOp} (hp : s.portOp = op) : requestOf i s = (op, s.pins.reqLen, c) := by
    rcases hci with ⟨rfl, rfl⟩ | ⟨rfl, rfl⟩ | ⟨rfl, rfl⟩ | ⟨rfl, rfl⟩ <;> rw [← hp] <;> rfl
  have hnoarg : isNoargCmd c = true :=
    (isNoargCmd_iff c).2 (hci.imp And.left (.imp And.left (.imp And.left And.left)))
  have hvalid : addrClass c ≠ .invalid := by simp [(noarg_opcode c hnoarg).1]
  refine ⟨fun hp => ?_, fun hp => exec_as_readReg (hi hp) hr hvalid,
    fun h h' => ⟨fun hp => ?_, fun hp => exec_as_readBuf (hi hp) hr hvalid h h'⟩⟩
  · rw [exec_as_writeReg (hi hp) hr hvalid, if_pos hnoarg]
  · rw [exec_as_writeBuf (hi hp) hr hvalid h h', if_pos hnoarg]

end Sys2Proof.Machine
end

section
/-! PROOFS. The family of 42_transaction_engine.md: each phase's edge, the serial outputs over every step, and a whole transaction cycle
by cycle. -/

namespace Sys2Proof.Machine

/-! ### The rule of each phase -/

section
variable {s : State}

/-- A busy phase that neither a reset nor an abort cuts off runs its own rule (R106). -/
theorem step_phaseEdge (hp : s.phase ≠ .idle) (hr : s.pins.rst = false) (hf : s.phase.abortable = true → s.pins.busFault = false) :
    step s = .next (phaseEdge s).advance := by
  rw [step_busy hp, clockEdge_phase hr hf]

theorem phaseEdge_idle (hp : s.phase = .idle) : phaseEdge s = idleEdge s := by rw [phaseEdge, hp]

/-- SETUP and SHIFT_LO are one rule (R108, R110). -/
theorem phaseEdge_low (hp : s.phase = .setup ∨ s.phase = .shiftLo) : phaseEdge s = if s.cnt = 0 then rise s else countDown s := by
  rcases hp with hp | hp <;> rw [phaseEdge, hp] <;> rfl

theorem phaseEdge_shiftHi (hp : s.phase = .shiftHi) : phaseEdge s = if s.cnt = 0 then fall s else countDown s := by
  rw [phaseEdge, hp]; rfl

theorem phaseEdge_hold (hp : s.phase = .hold) : phaseEdge s = holdEdge s := by rw [phaseEdge, hp]

theorem phaseEdge_gap (hp : s.phase = .gap) : phaseEdge s = if s.cnt = 0 then gapEnd s else gapWait s := by
  rw [phaseEdge, hp]; rfl

/-- The next bit of the byte, its index written as a number. -/
theorem fallToNextBit_eq (hb : s.bitIdx ≠ 0) : fallToNextBit s = { s with
    sckR := false, bitIdx := s.bitIdx - 1, mosiR := (s.txFrame.get s.byteIdx).getLsbD (s.bitIdx.val - 1),
    cnt := reload s.build.sckDiv, phase := .shiftLo } := by
  rw [fallToNextBit, bitIdx_pred hb]

/-- The next byte of the frame, its index written as a number. -/
theorem fallToNextByte_eq (h : s.byteIdx.val + 1 < 33) : fallToNextByte s = { s with
    sckR := false, rxFrame := s.rxFrame.set s.byteIdx.val s.rxSh s.byteIdx.isLt, byteIdx := ⟨s.byteIdx.val + 1, h⟩,
    bitIdx := 7, mosiR := (s.txFrame.get ⟨s.byteIdx.val + 1, h⟩).getLsbD 7,
    cnt := reload s.build.sckDiv, phase := .shiftLo } := by
  have hk : s.byteIdx + 1 = ⟨s.byteIdx.val + 1, h⟩ := Fin.ext (byteIdx_succ h)
  rw [fallToNextByte, hk]

end

/-! ### IDLE and the acceptance of a request -/

/-- A request that fails validation leaves its code, no read bytes and `done`, and nothing else (R122). -/
theorem acceptRule_reject {op : ReqOp} {len : BitVec 6} {addr : Byte} {e : Completion} (h : validate op addr len = e) (he : e ≠ .ok)
    (s : State) : acceptRule op len addr s = { s with rspErr := e, rspNrx := 0, doneR := true } := by
  subst h
  rw [acceptRule]
  cases hv : validate op addr len with
  | ok => exact absurd hv he
  | transportError => exact absurd hv (validate_ne_transportError op addr len)
  | invalidAddress | invalidLength => rfl

/-- A byte of the frame that acceptance loads, written out as in R107. -/
theorem begin_txFrame_ite (op : ReqOp) (len : BitVec 6) (addr : Byte) (s : State) (k : Fin 33) :
    (beginTransaction op len addr s).txFrame.get k =
      if k.val < (frameOf s.build op addr len s.pins.reqWdata).length
      then (frameOf s.build op addr len s.pins.reqWdata).getD k.val 0x00 else 0x00 := by
  rw [begin_txFrame]
  split
  · rfl
  · exact List.getD_eq_default _ _ (by omega)

/-- Settles O18: the three outcomes of IDLE without a reset. -/
theorem idleStepTakesTheRequest : Obligations.IdleStepTakesTheRequest := by
  intro s hp hr
  have hready : s.reqReady = true := (reqReady_iff s).2 ⟨hp, hr⟩
  have htaken (hv : s.pins.reqValid = true) := step_taken hv hready
  refine ⟨fun hv => ?_, fun hv e he hne => ?_, fun hv hok => ?_⟩
  · rw [step_untaken (by simp [hv]), clockEdge_phase hr (by simp [hp, Phase.abortable]), phaseEdge_idle hp]
    rfl
  · rw [htaken hv, acceptEdge, acceptRule_reject he hne]
  · have hbegin : acceptRule s.portOp s.pins.reqLen s.pins.reqAddr s = beginTransaction s.portOp s.pins.reqLen s.pins.reqAddr s := by
      rw [acceptRule, hok]
    intro F
    have hlen : F.length = dataLen s.portOp s.pins.reqAddr s.pins.reqLen + 1 := frameOf_length ..
    refine ⟨_, htaken hv, ?_⟩
    rw [acceptEdge, hbegin]
    exact ⟨begin_txFrame_ite _ _ _ s, (begin_frameLen hok s).trans hlen.symm, begin_nrxL hok s, rfl, rfl, rfl, rfl, rfl, rfl, rfl, rfl,
      rfl, rfl, rfl, rfl, rfl, rfl, rfl⟩

/-- Settles O28: a valid request loads a transaction, a bad one writes its code. -/
theorem acceptanceLeavesEveryOtherRegister : Obligations.AcceptanceLeavesEveryOtherRegister := by
  intro i s hr
  refine ⟨_, by rw [exec_eq_offer, offer_ready hr], ?_⟩
  by_cases hok : validate (requestOf i s).1 (requestOf i s).2.2 (requestOf i s).2.1 = .ok
  · rw [acceptEdge, acceptRule, hok]
    exact ⟨rfl, rfl, rfl, rfl, rfl, rfl, rfl, rfl, rfl, rfl, rfl, rfl, fun _ => ⟨rfl, rfl⟩, fun h => absurd rfl h⟩
  · rw [acceptEdge, acceptRule_reject rfl hok]
    exact ⟨rfl, rfl, rfl, rfl, rfl, rfl, rfl, rfl, rfl, rfl, rfl, rfl, fun h => absurd h hok,
      fun _ => ⟨rfl, rfl, rfl, rfl, rfl, rfl, rfl, rfl, rfl, rfl, rfl, rfl, rfl⟩⟩

/-! ### The edges of a busy phase -/

/-- Settles O32: the two low phases share their rule, and the sample is the shift register's new bit 0. -/
theorem lowPhasesCountAndThenRaiseSck : Obligations.LowPhasesCountAndThenRaiseSck := by
  intro s hp hr hf
  have hbusy : s.phase ≠ .idle := by rcases hp with hp | hp <;> simp [hp]
  have hstep := step_phaseEdge hbusy hr fun _ => hf
  rw [phaseEdge_low hp] at hstep
  refine ⟨fun hc => by rw [hstep, if_neg hc]; rfl, fun hc => ⟨shiftIn s.rxSh s.pins.miso, ?_, fun j hj => ?_, ?_⟩⟩
  · exact shiftIn_bit _ _ 0 (by decide)
  · rw [shiftIn_bit _ _ _ (by omega), if_neg (by omega), Nat.add_sub_cancel]
  · rw [hstep, if_pos hc]; rfl

/-- Settles O33: the three falls, by the bit and the byte that end. -/
theorem highPhaseCountsAndThenLowersSck : Obligations.HighPhaseCountsAndThenLowersSck := by
  intro s hp hr hf
  have hstep := step_phaseEdge (by simp [hp]) hr fun _ => hf
  rw [phaseEdge_shiftHi hp] at hstep
  refine ⟨fun hc => ?_, fun hc hb => ?_, fun hc hb hk h => ?_, fun hc hb hk => ?_⟩
  · rw [hstep, if_neg hc]; rfl
  · rw [hstep, if_pos hc, fall, if_neg hb, fallToNextBit_eq hb]; rfl
  · rw [hstep, if_pos hc, fall, if_pos hb, if_neg (by omega), fallToNextByte_eq h]; rfl
  · rw [hstep, if_pos hc, fall, if_pos hb, if_pos (by omega)]; rfl

/-- Settles O34: the release after either completion. -/
theorem holdReleasesChipSelectAndCompletes : Obligations.HoldReleasesChipSelectAndCompletes := by
  intro s hp hr
  have hstep := step_phaseEdge (by simp [hp]) hr (by simp [hp, Phase.abortable])
  rw [phaseEdge_hold hp, holdEdge] at hstep
  refine ⟨fun hc => by rw [hstep, if_neg hc]; rfl, fun hc => ⟨_, hstep, ?_⟩⟩
  rw [if_pos hc]
  cases hl : s.faultL <;> simp [reload, hl]

/-- Settles O37. -/
theorem gapCountsAndThenIdles : Obligations.GapCountsAndThenIdles := by
  intro s hp hr
  have hstep := step_phaseEdge (by simp [hp]) hr (by simp [hp, Phase.abortable])
  rw [phaseEdge_gap hp] at hstep
  exact ⟨fun hc => by rw [hstep, if_neg hc]; rfl, fun hc => by rw [hstep, if_pos hc]; rfl⟩

/-! ### A fault where no rule reads it -/

/-- `s` with another `bus_fault` in the current cycle. -/
def State.withFault (s : State) (f : Bool) : State := { s with inputs := { s.pins with busFault := f } :: s.inputs.tail }

theorem acceptEdge_withFault (op : ReqOp) (len : BitVec 6) (addr : Byte) (s : State) (f : Bool) :
    acceptEdge op len addr (s.withFault f) = acceptEdge op len addr s := by
  unfold acceptEdge acceptRule
  cases validate op addr len <;> rfl

/-- The FIFO decode reads no input signal. -/
theorem fifoDecode_withFault (s : State) (f : Bool) : fifoDecode (s.withFault f) = (fifoDecode s).withFault f := by
  simp only [fifoDecode, apply_ite (State.withFault · f)]
  rfl

theorem completeOK_withFault (s : State) (f : Bool) : completeOK (s.withFault f) = (completeOK s).withFault f :=
  fifoDecode_withFault (statusDecode (s.rxFrame.get 0) (captureResponse s)) f

/-- IDLE, HOLD and GAP read nothing of `bus_fault` (R107, R111, R112). -/
theorem phaseEdge_withFault {s : State} (hp : s.phase = .idle ∨ s.phase = .hold ∨ s.phase = .gap) (f : Bool) :
    phaseEdge (s.withFault f) = (phaseEdge s).withFault f := by
  rcases hp with hp | hp | hp
  · rw [phaseEdge_idle hp, phaseEdge_idle (s := s.withFault f) hp]
    rfl
  · rw [phaseEdge_hold hp, phaseEdge_hold (s := s.withFault f) hp]
    simp only [holdEdge, completeOK_withFault, apply_ite (State.withFault · f), apply_ite release]
    rfl
  · rw [phaseEdge_gap hp, phaseEdge_gap (s := s.withFault f) hp]
    simp only [apply_ite (State.withFault · f)]
    rfl

/-- An edge without a request reads `bus_fault` in an abortable phase only (R106). -/
theorem clockEdge_withFault {s : State} (hp : s.phase = .idle ∨ s.phase = .hold ∨ s.phase = .gap) (f : Bool) :
    clockEdge (s.withFault f) = clockEdge s := by
  have hna : ¬ s.phase.abortable = true := by rcases hp with hp | hp | hp <;> rw [hp] <;> decide
  cases hr : s.pins.rst with
  | true => rw [clockEdge_reset hr, clockEdge_reset (s := s.withFault f) hr]; rfl
  | false =>
    rw [clockEdge_phase hr (absurd · hna), clockEdge_phase (s := s.withFault f) hr (absurd · hna), phaseEdge_withFault hp]
    rfl

/-- Settles O39: neither an acceptance nor the rule of such a phase reads `bus_fault`. -/
theorem faultOutsideAFrameIsIgnored : Obligations.FaultOutsideAFrameIsIgnored := by
  intro s p ps f hp hin
  have hpins : s.pins = p := by simp [State.pins, State.pinsAfter, hin]
  have hs : { s with inputs := { p with busFault := f } :: ps } = s.withFault f := by simp [State.withFault, hpins, hin]
  rw [hs]
  rcases step_cases s with ⟨hv, hr, hstep⟩ | ⟨hn, hstep⟩
  · rw [hstep, step_taken (s := s.withFault f) hv hr]
    exact congrArg Host.Outcome.next (acceptEdge_withFault s.portOp s.pins.reqLen s.pins.reqAddr s f)
  · rw [hstep, step_untaken (s := s.withFault f) hn, clockEdge_withFault hp]

/-! ### The shift register -/

/-- After `k` samples the low `k` bits are the first `k` bits of the byte, bit 7 first (R114). -/
theorem sampled_bit (sh m : Byte) {k : Nat} (hk : k ≤ 8) {j : Nat} (hj : j < k) :
    ((List.range k).foldl (fun acc n => shiftIn acc (m.getLsbD (7 - n))) sh).getLsbD j = m.getLsbD (8 - k + j) := by
  induction k generalizing j with
  | zero => omega
  | succ k ih =>
    rw [List.range_succ, List.foldl_append, List.foldl_cons, List.foldl_nil, shiftIn_bit _ _ _ (by omega)]
    split
    · congr 1; omega
    · rw [ih (by omega) (by omega)]; congr 1; omega

/-- Settles O40. -/
theorem eightSamplesMakeTheByte : Obligations.EightSamplesMakeTheByte := by
  intro sh m
  refine BitVec.eq_of_getLsbD_eq fun j hj => ?_
  rw [sampled_bit sh m (Nat.le_refl 8) hj, Nat.sub_self, Nat.zero_add]

/-! ### The serial outputs over every step -/

section
variable {s u : State}

theorem Inv.csn_low (h : Inv s) (hp : s.phase.selected = true) : s.csnR = false := h.chip_select.2 hp

theorem Inv.csn_high (h : Inv s) (hp : s.phase = .idle) : s.csnR = true := by
  by_contra hcs
  have hsel := h.chip_select.1 (by simpa using hcs)
  rw [hp] at hsel; cases hsel

theorem Inv.sck_low (h : Inv s) (hp : s.phase ≠ .shiftHi) : s.sckR = false := by
  simpa using fun hsck => hp (h.clock_high.1 hsck)

/-- Where MOSI moves: at a reset, at either end of a transaction, or at a falling SCK. -/
theorem StepRule.mosi_moves (hu : StepRule s u) (h : Inv s) (hm : u.mosiR ≠ s.mosiR) :
    s.pins.rst = true ∨ (s.csnR = true ∧ u.csnR = false) ∨ (s.csnR = false ∧ u.csnR = true) ∨
      (s.sckR = true ∧ u.sckR = false) := by
  cases hu with
  | reset hr => exact .inl hr
  | begin _ hp => exact .inr (.inl ⟨h.csn_high hp, rfl⟩)
  | releaseFault _ hp | releaseOK _ hp => exact .inr (.inr (.inl ⟨h.csn_low (by rw [hp]; rfl), rfl⟩))
  | fallToNextByte _ hp | fallToNextBit _ hp => exact .inr (.inr (.inr ⟨h.clock_high.2 hp, rfl⟩))
  | idle | reject | abort | rise | count | fallToHold | gapEnd | gapWait => exact absurd rfl hm

/-- SCK is raised by the end of a low phase only, which samples MISO (R108, R110). -/
theorem StepRule.raises (hu : StepRule s u) (hs : s.sckR = false) (hhigh : u.sckR = true) :
    (s.phase = .setup ∨ s.phase = .shiftLo) ∧ s.cnt = 0 ∧ s.pins.rst = false ∧ s.pins.busFault = false ∧
      u.rxSh = shiftIn s.rxSh s.pins.miso := by
  cases hu with
  | rise hr hp hf hc => exact ⟨hp, hc, hr, hf, rfl⟩
  | reset | begin | abort | fallToHold | fallToNextByte | fallToNextBit => cases hhigh
  | releaseOK => simp [hs] at hhigh
  | idle | reject | count | releaseFault | gapEnd | gapWait => exact absurd (hs.symm.trans hhigh) (by decide)

/-- Without a reset and without a rising SCK the shift register stays. -/
theorem StepRule.rxSh_kept (hu : StepRule s u) (h : Inv s) (hr : s.pins.rst = false) (hn : ¬ (s.sckR = false ∧ u.sckR = true)) :
    u.rxSh = s.rxSh := by
  cases hu with
  | reset hr' => exact absurd (hr.symm.trans hr') (by decide)
  | rise _ hp => exact absurd ⟨h.sck_low (by rcases hp with hp | hp <;> simp [hp]), rfl⟩ hn
  | releaseOK => simp
  | idle | begin | reject | abort | count | fallToHold | fallToNextByte | fallToNextBit | releaseFault | gapEnd | gapWait => rfl

/-- SCK is lowered by the end of a high half period, an abort or a reset only (R109, R113, R145). -/
theorem StepRule.falls (hu : StepRule s u) (h : Inv s) (hs : s.sckR = true) (hlow : u.sckR = false) :
    s.cnt = 0 ∨ s.pins.busFault = true ∨ s.pins.rst = true := by
  have hp := h.clock_high.1 hs
  cases hu with
  | reset hr => exact .inr (.inr hr)
  | abort _ _ hf => exact .inr (.inl hf)
  | rise _ _ _ hc | fallToHold _ _ _ hc | fallToNextByte _ _ _ hc | fallToNextBit _ _ _ hc
  | releaseFault _ _ hc | releaseOK _ _ hc | gapEnd _ _ hc => exact .inl hc
  | begin _ hi => simp [hp] at hi
  | idle | reject | count | gapWait => exact absurd (hs.symm.trans hlow) (by decide)

end

/-- Settles O44. -/
theorem mosiChangesOnlyAtFallingSck : Obligations.MosiChangesOnlyAtFallingSck := by
  intro s t h hst hm
  obtain ⟨u, hu, rfl⟩ := stepRule_of_step hst
  exact hu.mosi_moves h hm

/-- Settles O45: a rise is the one rule that raises SCK, and SCK is high in SHIFT_HI only. -/
theorem sckMovesOnlyInAFrame : Obligations.SckMovesOnlyInAFrame := by
  intro s t h hst hm
  obtain ⟨u, hu, rfl⟩ := stepRule_of_step hst
  rw [advance_sckR] at hm ⊢
  cases hs : s.sckR with
  | true =>
    have hlow : u.sckR = false := by simpa [hs] using hm
    have hp := h.clock_high.1 hs
    exact ⟨h.csn_low (by rw [hp]; rfl), .inr ⟨hlow, hp, hu.falls h hs hlow⟩⟩
  | false =>
    have hhigh : u.sckR = true := by simpa [hs] using hm
    obtain ⟨hp, hc, hr, hf, -⟩ := hu.raises hs hhigh
    exact ⟨h.csn_low (Phase.selected_of_abortable (Phase.abortable_of_low hp)), .inl ⟨hhigh, hp, hc, hr, hf⟩⟩

/-- Settles O46. -/
theorem misoIsSampledExactlyAtRisingSck : Obligations.MisoIsSampledExactlyAtRisingSck := by
  intro s t h hst hr
  obtain ⟨u, hu, rfl⟩ := stepRule_of_step hst
  refine ⟨fun ⟨hlow, hhigh⟩ => ?_, hu.rxSh_kept h hr⟩
  obtain ⟨-, -, -, -, hsample⟩ := hu.raises hlow hhigh
  exact hsample

/-! ### The bit that MOSI carries at an edge -/

/-- The edge that puts bit `n` on MOSI: the acceptance, or the falling SCK of the bit before (R115). -/
def startAt (b : Build) : Nat → Nat
  | 0 => 0
  | n + 1 => fallAt b n

theorem startAt_le_iff (b : Build) (n e : Nat) : startAt b n ≤ e ↔ n = 0 ∨ fallAt b (n - 1) ≤ e := by
  cases n <;> simp [startAt]

theorem startAt_lt_riseAt (b : Build) (n : Nat) : startAt b n < riseAt b n := by
  cases n with
  | zero => exact Nat.lt_add_right _ b.tSetup.pos
  | succ n => rw [riseAt_succ]; exact Nat.lt_add_of_pos_right b.sckDiv.pos

theorem riseAt_lt_fallAt (b : Build) (n : Nat) : riseAt b n < fallAt b n := Nat.lt_add_of_pos_right b.sckDiv.pos

theorem fallAt_mono (b : Build) {m n : Nat} (h : m ≤ n) : fallAt b m ≤ fallAt b n := Nat.add_le_add_right (riseAt_mono b h) _

/-- A bit starts when the bits before it have ended. -/
theorem fallAt_le_startAt (b : Build) {m n : Nat} (h : m < n) : fallAt b m ≤ startAt b n := by
  cases n with
  | zero => omega
  | succ n => exact fallAt_mono b (by omega)

theorem fallAt_le_lastFallAt (b : Build) {N n : Nat} (h : n < 8 * N) : fallAt b n ≤ lastFallAt b N := by
  rw [lastFallAt_eq b (by omega)]
  exact fallAt_mono b (by omega)

/-- An edge is in one bit at most. -/
theorem bit_unique {b : Build} {m n e : Nat} (hm : startAt b m ≤ e) (hm' : e < fallAt b m) (hn : startAt b n ≤ e)
    (hn' : e < fallAt b n) : m = n := by
  rcases Nat.lt_trichotomy m n with h | h | h
  · have := fallAt_le_startAt b h
    omega
  · exact h
  · have := fallAt_le_startAt b h
    omega

/-- Every edge before the last falling SCK is in some bit. -/
theorem exists_bit (b : Build) {N e : Nat} (h : 1 ≤ N) (he : e < lastFallAt b N) : ∃ n < 8 * N, startAt b n ≤ e ∧ e < fallAt b n := by
  rcases leg_of_edge b h (e := e) with h0 | ⟨n, hn, hs, hf⟩ | ⟨n, hn, hs, hf⟩ | hl
  · exact ⟨0, by omega, Nat.zero_le e, Nat.lt_trans h0 (riseAt_lt_fallAt b 0)⟩
  · exact ⟨n, hn, Nat.le_trans (startAt_lt_riseAt b n).le hs, hf⟩
  · exact ⟨n + 1, hn, hs, Nat.lt_trans hf (riseAt_lt_fallAt b (n + 1))⟩
  · omega

/-! ### A transaction cycle by cycle, without a reset or a fault until its completion -/

section
variable {s : State} {F : List Byte} {r : Nat} {op : ReqOp} {addr : Byte} {M : Nat → Byte} {n e : Nat}
variable (hF : F.length ≤ 33) (h1 : 1 ≤ F.length) (hM : s.presents F.length M) (hq : s.quiet (doneAt s.build F.length))
include hF hM hq

/-- From its start to its rising SCK a bit stands on MOSI with SCK low. -/
theorem low_before_rise (hn : n < 8 * F.length) (hs : startAt s.build n ≤ e) (he : e < riseAt s.build n) :
    Low s F r op addr M n (cycle s F r op addr e) := by
  have hrise := riseAt_lt_fallAt s.build n
  have hfall : fallAt s.build n ≤ doneAt s.build F.length := Nat.le_add_right_of_le (fallAt_le_lastFallAt s.build hn)
  have hq' : s.quiet e := quiet_mono hq (by omega)
  cases n with
  | zero => exact (setup_at he (quiet_mono hq (hrise.le.trans hfall))).1
  | succ n =>
    obtain ⟨d, rfl⟩ := Nat.exists_eq_add_of_le hs
    rw [riseAt_succ] at he
    exact (low_during hF hM hn (Nat.lt_of_add_lt_add_left he) hq').1

/-- From its rising to its falling SCK it stands there with SCK high. -/
theorem high_before_fall (hn : n < 8 * F.length) (hs : riseAt s.build n ≤ e) (he : e < fallAt s.build n) :
    High s F r op addr M n (cycle s F r op addr e) := by
  have hfall : fallAt s.build n ≤ doneAt s.build F.length := Nat.le_add_right_of_le (fallAt_le_lastFallAt s.build hn)
  obtain ⟨d, rfl⟩ := Nat.exists_eq_add_of_le hs
  exact (high_during hF hM hn (Nat.lt_of_add_lt_add_left he) (quiet_mono hq (by omega))).1

/-- The registers over the whole of a bit. -/
theorem onBit_until_fall (hn : n < 8 * F.length) (hs : startAt s.build n ≤ e) (he : e < fallAt s.build n) :
    (∃ m, OnBit s F r op addr M n m (cycle s F r op addr e)) ∧ (cycle s F r op addr e).phase.abortable = true ∧
      ((cycle s F r op addr e).sckR = true ↔ riseAt s.build n ≤ e) := by
  by_cases hrise : riseAt s.build n ≤ e
  · have h : High s F r op addr M n (cycle s F r op addr e) := high_before_fall hF hM hq hn hrise he
    exact ⟨⟨_, h.on⟩, by rw [h.phase]; rfl, by simp [h.sckR, hrise]⟩
  · have h : Low s F r op addr M n (cycle s F r op addr e) := low_before_rise hF hM hq hn hs (by omega)
    exact ⟨⟨_, h.on⟩, Phase.abortable_of_low h.phase, by simp [h.sckR, hrise]⟩

/-- SCK just before and at its two edges of a bit, and the sample at the first (R114, R117). -/
theorem sck_edges_of_bit (hn : n < 8 * F.length) :
    (cycle s F r op addr (riseAt s.build n - 1)).sckR = false ∧ (cycle s F r op addr (riseAt s.build n)).sckR = true ∧
      (cycle s F r op addr (riseAt s.build n)).rxSh.getLsbD 0 = (s.pinsAfter (riseAt s.build n)).miso ∧
      (cycle s F r op addr (fallAt s.build n - 1)).sckR = true := by
  have hstart := startAt_lt_riseAt s.build n
  have hfall := riseAt_lt_fallAt s.build n
  have hbefore : Low s F r op addr M n (cycle s F r op addr (riseAt s.build n - 1)) :=
    low_before_rise hF hM hq hn (by omega) (by omega)
  have hrise : High s F r op addr M n (cycle s F r op addr (riseAt s.build n)) :=
    high_before_fall hF hM hq hn (Nat.le_refl _) hfall
  have hend : High s F r op addr M n (cycle s F r op addr (fallAt s.build n - 1)) :=
    high_before_fall hF hM hq hn (by omega) (by omega)
  refine ⟨hbefore.sckR, hrise.sckR, ?_, hend.sckR⟩
  rw [hrise.on.rxSh 0 (by omega), hM n hn]
  congr 1; omega

include h1

/-- After the last falling SCK the transaction is in HOLD. -/
theorem held_before_done (hs : lastFallAt s.build F.length ≤ e) (he : e < doneAt s.build F.length) :
    Held s F r op addr M (cycle s F r op addr e) := by
  obtain ⟨d, rfl⟩ := Nat.exists_eq_add_of_le hs
  exact (held_during hF h1 hM (Nat.lt_of_add_lt_add_left he) (quiet_mono hq he.le)).1

/-- Every falling SCK leaves it low. -/
theorem sck_low_at_fall (hn : n < 8 * F.length) : (cycle s F r op addr (fallAt s.build n)).sckR = false := by
  by_cases hlast : n + 1 < 8 * F.length
  · have h : Low s F r op addr M (n + 1) (cycle s F r op addr (fallAt s.build n)) :=
      low_before_rise hF hM hq hlast (Nat.le_refl _) (startAt_lt_riseAt s.build (n + 1))
    exact h.sckR
  · have hfall : fallAt s.build n = lastFallAt s.build F.length := by
      rw [lastFallAt_eq s.build h1, show n = 8 * F.length - 1 by omega]
    have h : Held s F r op addr M (cycle s F r op addr (fallAt s.build n)) :=
      held_before_done hF h1 hM hq hfall.ge (by rw [hfall]; exact Nat.lt_add_of_pos_right s.build.tHold.pos)
    exact h.sckR

/-- No edge before the return to IDLE is in IDLE. -/
theorem busy_before_ready (hr : r + 1 ≤ F.length ∨ r = 0) (hq' : s.quiet (readyAt s.build F.length))
    (he : e < readyAt s.build F.length) : (cycle s F r op addr e).phase ≠ .idle := by
  by_cases hdone : doneAt s.build F.length ≤ e
  · obtain ⟨d, rfl⟩ := Nat.exists_eq_add_of_le hdone
    have hgap := (gap_during (op := op) (addr := addr) hF h1 hM hr (Nat.lt_of_add_lt_add_left he) (quiet_mono hq' he.le)).1
    simp [hgap.phase]
  by_cases hlast : lastFallAt s.build F.length ≤ e
  · have h : Held s F r op addr M (cycle s F r op addr e) := held_before_done hF h1 hM hq hlast (by omega)
    simp [h.phase]
  · obtain ⟨n, hn, hs, hf⟩ := exists_bit s.build h1 (Nat.lt_of_not_le hlast)
    obtain ⟨-, hframe, -⟩ := onBit_until_fall (r := r) (op := op) (addr := addr) hF hM hq hn hs hf
    intro hidle
    rw [hidle] at hframe; cases hframe

/-- The serial outputs in every cycle before the completion (R115). -/
theorem wire_before_done (he : e < doneAt s.build F.length) :
    (cycle s F r op addr e).csnR = false ∧
      ((cycle s F r op addr e).sckR = true ↔ ∃ n, n < 8 * F.length ∧ riseAt s.build n ≤ e ∧ e < fallAt s.build n) ∧
      ∀ n, n < 8 * F.length → startAt s.build n ≤ e → e < fallAt s.build n → (cycle s F r op addr e).mosiR = frameBit F n := by
  by_cases hlast : e < lastFallAt s.build F.length
  · obtain ⟨m, hm, hms, hmf⟩ := exists_bit s.build h1 hlast
    obtain ⟨⟨k, hon⟩, -, hsck⟩ := onBit_until_fall (r := r) (op := op) (addr := addr) hF hM hq hm hms hmf
    refine ⟨hon.csnR, hsck.trans ⟨fun hrise => ⟨m, hm, hrise, hmf⟩, fun ⟨n, hn, hrise, hnf⟩ => ?_⟩, fun n hn hns hnf => ?_⟩
    · rwa [bit_unique hms hmf ((startAt_lt_riseAt s.build n).le.trans hrise) hnf]
    · rw [← bit_unique hms hmf hns hnf]
      exact hon.mosiR
  · have h : Held s F r op addr M (cycle s F r op addr e) := held_before_done hF h1 hM hq (by omega) he
    have hover : ∀ n, n < 8 * F.length → ¬ e < fallAt s.build n := fun n hn => by
      have := fallAt_le_lastFallAt s.build hn
      omega
    exact ⟨h.csnR, by simpa [h.sckR] using fun n hn _ => hover n hn, fun n hn _ hnf => absurd hnf (hover n hn)⟩

end

/-! ### Whole transactions -/

section
variable {op : ReqOp} {len : BitVec 6} {addr : Byte}

theorem frameOf_length_bounds (h : validate op addr len = .ok) (b : Build) (wdata : Vector Byte 32) :
    1 ≤ (frameOf b op addr len wdata).length ∧ (frameOf b op addr len wdata).length ≤ 33 := by
  have := dataLen_le h
  rw [frameOf_length]
  omega

/-- A valid read returns at least one byte. -/
theorem one_le_rxCount (h : validate op addr len = .ok) (hop : op.isRead = true) : 1 ≤ rxCount op addr len := by
  rw [rxCount_read hop]
  split
  next hb => exact (((validate_eq_ok_iff op len addr).1 h).2 hb).1
  next => exact Nat.le_refl 1

/-- Every valid read of FIFO_STATUS is decoded, and nothing else (R120). -/
theorem decodesFifo_iff (h : validate op addr len = .ok) :
    decodesFifo op addr (rxCount op addr len) = true ↔ op.isRead = true ∧ addr = 0x17 := by
  simp only [decodesFifo, Bool.and_eq_true, beq_iff_eq, decide_eq_true_eq]
  exact ⟨fun hd => hd.1, fun hd => ⟨hd, one_le_rxCount h hd.1⟩⟩

end
theorem succeed_rdata_get (old : Response) (op : ReqOp) (addr : Byte) (r : Nat) (M : Nat → Byte) (k : Fin 32) :
    (old.succeed op addr r M).rdata.get k = if k.val < r then M (k.val + 1) else 0x00 := by
  show (old.succeed op addr r M).rdata[k.val] = _
  rw [Response.succeed, Vector.getElem_ofFn]

/-- Settles O55: a rising SCK is in its bit, and the response registers are read off the completion's response. -/
theorem everyTransactionAgreesWithItsFrame : Obligations.EveryTransactionAgreesWithItsFrame := by
  intro i s M hr op len addr F r hv hq hM
  obtain ⟨s₁, hexec, hrun⟩ := run_accepted (i := i) (op := op) (len := len) (addr := addr) rfl hr hv
  obtain ⟨h1, hF⟩ : 1 ≤ F.length ∧ F.length ≤ 33 := frameOf_length_bounds hv s.build s.pins.reqWdata
  have hcount : r + 1 ≤ F.length ∨ r = 0 := rxCount_lt_frame hv s.build s.pins.reqWdata
  obtain ⟨hgap, hdone, -⟩ := gapped_at (op := op) (addr := addr) hF h1 hM hcount hq
  have hresp := hgap.response
  have hread : (BitVec.ofNat 6 r).toNat = r := Nat.mod_eq_of_lt (Nat.lt_of_le_of_lt (rxCount_le hv) (by decide))
  have hfv := congrArg Response.fifoValid hresp
  have hfe := congrArg Response.fifoRxEmpty hresp
  refine ⟨s₁, _, hexec, fun n hn => ⟨_, hrun _, ?_⟩, hrun _, congrArg Response.err hresp, congrArg Response.status hresp,
    (congrArg (·.nrx.toNat) hresp).trans hread, fun k => ?_, congrArg Response.stValid hresp, congrArg Response.stRxDr hresp,
    congrArg Response.stTxDs hresp, congrArg Response.stMaxRt hresp, fun hd => ?_, fun hd => ?_, ?_, hdone, hgap.csnR, hgap.phase⟩
  · have h : High s F r op addr M n (cycle s F r op addr (riseAt s.build n)) :=
      high_before_fall hF hM hq hn (Nat.le_refl _) (riseAt_lt_fallAt s.build n)
    exact h.on.mosiR
  · exact (congrArg (·.rdata.get k) hresp).trans (succeed_rdata_get s.response op addr r M k)
  · have hdec : decodesFifo op addr r = true := (decodesFifo_iff hv).2 hd
    exact ⟨hfv.trans (if_pos hdec), hfe.trans (if_pos hdec)⟩
  · have hdec : ¬ decodesFifo op addr r = true := fun h => hd ((decodesFifo_iff hv).1 h)
    exact ⟨hfv.trans (if_neg hdec), hfe.trans (if_neg hdec)⟩
  · rw [hresp, transact, hv]

/-- Settles O56: chip-select, SCK and MOSI in each cycle of the walk, for whatever bytes MISO presents. -/
theorem wireCarriesTheFrame : Obligations.WireCarriesTheFrame := by
  intro i s hI hr op len addr F N b hv hq
  obtain ⟨s₁, hexec, hrun⟩ := run_accepted (i := i) (op := op) (len := len) (addr := addr) rfl hr hv
  obtain ⟨h1, hF⟩ : 1 ≤ F.length ∧ F.length ≤ 33 := frameOf_length_bounds hv s.build s.pins.reqWdata
  obtain ⟨M, hM⟩ := presents_exists s F.length
  have hidle : s.phase = .idle := ((reqReady_iff s).1 hr).1
  obtain ⟨hgap, -⟩ := gapped_at (op := op) (addr := addr) hF h1 hM (rxCount_lt_frame hv s.build s.pins.reqWdata) hq
  refine ⟨hI.csn_high hidle, hI.sck_low (by simp [hidle]), s₁, hexec, fun e he => ⟨_, hrun e, ?_⟩, _, hrun _, hgap.csnR, hgap.sckR⟩
  obtain ⟨hcsn, hsck, hmosi⟩ := wire_before_done (r := rxCount op addr len) (op := op) (addr := addr) hF h1 hM hq he
  exact ⟨hcsn, hsck, fun n hn hs => hmosi n hn ((startAt_le_iff b n e).2 hs)⟩

/-- Settles O57: the cycles just before and at each edge of the schedule, for whatever bytes MISO presents. -/
theorem transactionKeepsTheEdgeSchedule : Obligations.TransactionKeepsTheEdgeSchedule := by
  intro i s hr op len addr N b hv hq
  obtain ⟨s₁, hexec, hrun⟩ := run_accepted (i := i) (op := op) (len := len) (addr := addr) rfl hr hv
  obtain ⟨h1, hF⟩ := frameOf_length_bounds hv s.build s.pins.reqWdata
  have hcount := rxCount_lt_frame hv s.build s.pins.reqWdata
  have hhead := frameOf_head s.build op addr len s.pins.reqWdata
  have hN : N = (frameOf s.build op addr len s.pins.reqWdata).length := by rw [frameOf_length]; exact Nat.add_comm ..
  generalize frameOf s.build op addr len s.pins.reqWdata = F at *
  clear_value N
  subst hN
  obtain ⟨M, hM⟩ := presents_exists s F.length
  have hdone : doneAt b F.length ≤ readyAt b F.length := Nat.le_add_right ..
  have hhold : doneAt b F.length - 1 < doneAt b F.length ∧ lastFallAt b F.length ≤ doneAt b F.length - 1 := by
    have := b.tHold.pos
    rw [doneAt]; omega
  have hqd : s.quiet (doneAt b F.length) := quiet_mono hq hdone
  have hheld : Held s F (rxCount op addr len) op addr M (cycle s F (rxCount op addr len) op addr (doneAt b F.length - 1)) :=
    held_before_done hF h1 hM hqd hhold.2 hhold.1
  obtain ⟨hgap, hgapDone, -⟩ := gapped_at (op := op) (addr := addr) hF h1 hM hcount hqd
  obtain ⟨hidle, hidleDone, -⟩ := idle_at (op := op) (addr := addr) hF h1 hM hcount hq
  have h0 : s₁ = cycle s F (rxCount op addr len) op addr 0 := Host.Outcome.next.inj (hrun 0)
  refine ⟨s₁, hexec, by rw [h0]; rfl, ?_, fun n hn => ?_, lastFallAt_eq b h1,
    ⟨_, _, hrun _, hheld.csnR, hheld.doneR, hrun _, hgap.csnR, hgapDone⟩, ⟨_, hrun _, hidle, hidleDone⟩,
    fun e he => ⟨_, hrun e, busy_before_ready hF h1 hM hqd hcount hq he⟩⟩
  · rw [h0, ← hhead]; rfl
  · obtain ⟨hbefore, hrise, hsample, hend⟩ := sck_edges_of_bit (r := rxCount op addr len) (op := op) (addr := addr) hF hM hqd hn
    exact ⟨_, _, _, _, hrun _, hbefore, hrun _, hrise, hsample, hrun _, hend, hrun _, sck_low_at_fall hF h1 hM hqd hn⟩

end Sys2Proof.Machine
end

section
/-! PROOFS. The family of 43_response_decode.md and 60_exceptions.md: what the device cannot reach, the completions and what holds
between them, and the reference slave as a device. -/

namespace Sys2Proof.Machine

/-! ### What the device cannot reach (R130) -/

/-- A state with everything blanked that the device's bits can reach, and with the model's own two fields blanked. -/
def State.blanked (s : State) : State :=
  { s with
    rxSh := 0x00
    rxFrame := Vector.replicate 33 0x00
    rspStatus := 0x00
    rspRdata := Vector.replicate 32 0x00
    stRxDr := false
    stTxDs := false
    stMaxRt := false
    fifoRxEmpty := false
    inputs := []
    tick := 0 }

/-- The input signals of a cycle with MISO blanked. -/
def withoutMiso (p : Pins) : Pins := { p with miso := false }

/-- Two states that differ at most in received data, with inputs that differ at most in MISO. -/
structure AgreeButDevice (s t : State) : Prop where
  state : s.blanked = t.blanked
  pinsAfter : ∀ n, withoutMiso (s.pinsAfter n) = withoutMiso (t.pinsAfter n)

/-- What decides the FIFO decode is not blanked, and the bit it takes over goes into a blanked flag (R120). -/
theorem fifoDecode_blanked (s : State) : (fifoDecode s).blanked = (fifoDecode s.blanked).blanked := by
  simp only [fifoDecode, apply_ite State.blanked]
  rfl

/-- Success writes received data and nothing else that depends on it (R118 to R120). -/
theorem completeOK_blanked (s : State) : (completeOK s).blanked = (completeOK s.blanked).blanked :=
  (fifoDecode_blanked (statusDecode (s.rxFrame.get 0) (captureResponse s))).trans
    (fifoDecode_blanked (statusDecode (s.blanked.rxFrame.get 0) (captureResponse s.blanked))).symm

theorem release_blanked (s : State) : (release s).blanked = (release s.blanked).blanked := rfl

/-- The rule of each phase reads received data only to write it on as received data (R107 to R112). -/
theorem phaseEdge_blanked (s : State) : (phaseEdge s).blanked = (phaseEdge s.blanked).blanked := by
  have hlow (hp : s.phase = .setup ∨ s.phase = .shiftLo) : (phaseEdge s).blanked = (phaseEdge s.blanked).blanked := by
    rw [phaseEdge_low hp, phaseEdge_low (s := s.blanked) hp, apply_ite State.blanked, apply_ite State.blanked]
    rfl
  cases hp : s.phase with
  | idle => rw [phaseEdge_idle hp, phaseEdge_idle (s := s.blanked) hp]; rfl
  | setup => exact hlow (.inl hp)
  | shiftLo => exact hlow (.inr hp)
  | shiftHi =>
    rw [phaseEdge_shiftHi hp, phaseEdge_shiftHi (s := s.blanked) hp]
    simp only [fall, apply_ite State.blanked]
    rfl
  | hold =>
    rw [phaseEdge_hold hp, phaseEdge_hold (s := s.blanked) hp]
    simp only [holdEdge, apply_ite release, apply_ite State.blanked]
    rw [release_blanked (completeOK s), completeOK_blanked]
    rfl
  | gap =>
    rw [phaseEdge_gap hp, phaseEdge_gap (s := s.blanked) hp, apply_ite State.blanked, apply_ite State.blanked]
    rfl

section
variable {s t : State}

/-- What does not read the blanked registers is the same in both. -/
theorem AgreeButDevice.reg {α : Type} (h : AgreeButDevice s t) (f : State → α)
    (hf : ∀ u : State, f u.blanked = f u := by exact fun _ => rfl) : f s = f t := by
  rw [← hf s, h.state, hf t]

/-- What does not read MISO in this cycle is the same in both. -/
theorem AgreeButDevice.signal {α : Type} (h : AgreeButDevice s t) (f : Pins → α)
    (hf : ∀ p : Pins, f (withoutMiso p) = f p := by exact fun _ => rfl) : f s.pins = f t.pins := by
  have hp : withoutMiso s.pins = withoutMiso t.pins := h.pinsAfter 0
  rw [← hf s.pins, hp, hf t.pins]

theorem AgreeButDevice.reqReady (h : AgreeButDevice s t) : s.reqReady = t.reqReady := by
  rw [State.reqReady, State.reqReady, h.reg State.phase, h.signal Pins.rst]

/-- Reset, abort and the phase's own rule, chosen by signals that are not MISO (R106). -/
theorem AgreeButDevice.edgeRule (h : AgreeButDevice s t) : (edgeRule s).blanked = (edgeRule t).blanked := by
  have hreset : (resetEdge s).blanked = (resetEdge t).blanked := h.reg fun u => (resetEdge u).blanked
  have habort : (abortEdge s).blanked = (abortEdge t).blanked := h.reg fun u => (abortEdge u).blanked
  have hphase : (phaseEdge s).blanked = (phaseEdge t).blanked := 
    h.reg (fun u => (phaseEdge u).blanked) fun u => (phaseEdge_blanked u).symm
  have hfault : s.pins.busFault = t.pins.busFault := h.signal Pins.busFault
  simp only [Machine.edgeRule, apply_ite State.blanked, hreset, habort, hphase, h.signal Pins.rst, h.reg State.phase, hfault]

/-- The acceptance reads no received data, and no MISO (R107). -/
theorem AgreeButDevice.acceptRule (h : AgreeButDevice s t) (op : ReqOp) (len : BitVec 6) (addr : Byte) :
    (acceptRule op len addr s).blanked = (acceptRule op len addr t).blanked := by
  by_cases hok : validate op addr len = .ok
  · have hwdata : s.pins.reqWdata = t.pins.reqWdata := h.signal Pins.reqWdata
    have hbuild : s.build = t.build := h.reg State.build
    rw [Machine.acceptRule, Machine.acceptRule, hok]
    simp only [beginTransaction, hwdata, hbuild]
    exact h.reg fun u => (loadTransaction _ _ op addr u).blanked
  · rw [acceptRule_reject rfl hok, acceptRule_reject rfl hok]
    exact h.reg fun u => ({ u with rspErr := validate op addr len, rspNrx := 0, doneR := true } : State).blanked

/-- The two take the same request, or run the same edge. -/
theorem AgreeButDevice.stepState (h : AgreeButDevice s t) : AgreeButDevice (stepState s) (stepState t) where
  state := by
    have hop : s.portOp = t.portOp := h.signal fun p => reqOpOf p.reqOp
    have hlen : s.pins.reqLen = t.pins.reqLen := h.signal Pins.reqLen
    have haddr : s.pins.reqAddr = t.pins.reqAddr := h.signal Pins.reqAddr
    have hvalid : s.pins.reqValid = t.pins.reqValid := h.signal Pins.reqValid
    have haccept : (acceptEdge s.portOp s.pins.reqLen s.pins.reqAddr s).blanked =
        (acceptEdge t.portOp t.pins.reqLen t.pins.reqAddr t).blanked := by
      rw [hop, hlen, haddr]; exact h.acceptRule ..
    have hclock : (clockEdge s).blanked = (clockEdge t).blanked := h.edgeRule
    simp only [Machine.stepState, apply_ite State.blanked, haccept, hclock, hvalid, h.reqReady]
  pinsAfter n := by simpa using h.pinsAfter (n + 1)

theorem AgreeButDevice.after (h : AgreeButDevice s t) (k : Nat) : AgreeButDevice (after s k) (after t k) := by
  induction k generalizing s t with
  | zero => exact h
  | succ k ih => exact ih h.stepState

end

/-- Settles O47: the two runs agree in every cycle on all that the device cannot reach, and each output named is of that part. -/
theorem deviceCannotInfluenceTheBus : Obligations.DeviceCannotInfluenceTheBus := by
  intro s t hst hpins k
  have h₀ : AgreeButDevice s t := ⟨(congrArg State.blanked hst).symm, fun n => (congrArg withoutMiso (hpins n)).symm⟩
  have h := h₀.after k
  exact ⟨_, _, run_eq s k, run_eq t k, h.reg State.csnR, h.reg State.sckR, h.reg State.mosiR, h.reqReady,
    h.reg State.busy, h.reg State.doneR, h.reg State.rspErr, h.reg State.rspNrx, h.reg State.stValid, h.reg State.fifoValid⟩

/-! ### Completions (R119 to R123, R133, R134) -/

/-- A request that fails validation with `e` writes its code at a ready port, and nothing else but `done` and the read count (R122). -/
theorem exec_reject {i : Instr} {s : State} {e : Completion} (hr : s.reqReady = true)
    (hv : validate (requestOf i s).1 (requestOf i s).2.2 (requestOf i s).2.1 = e) (he : e ≠ .ok) :
    exec i s = .next ({ s with rspErr := e, rspNrx := 0, doneR := true } : State).advance := by
  rw [exec_eq_offer, offer_ready hr, acceptEdge, acceptRule_reject hv he]

/-- Settles O27: the two codes of the validation, the address before the length. -/
theorem badRequestsCompleteAtOnceWithTheirCode : Obligations.BadRequestsCompleteAtOnceWithTheirCode := by
  intro i s hr
  refine ⟨fun ha => ?_, fun ha hbuf hlen => ?_⟩
  · exact exec_reject hr ((validate_eq_invalidAddress_iff _ _ _).2 ha) (by decide)
  · exact exec_reject hr ((validate_eq_invalidLength_iff _ _ _).2 ⟨ha, hbuf, by omega⟩) (by decide)

/-- The end of HOLD releases chip-select after the completion that `fault_l` chooses (R111). -/
theorem step_hold_end {s : State} (hp : s.phase = .hold) (hc : s.cnt = 0) (hr : s.pins.rst = false) :
    step s = .next (release (if s.faultL then completeTransportError s else completeOK s)).advance := by
  rw [step_phaseEdge (by simp [hp]) hr (by simp [hp, Phase.abortable]), phaseEdge_hold hp, holdEdge, if_pos hc]

theorem isRead_iff (op : ReqOp) : op.isRead = true ↔ op = .readReg ∨ op = .readBuf := by cases op <;> decide

/-- The condition of the FIFO decode, written out as in R120. -/
theorem decodesFifo_iff_read (op : ReqOp) (addr : Byte) (n : Nat) :
    decodesFifo op addr n = true ↔ (op = .readReg ∨ op = .readBuf) ∧ addr = 0x17 ∧ 1 ≤ n := by
  simp [decodesFifo, isRead_iff, fifoStatusAddr, and_assoc]

theorem readData_get (nrx : Nat) (rxFrame : Vector Byte 33) (i : Fin 32) :
    (readData nrx rxFrame).get i = if i.val < nrx then rxFrame.get i.succ else 0x00 := by
  show (readData nrx rxFrame)[i.val] = _
  rw [readData, Vector.getElem_ofFn]

/-- Settles O35: the registers of `completeOK`, which the release keeps; the FIFO flags by the decode's condition. -/
theorem successWritesTheResponseAndTheFlags : Obligations.SuccessWritesTheResponseAndTheFlags := by
  intro s hp hc hr hl
  have hstep : step s = .next (release (completeOK s)).advance := by simp [step_hold_end hp hc hr, hl]
  refine ⟨_, hstep, completeOK_rspErr s, completeOK_rspStatus s, completeOK_rspNrx s, fun i => ?_, completeOK_stValid s,
    completeOK_stRxDr s, completeOK_stTxDs s, completeOK_stMaxRt s, fun hd => ?_, fun hd => ?_⟩
  · exact (congrArg (·.get i) (completeOK_rspRdata s)).trans (readData_get ..)
  all_goals rw [← decodesFifo_iff_read] at hd
  · exact ⟨(completeOK_fifoValid s).trans (if_pos hd), (completeOK_fifoRxEmpty s).trans (if_pos hd)⟩
  · exact ⟨(completeOK_fifoValid s).trans (if_neg hd), (completeOK_fifoRxEmpty s).trans (if_neg hd)⟩

/-- Settles O36: `completeTransportError` writes no flag, and the release keeps its registers. -/
theorem transportErrorKeepsTheFlags : Obligations.TransportErrorKeepsTheFlags := by
  intro s hp hc hr hl
  have hstep : step s = .next (release (completeTransportError s)).advance := by simp [step_hold_end hp hc hr, hl]
  exact ⟨_, hstep, rfl, rfl, rfl, rfl, rfl, rfl, rfl, rfl⟩

/-- Only a reset, the end of HOLD and a bad request write the response registers (R123). -/
theorem StepRule.response_kept {s u : State} (hu : StepRule s u) (hr : s.pins.rst = false) (hh : ¬ (s.phase = .hold ∧ s.cnt = 0))
    (hb : ¬ (s.phase = .idle ∧ s.pins.reqValid = true ∧ validate s.portOp s.pins.reqAddr s.pins.reqLen ≠ .ok)) :
    u.response = s.response := by
  cases hu with
  | reset hr' => rw [hr] at hr'; cases hr'
  | reject _ _ _ hp hv hbad => exact absurd ⟨hp, hv, hbad⟩ hb
  | releaseFault _ hp hc | releaseOK _ hp hc => exact absurd ⟨hp, hc⟩ hh
  | idle | begin | abort | rise | count | fallToHold | fallToNextByte | fallToNextBit | gapEnd | gapWait => rfl

/-- Settles O41: the step is one rule, and the clock edge as such writes no register. -/
theorem responseHoldsBetweenCompletions : Obligations.ResponseHoldsBetweenCompletions := by
  intro s t hst hr hh hb
  obtain ⟨u, hu, rfl⟩ := stepRule_of_step hst
  exact hu.response_kept hr hh hb

/-! ### The reference slave's answer to a frame (R131) -/

/-- A command gives an answer, as many bytes as it has data bytes; a request is no command of its own. -/
theorem command_answers {c : Byte} {i : Instr} (hd : decodeOpcode c = .ok i) (x : RefSlave) (D : List Byte) :
    ∃ M y, x.command i D = some (M, y) ∧ M.length = D.length := by
  have hfill : (fillers D.length).length = D.length := List.length_replicate
  cases i with
  | rRegister a =>
    simp only [RefSlave.command]
    split <;> exact ⟨_, _, rfl, upTo_length ..⟩
  | wRegister a =>
    simp only [RefSlave.command]
    split <;> exact ⟨_, _, rfl, hfill⟩
  | rRxPayload =>
    simp only [RefSlave.command]
    split
    · exact ⟨_, _, rfl, hfill⟩
    · exact ⟨_, _, rfl, upTo_length ..⟩
  | wTxPayload =>
    simp only [RefSlave.command]
    split <;> exact ⟨_, _, rfl, hfill⟩
  | flushTx | flushRx | reuseTxPl | nop => exact ⟨_, _, rfl, hfill⟩
  | readReg | readBuf | writeReg | writeBuf => cases (encode_of_decodeOpcode hd).2

/-- A payload read takes the head of the receive FIFO and returns its bytes. -/
theorem command_rxPayload {x : RefSlave} {p : List Byte} {ps : List (List Byte)} (h : x.rxf = p :: ps) (D : List Byte) :
    x.command .rRxPayload D = some (upTo D.length p, { x with rxf := ps }) := by
  simp only [RefSlave.command, h]

/-- An answered frame is one of a command. -/
theorem exists_command_of_answer {x y : RefSlave} {c : Byte} {D M : List Byte} (h : x.answer (c :: D) = some (M, y)) :
    ∃ i M', decodeOpcode c = .ok i ∧ x.command i D = some (M', y) ∧ M = x.status :: M' := by
  cases hd : decodeOpcode c with
  | error e => simp [RefSlave.answer, hd] at h
  | ok i =>
    rw [answer_eq hd, Option.map_eq_some_iff] at h
    obtain ⟨⟨M', y'⟩, hc, he⟩ := h
    cases he
    exact ⟨i, M', rfl, hc, rfl⟩

theorem stickyMask_bit {j : Nat} (hj : j < 8) : stickyMask.getLsbD j = (j == 4 || j == 5 || j == 6) := by
  revert j; decide

/-- A one-byte write of the status register clears the sticky flags whose bits are 1. -/
theorem answer_statusWrite (x : RefSlave) (v : Byte) :
    x.answer [0x27, v] = some (x.status :: fillers 1, x.setReg statusAddr [x.status &&& ~~~(v &&& stickyMask)]) := rfl

theorem status_setReg (x : RefSlave) (v : Byte) : (x.setReg statusAddr [v]).status = v := by
  rw [RefSlave.status, RefSlave.reg_setReg, if_pos rfl]; rfl

theorem statusWrite_bit (st v : Byte) {j : Nat} (hj : j < 8) : (st &&& ~~~(v &&& stickyMask)).getLsbD j =
    (st.getLsbD j && !(v.getLsbD j && (j == 4 || j == 5 || j == 6))) := by
  rw [BitVec.getLsbD_and, BitVec.getLsbD_not, BitVec.getLsbD_and, stickyMask_bit hj, decide_eq_true hj, Bool.true_and]

/-- Settles O58: every answer begins with the old status, and only a write of the status register moves it. -/
theorem referenceSlaveKeepsStickyFlags : Obligations.ReferenceSlaveKeepsStickyFlags := by
  refine ⟨fun x y c D M h => ?_, fun x v => ⟨_, _, answer_statusWrite x v, fun j hj => ?_⟩⟩
  · obtain ⟨i, M', hd, hc, rfl⟩ := exists_command_of_answer h
    obtain ⟨M'', y', hc', hlen⟩ := command_answers hd x D
    cases hc.symm.trans hc'
    refine ⟨rfl, by rw [List.length_cons, hlen, Nat.add_comm], fun hne => command_status (fun hi => hne ?_) hc⟩
    exact eq_of_decodeOpcode_write (hi ▸ hd)
  · rw [status_setReg, statusWrite_bit _ _ hj]

/-! ### The reference slave as a device (R124 to R129) -/

/-- A frame a block sends begins with the opcode of a command (R84). -/
theorem SentBy.exists_command {b : Build} {F : List Byte} (h : SentBy b F) : ∃ c D i, F = c :: D ∧ decodeOpcode c = .ok i := by
  obtain ⟨op, a, len, wdata, hv, rfl⟩ := h
  obtain ⟨i, hi, -⟩ := decodeOpcode_opcode ((validate_eq_ok_iff op len a).1 hv).1 op
  exact ⟨_, _, i, rfl, hi⟩

section
variable {x : {x : RefSlave // x.Wf}} {c : Byte} {i : Instr} {D M : List Byte} {y : RefSlave}

/-- Byte `j` after the echoed status is byte `j` of the command's answer. -/
theorem refSlaveDevice_byteOf (hd : decodeOpcode c = .ok i) (hc : x.1.command i D = some (M, y)) (j : Nat) :
    refSlaveDevice.byteOf x (c :: D) j = M.getD j 0x00 := by
  rw [Device.byteOf, (refSlaveDevice_command hd hc).1]; rfl

/-- The registers and FIFOs after a frame are those the command leaves. -/
theorem refSlaveDevice_after (hd : decodeOpcode c = .ok i) (hc : x.1.command i D = some (M, y)) :
    (refSlaveDevice.after x (c :: D)).1 = y := (refSlaveDevice_command hd hc).2

end

theorem refSlaveDevice_statusEcho (b : Build) : refSlaveDevice.StatusEcho b := by
  intro x F hF
  obtain ⟨c, D, i, rfl, hd⟩ := hF.exists_command
  obtain ⟨M, y, hc, -⟩ := command_answers hd x.1 D
  rw [(refSlaveDevice_command hd hc).1]; rfl

/-- A whole read of a register other than FIFO_STATUS returns the bytes that stand in it. -/
theorem refSlaveDevice_readRegister (b : Build) (x : {x : RefSlave // x.Wf}) {a : BitVec 5} (ha : inRegSet a = true) (hf : a ≠ 0x17)
    (j : Nat) : refSlaveDevice.byteOf x (readFrame b (a.zeroExtend 8) (regWidth a)) j = (x.1.reg a).getD j 0x00 := by
  have hw := x.2.widths a ha
  have hread := answer_read_whole (fills := List.replicate (regWidth a) b.fillByte) ha hf hw (by rw [List.length_replicate, hw])
  rw [readFrame, Device.byteOf, (refSlaveDevice_respond hread).1]; rfl

/-- It changes at frames only, so what was written whole stands until the next frame (R125). -/
theorem refSlaveDevice_readBack (b : Build) : refSlaveDevice.ReadBack b (fun a => a ≠ 0x17) := by
  intro x y a D hf ha hs hD hy j _
  obtain rfl | hdrift := hy
  · have hafter := (refSlaveDevice_respond (answer_write_whole ha hs hD x.1)).2
    rw [refSlaveDevice_readRegister b _ ha hf, hafter, RefSlave.reg_setReg, if_pos rfl]
  · exact hdrift.elim

/-- A frame other than a write of the status register leaves the status as it was, and a one-byte write clears by its bits (R126). -/
theorem refSlaveDevice_stickyFlags (b : Build) : refSlaveDevice.StickyFlags b := by
  intro x j hj
  refine ⟨fun F hF hhead hset => ?_, fun y hdrift => hdrift.elim, fun v => ?_⟩
  · obtain ⟨c, D, i, rfl, hd⟩ := hF.exists_command
    obtain ⟨M, y, hc, -⟩ := command_answers hd x.1 D
    have hi : i ≠ .wRegister statusAddr := fun hi => hhead (congrArg some (eq_of_decodeOpcode_write (hi ▸ hd)))
    have hstatus : refSlaveDevice.status (refSlaveDevice.after x (c :: D)) = x.1.status :=
      (congrArg RefSlave.status (refSlaveDevice_after hd hc)).trans (command_status hi hc)
    rwa [hstatus]
  · have hstatus : refSlaveDevice.status (refSlaveDevice.after x [0x27, v]) = x.1.status &&& ~~~(v &&& stickyMask) :=
      (congrArg RefSlave.status (refSlaveDevice_respond (answer_statusWrite x.1 v)).2).trans (status_setReg ..)
    have hsticky : (j == 4 || j == 5 || j == 6) = true := by simpa [or_assoc] using hj
    have hbit := statusWrite_bit x.1.status v (show j < 8 by omega)
    rw [hsticky, Bool.and_true] at hbit
    exact (congrArg (BitVec.getLsbD · j) hstatus).trans hbit

/-- Its mode and its enable line never move. -/
theorem refSlaveDevice_modeControlled (b : Build) : refSlaveDevice.ModeControlled b :=
  ⟨fun _ _ _ _ _ => rfl, fun _ _ _ => rfl⟩

/-- A payload read as long as the head of the receive FIFO returns it (R99). -/
theorem refSlaveDevice_readsWhole (b : Build) {x : {x : RefSlave // x.Wf}} {p : Payload} {ps : List Payload}
    (h : refSlaveDevice.rxFifo x = p :: ps) : refSlaveDevice.readsWhole b x p.bytes := by
  intro _ j hj
  obtain ⟨q, qs, hx, rfl, -⟩ := List.map_eq_cons_iff.1 h
  rw [readFrame, refSlaveDevice_byteOf rfl (command_rxPayload hx _), upTo_getD _ (by rwa [List.length_replicate])]

/-- A payload read of any length takes the head of the receive FIFO. -/
theorem refSlaveDevice_takesHead (b : Build) (n : Nat) {x : {x : RefSlave // x.Wf}} {p : Payload} {ps : List Payload}
    (h : refSlaveDevice.rxFifo x = p :: ps) : refSlaveDevice.rxFifo (refSlaveDevice.after x (readFrame b 0x61 n)) = ps := by
  obtain ⟨q, qs, hx, -, rfl⟩ := List.map_eq_cons_iff.1 h
  exact congrArg (fun y : RefSlave => y.rxf.map (Payload.mk 0)) (refSlaveDevice_after rfl (command_rxPayload hx _))

/-- RX_EMPTY of a FIFO_STATUS read tells whether the receive FIFO is empty. -/
theorem refSlaveDevice_rxEmpty (b : Build) (x : {x : RefSlave // x.Wf}) {n : Nat} (hn : 1 ≤ n) :
    rxEmptyOf (refSlaveDevice.byteOf x (readFrame b fifoStatusAddr n) 0) = true ↔ refSlaveDevice.rxFifo x = [] := by
  have hc : x.1.command (.rRegister 0x17) (List.replicate n b.fillByte) = some (upTo n [if x.1.rxf = [] then 0x01 else 0x00], x.1) := by
    simp [RefSlave.command]
  have hrx : refSlaveDevice.rxFifo x = [] ↔ x.1.rxf = [] := List.map_eq_nil_iff
  rw [readFrame, refSlaveDevice_byteOf rfl hc, upTo_getD _ (by omega), hrx]
  by_cases he : x.1.rxf = [] <;> simp [he, rxEmptyOf]

/-- A payload is loaded behind the others while there is room. -/
theorem refSlaveDevice_loads (x : {x : RefSlave // x.Wf}) (D : List Byte) (h : (refSlaveDevice.txFifo x).length < Config.fifoDepth) :
    refSlaveDevice.txFifo (refSlaveDevice.after x (0xA0 :: D)) = refSlaveDevice.txFifo x ++ [D] := by
  have hc : x.1.command .wTxPayload D = some (fillers D.length, { x.1 with txf := x.1.txf ++ [D] }) := if_pos h
  exact congrArg RefSlave.txf (refSlaveDevice_after rfl hc)

/-- The reference slave with both FIFOs full. -/
def fullSlave : RefSlave :=
  ⟨Vector.ofFn fun k => List.replicate (regWidth (BitVec.ofFin k)) 0x00, List.replicate Config.fifoDepth [],
    List.replicate Config.fifoDepth []⟩

theorem fullSlave_wf : fullSlave.Wf := ⟨by decide, by decide, by decide⟩

/-- The FIFO premise for every payload size (R127): both depths are kept and reached, and each frame of the FIFOs does its part. -/
theorem refSlaveDevice_fifos (b : Build) (P : Nat) : refSlaveDevice.Fifos b P := by
  refine ⟨fun x => ⟨x.2.tx_depth, ?_⟩, ⟨⟨fullSlave, fullSlave_wf⟩, rfl⟩, ⟨⟨fullSlave, fullSlave_wf⟩, rfl⟩, fun x n _ => ?_,
    fun x n _ => ?_, fun x n hn _ => refSlaveDevice_rxEmpty b x hn, fun x n p ps _ _ h => refSlaveDevice_takesHead b n h,
    fun x p ps h => refSlaveDevice_readsWhole b h, fun x D _ h => refSlaveDevice_loads x D h⟩
  · exact (List.length_map _).trans_le x.2.rx_depth
  · exact congrArg RefSlave.txf (refSlaveDevice_after (i := .flushTx) rfl rfl)
  · exact congrArg (fun y : RefSlave => y.rxf.map (Payload.mk 0)) (refSlaveDevice_after (i := .flushRx) rfl rfl)

/-- The sizes of R128 where the payload-width register of pipe 0 holds `P` and every payload has that size. -/
theorem refSlaveDevice_payloadSize (b : Build) {P : Nat} (h1 : 1 ≤ P) (h32 : P ≤ 32) :
    refSlaveDevice.PayloadSize b (fun _ => P) (fun k => k = 0)
      (fun x => x.1.reg 0x11 = [BitVec.ofNat 8 P] ∧ ∀ p ∈ x.1.rxf, p.length = P) := by
  refine ⟨fun _ _ => ⟨h1, h32⟩, fun x ⟨hreg, hsize⟩ => ⟨?_, fun p hp => ?_, fun p ps h => refSlaveDevice_readsWhole b h⟩⟩
  · rintro k rfl
    have hread : refSlaveDevice.regByte b x 0x11 = BitVec.ofNat 8 P :=
      (refSlaveDevice_readRegister b x (a := 0x11) rfl (by decide) 0).trans (by rw [hreg]; rfl)
    rw [show payloadWidthAddr 0 = 0x11 from rfl, hread, BitVec.toNat_ofNat, Nat.mod_eq_of_lt (by omega)]
  · obtain ⟨q, hq, rfl⟩ := List.mem_map.1 hp
    exact ⟨rfl, hsize q hq⟩

/-- Settles O60: each premise of the contract in turn. -/
theorem referenceSlaveMeetsTheDeviceContract : Obligations.ReferenceSlaveMeetsTheDeviceContract := fun b =>
  ⟨refSlaveDevice_statusEcho b, refSlaveDevice_readBack b, refSlaveDevice_stickyFlags b, refSlaveDevice_modeControlled b,
    fun P h1 h32 => ⟨refSlaveDevice_fifos b P, refSlaveDevice_payloadSize b h1 h32⟩⟩

end Sys2Proof.Machine
end

section
/-! PROOFS. The family of 60_exceptions.md: nothing an edge does ends in a fault or a refusal (R132). -/

namespace Sys2Proof.Machine

/-- An instruction answers a next state: a ready port accepts the request it offers, and at an unready port the edge runs without
one (R106). -/
theorem exec_answers (i : Instr) (s : State) : ∃ t, exec i s = .next t := by
  rw [exec_eq_offer]
  cases hr : s.reqReady with
  | true => exact ⟨_, offer_ready hr _ _ _⟩
  | false => exact ⟨_, offer_waits hr _ _ _⟩

/-- Settles O14: the step answers `stepState`, and an instruction what becomes of its offer. -/
theorem everyStepAnswersANextState : Obligations.EveryStepAnswersANextState := fun s =>
  ⟨⟨stepState s, step_eq s⟩, fun i => exec_answers i s⟩

end Sys2Proof.Machine
end

section
/-! PROOFS. The family of 70_reset_and_hazards.md: the reset edge (R145), and the abort of a frame up to its release (R113, R159). -/

namespace Sys2Proof.Machine

/-! ### The abort and the release that follows it -/

/-- A transport fault in an active phase aborts the frame (R113). -/
theorem step_abort {s : State} (hp : s.phase.abortable = true) (hr : s.pins.rst = false) (hf : s.pins.busFault = true) :
    step s = .next (abortEdge s).advance := by
  have hbusy : s.phase ≠ .idle := fun h => by rw [h] at hp; cases hp
  rw [step_busy hbusy, clockEdge_abort hr hp hf]

/-- `stepState` is the state a step answers. -/
theorem stepState_of_step {s t : State} (h : step s = .next t) : stepState s = t :=
  Host.Outcome.next.inj ((step_eq s).symm.trans h)

/-- A run goes on from what its first step answers. -/
theorem after_one_add_of_step {s t : State} (h : step s = .next t) (k : Nat) : after s (1 + k) = after t k := by
  rw [Nat.add_comm, after_succ, stepState_of_step h]

/-- Without a reset, HOLD counts to its end and then releases chip-select, after the completion that `fault_l` chooses (R111). -/
theorem after_hold_end {t : State} (hp : t.phase = .hold) (hr : ∀ i ≤ t.cnt, (t.pinsAfter i).rst = false) :
    after t (t.cnt + 1) =
      (release (if t.faultL then completeTransportError (waited t t.cnt) else completeOK (waited t t.cnt))).advance := by
  have hwait : after t t.cnt = waited t t.cnt :=
    after_counting le_rfl (.inr (.inr (.inr hp))) (fun i hi => hr i hi.le) fun i _ ha => by rw [hp] at ha; cases ha
  have hpins : (waited t t.cnt).pins.rst = false := by
    rw [← hwait, State.pins, after_pinsAfter, Nat.zero_add]
    exact hr _ le_rfl
  rw [after_succ', hwait]
  exact stepState_of_step (step_hold_end hp (Nat.sub_self _) hpins)

/-- Settles O38: the abort edge loads HOLD with `fault_l` set, HOLD only counts for T_HOLD cycles, and its last edge releases
chip-select with the TransportError completion. -/
theorem transportFaultAbortsAndReleases : Obligations.TransportFaultAbortsAndReleases := by
  intro s hp hr hf
  have habort : step s = .next (abortEdge s).advance := step_abort (Phase.abortable_iff.2 hp) hr hf
  refine ⟨habort, fun hq => ?_⟩
  have hcnt : (abortEdge s).advance.cnt + 1 = (s.build.tHold : Nat) := reload_add_one s.build.tHold
  have hpins : ∀ i < (s.build.tHold : Nat), ((abortEdge s).advance.pinsAfter i).rst = false := fun i hi => by
    rw [pinsAfter_advance]
    exact hq (i + 1) (by omega) (by omega)
  have hrun (k : Nat) : runEdges (1 + k) s = .next (after (abortEdge s).advance k) := by
    rw [run_eq, after_one_add_of_step habort]
  refine ⟨fun k hk => ⟨waited (abortEdge s).advance k, ?_, rfl, rfl, rfl, rfl, rfl, rfl⟩, ?_⟩
  · rw [hrun, after_counting (by omega) (.inr (.inr (.inr rfl))) (fun i hi => hpins i (by omega)) fun _ _ ha => by cases ha]
  · refine ⟨_, hrun _, ?_⟩
    rw [← hcnt, after_hold_end rfl fun i hi => hpins i (by omega)]
    exact ⟨rfl, rfl, rfl, rfl, rfl, rfl, rfl, rfl, rfl, rfl, rfl, rfl⟩

/-! ### The reset edge -/

/-- A reset edge takes no request, whatever the phase (R106, R145). -/
theorem step_reset {s : State} (h : s.pins.rst = true) : step s = .next (resetEdge s).advance := by
  rw [step_untaken fun _ => by simp [State.reqReady, h], clockEdge_reset h]

/-- The reset edge leaves the registers of `State.reset` (R47). -/
theorem resetEdge_justReset (s : State) : (resetEdge s).advance.justReset := rfl

/-- Settles O17: each register is the one `resetEdge` writes. -/
theorem resetEdgeSetsEveryRegister : Obligations.ResetEdgeSetsEveryRegister := by
  intro s h
  have hready : s.reqReady = false := by simp [State.reqReady, h]
  have hnext : (resetEdge s).advance.pins.rst = false → (resetEdge s).advance.reqReady = true := fun hr => (reqReady_iff _).2 ⟨rfl, hr⟩
  have htx : ∀ k, (resetEdge s).advance.txFrame.get k = 0x00 := Vector.get_replicate 33 0x00
  have hrdata : ∀ k, (resetEdge s).advance.rspRdata.get k = 0x00 := Vector.get_replicate 32 0x00
  exact ⟨hready, _, step_reset h, rfl, rfl, rfl, rfl, rfl, rfl, htx, rfl, rfl, rfl, rfl, rfl, rfl, rfl, rfl, rfl, hrdata, rfl, rfl, rfl,
    rfl, rfl, rfl, rfl, hnext, resetEdge_justReset s⟩

end Sys2Proof.Machine
end
